-- ==== Sys2Proof/Word.lean ====
section
/-! DEFINITION. The word types of the block: 32-bit command and response words (spec/30_encoding.md R80, R84),
16-bit DATA, samples and phases (R83), bytes (spec/00_scope.md R7). -/

namespace Sys2Proof

/-- A command word or a response word (R80, R84): a port moves whole words only (R64, R66). -/
abbrev Word := BitVec 32

/-- The 16-bit pattern of a DATA field, of an int16 sample (its value is `toInt`) or of a u16 phase (its value is
`toNat`) (R7, R83). -/
abbrev Half := BitVec 16

/-- A u8: the framing decoder's accumulator and output cell (R33, R34). -/
abbrev Byte := BitVec 8

/-- A signed 32-bit register of a biquad (R27): its value is `toInt`. -/
abbrev Wide := BitVec 32

end Sys2Proof
end

