-- ==== Sys2Proof/Config.lean ====
section
/-! DEFINITION. The configuration of spec/00_scope.md R3: the parameters a model takes as arguments, their legal
ranges, and the values State.reset starts with. The parameters the spec marks OPEN are opaque constants (no body). -/

namespace Sys2Proof

/-- A biquad's coefficients (b0, b1, b2, a1, a2), each an int16 (R28). -/
structure Coef where
  b0 : Half
  b1 : Half
  b2 : Half
  a1 : Half
  a2 : Half
  deriving DecidableEq, Repr, Inhabited

/-- IIR_ROUND (R111). -/
inductive IirRound where
  | floor
  | nearest
  deriving DecidableEq, Repr

/-- IIR_OUT and IIR_STATE_OVF: reduce by saturation or by a two's-complement wrap (R111, R112). -/
inductive RangeMode where
  | sat
  | wrap
  deriving DecidableEq, Repr

/-- DEMOD_POL (R132). -/
inductive DemodPol where
  | gtIsOne
  | gtIsZero
  deriving DecidableEq, Repr

/-- QUEUE_VIEW (R45, R163). -/
inductive QueueView where
  | immediate
  | lagged
  deriving DecidableEq, Repr

/-- DEMOD_DEPTH, fixed (R3). The other fixed parameters PHASE_W, IIR_STATE_W, IIR_COEF_W, RB_W and FRAME_DATA_BITS are
the widths of the types of `Word.lean`. -/
abbrev demodDepth : Nat := 22

/-- DEMOD_SHIFT, fixed (R3, R131). -/
abbrev demodShift : Nat := 15

/-- The parameters of R3, legal or not. The names are R3's in lower camel case. -/
structure Params where
  ddsTb : Nat
  ddsWave : List Half
  iirF : Nat
  iirCoef : Coef
  iirRound : IirRound
  iirOut : RangeMode
  iirStateOvf : RangeMode
  demodLag : Nat
  demodThresh : Half
  demodPol : DemodPol
  demodCoef : Coef
  rbN : Nat
  txqInitWr : Nat
  txqInitRd : Nat
  rxqInitWr : Nat
  rxqInitRd : Nat
  queueView : QueueView
  deriving DecidableEq, Repr

/-- The legal ranges of R3. -/
abbrev Params.Legal (p : Params) : Prop :=
  (1 ≤ p.ddsTb ∧ p.ddsTb ≤ 16) ∧ p.ddsWave.length = 2 ^ p.ddsTb ∧ p.iirF ≤ 15 ∧
  (1 ≤ p.demodLag ∧ p.demodLag ≤ demodDepth) ∧ (2 ≤ p.rbN ∧ p.rbN ≤ 65536) ∧
  (p.txqInitWr < p.rbN ∧ p.txqInitRd < p.rbN) ∧ (p.rxqInitWr < p.rbN ∧ p.rxqInitRd < p.rbN)

/-- A configuration a model may be given: R3 "A model must refuse such a configuration and must not give it a
meaning", so an ill-formed one cannot be built. -/
structure Config extends Params where
  legal : toParams.Legal
  deriving DecidableEq, Repr

/-- R3, spec/93_implementation_defined.md I17: the configuration with these parameters, refused when a parameter
is outside its legal range. -/
def Config.ofParams (p : Params) : Option Config :=
  if h : p.Legal then some { toParams := p, legal := h } else none

/-- The configuration with another QUEUE_VIEW; both values are legal (R3). -/
def Config.withView (c : Config) (v : QueueView) : Config where
  toParams := { c.toParams with queueView := v }
  legal := c.legal

/-- DDS_TB − 1, OPEN (R3, D13): a legal DDS_TB is 1..16. -/
opaque Config.openDdsTb : Fin 16

/-- DDS_WAVE, OPEN (R3, D13): entry by index. -/
opaque Config.openDdsWave : Nat → Half

/-- IIR_F, OPEN (R3, D14): a legal value is 0..15. -/
opaque Config.openIirF : Fin 16

/-- IIR_COEF, OPEN (R3, D14). -/
opaque Config.openIirCoef : Coef

/-- DEMOD_THRESH, OPEN (R3, D19). -/
opaque Config.openDemodThresh : Half

/-- The "value" column of R3. DEMOD_COEF is equal to IIR_COEF there. -/
def Params.default : Params where
  ddsTb := Config.openDdsTb.val + 1
  ddsWave := (List.range (2 ^ (Config.openDdsTb.val + 1))).map Config.openDdsWave
  iirF := Config.openIirF.val
  iirCoef := Config.openIirCoef
  iirRound := .floor
  iirOut := .sat
  iirStateOvf := .wrap
  demodLag := 21
  demodThresh := Config.openDemodThresh
  demodPol := .gtIsOne
  demodCoef := Config.openIirCoef
  rbN := 8
  txqInitWr := 4
  txqInitRd := 0
  rxqInitWr := 0
  rxqInitRd := 0
  queueView := .lagged

theorem Params.default_legal : Params.default.Legal := by
  have tb := Config.openDdsTb.isLt
  have f := Config.openIirF.isLt
  refine ⟨?_, ?_, ?_, by decide, by decide, by decide, by decide⟩
  · simp only [Params.default]; omega
  · simp only [Params.default, List.length_map, List.length_range]
  · simp only [Params.default]; omega

/-- The configuration of the block as R3's "value" column gives it, for whatever the OPEN parameters are. -/
def Config.default : Config where
  toParams := Params.default
  legal := Params.default_legal

end Sys2Proof
end

