-- ==== Sys2Proof/Syntax.lean ====
section
/-! DEFINITION. The sixteen commands of spec/30_encoding.md R82, one constructor per row of spec/opcode_table.json,
and the two command ports (spec/20_memory.md R60). -/

namespace Sys2Proof

/-- The two command ports (R60). -/
inductive Port where
  | core
  | xport
  deriving DecidableEq, Repr

/-- The commands (R82). An operand is the DATA field as R83 reads it: a u16 or the pattern of an int16, or the one
bit of FRAME.PROCESS. Every operand value is legal (R83), so every term of `Instr` is well formed. -/
inductive Instr where
  | ddsSetPhase (v : Half)
  | ddsSetInc (v : Half)
  | ddsNext
  | iirReset
  | iirProcess (x : Half)
  | demodProcess (x : Half)
  | frameProcess (b : Bool)
  | txqPush (x : Half)
  | txqPop
  | txqIsEmpty
  | txqIsFull
  | rxqPush (x : Half)
  | rxqPop
  | rxqIsEmpty
  | rxqIsFull
  | blkStatus
  deriving DecidableEq, Repr

end Sys2Proof
end

