-- ==== Sys2Proof/WellFormed.lean ====
section
/-! DEFINITION. What is well formed. A configuration: `Params.Legal` (Config.lean, spec/00_scope.md R3). A command as
an assembler reads it (spec/30_encoding.md R92, R93): the operand must be present or absent as the mnemonic asks and
within its range, "An assembler refuses an operand outside these ranges and does not truncate it". -/

namespace Sys2Proof

/-- The mnemonics of R92 (those of R82 in lower case). -/
inductive Mnemonic where
  | ddsSetPhase
  | ddsSetInc
  | ddsNext
  | iirReset
  | iirProcess
  | demodProcess
  | frameProcess
  | txqPush
  | txqPop
  | txqIsEmpty
  | txqIsFull
  | rxqPush
  | rxqPop
  | rxqIsEmpty
  | rxqIsFull
  | blkStatus
  deriving DecidableEq, Repr

/-- An operand as written: none, a decimal number, or a hexadecimal number (R92). -/
inductive Operand where
  | absent
  | dec (v : Int)
  | hex (v : Nat)
  deriving DecidableEq, Repr

/-- One line of an assembler text (R92): a mnemonic with its operand, or `.word` with a raw word. -/
inductive AsmLine where
  | command (m : Mnemonic) (o : Operand)
  | word (w : Nat)
  deriving DecidableEq, Repr

/-- R92: a `<u16>` is written in decimal in [0, 65535] or in hexadecimal. -/
def Operand.u16 : Operand → Option Half
  | .absent => none
  | .dec v => if 0 ≤ v ∧ v ≤ 65535 then some (BitVec.ofInt 16 v) else none
  | .hex v => if v ≤ 0xFFFF then some (BitVec.ofNat 16 v) else none

/-- R92: an `<int16>` is written in decimal in [−32768, 32767] or as its 16-bit pattern. -/
def Operand.int16 : Operand → Option Half
  | .absent => none
  | .dec v => if -32768 ≤ v ∧ v ≤ 32767 then some (BitVec.ofInt 16 v) else none
  | .hex v => if v ≤ 0xFFFF then some (BitVec.ofNat 16 v) else none

/-- R92: the operand of frame.process is `<0|1>`. DESIGN CHOICE (log 13), safe: in decimal only. -/
def Operand.bit : Operand → Option Bool
  | .dec 0 => some false
  | .dec 1 => some true
  | _ => none

/-- R92: a command without an operand is written without one. -/
def Operand.none (i : Instr) : Operand → Option Instr
  | .absent => some i
  | _ => Option.none

/-- R92, R93: the command a line stands for, refused when its operand is not well formed. -/
def Mnemonic.instr (o : Operand) : Mnemonic → Option Instr
  | .ddsSetPhase => o.u16.map .ddsSetPhase
  | .ddsSetInc => o.u16.map .ddsSetInc
  | .ddsNext => o.none .ddsNext
  | .iirReset => o.none .iirReset
  | .iirProcess => o.int16.map .iirProcess
  | .demodProcess => o.int16.map .demodProcess
  | .frameProcess => o.bit.map .frameProcess
  | .txqPush => o.int16.map .txqPush
  | .txqPop => o.none .txqPop
  | .txqIsEmpty => o.none .txqIsEmpty
  | .txqIsFull => o.none .txqIsFull
  | .rxqPush => o.int16.map .rxqPush
  | .rxqPop => o.none .rxqPop
  | .rxqIsEmpty => o.none .rxqIsEmpty
  | .rxqIsFull => o.none .rxqIsFull
  | .blkStatus => o.none .blkStatus

/-- R92: whether an assembler accepts the line. -/
def AsmLine.wf : AsmLine → Bool
  | .command m o => (m.instr o).isSome
  | .word w => decide (w < 2 ^ 32)

end Sys2Proof
end

