-- ==== Sys2Proof/Decode.lean ====
section
/-! DEFINITION. Decoding and encoding of command words (spec/30_encoding.md R80 to R93) and the port rights of R88. -/

namespace Sys2Proof

/-- UNIT, bits 31:28 (R80). -/
def unitOf (w : Word) : BitVec 4 := w.extractLsb' 28 4

/-- OP, bits 27:24 (R80). -/
def opOf (w : Word) : BitVec 4 := w.extractLsb' 24 4

/-- RSV, bits 23:16 (R80). -/
def rsvOf (w : Word) : BitVec 8 := w.extractLsb' 16 8

/-- DATA, bits 15:0 (R80). -/
def dataOf (w : Word) : Half := w.setWidth 16

/-- One row of the opcode map of R82; `build` reads the operand of R83 from the DATA field. -/
structure Row where
  mnemonic : String
  pattern : Word
  mask : Word
  ports : List Port
  build : Half → Instr

/-- The opcode map of R82, in the order of the table. -/
def rows : List Row :=
  [ ⟨"DDS.SETPHASE", 0x10000000, 0xFFFF0000, [.core], .ddsSetPhase⟩,
    ⟨"DDS.SETINC", 0x11000000, 0xFFFF0000, [.core], .ddsSetInc⟩,
    ⟨"DDS.NEXT", 0x12000000, 0xFFFFFFFF, [.core], fun _ => .ddsNext⟩,
    ⟨"IIR.RESET", 0x20000000, 0xFFFFFFFF, [.core], fun _ => .iirReset⟩,
    ⟨"IIR.PROCESS", 0x21000000, 0xFFFF0000, [.core], .iirProcess⟩,
    ⟨"DEMOD.PROCESS", 0x30000000, 0xFFFF0000, [.core], .demodProcess⟩,
    ⟨"FRAME.PROCESS", 0x40000000, 0xFFFFFFFE, [.core], fun d => .frameProcess (d.getLsbD 0)⟩,
    ⟨"TXQ.PUSH", 0x50000000, 0xFFFF0000, [.core], .txqPush⟩,
    ⟨"TXQ.POP", 0x51000000, 0xFFFFFFFF, [.xport], fun _ => .txqPop⟩,
    ⟨"TXQ.ISEMPTY", 0x52000000, 0xFFFFFFFF, [.core, .xport], fun _ => .txqIsEmpty⟩,
    ⟨"TXQ.ISFULL", 0x53000000, 0xFFFFFFFF, [.core, .xport], fun _ => .txqIsFull⟩,
    ⟨"RXQ.PUSH", 0x60000000, 0xFFFF0000, [.xport], .rxqPush⟩,
    ⟨"RXQ.POP", 0x61000000, 0xFFFFFFFF, [.core], fun _ => .rxqPop⟩,
    ⟨"RXQ.ISEMPTY", 0x62000000, 0xFFFFFFFF, [.core, .xport], fun _ => .rxqIsEmpty⟩,
    ⟨"RXQ.ISFULL", 0x63000000, 0xFFFFFFFF, [.core, .xport], fun _ => .rxqIsFull⟩,
    ⟨"BLK.STATUS", 0x70000000, 0xFFFFFFFF, [.core, .xport], fun _ => .blkStatus⟩ ]

/-- R87: `(cmd AND r.mask) = r.match`. -/
def Row.admits (r : Row) (w : Word) : Bool := w &&& r.mask == r.pattern

/-- R87: the command a word encodes, or NONE. Total on all 2^32 words. -/
def decode (w : Word) : Option Instr :=
  (rows.find? (·.admits w)).map fun r => r.build (dataOf w)

/-- Why a word is ILLEGAL: the five cases of R87. -/
inductive IllegalReason where
  | reservedUnit
  | unlistedOp
  | reservedBits
  | dataNotZero
  | dataNotBit
  deriving DecidableEq, Repr

/-- R87 clause 2: the operations listed for a unit, OP values 0 up to this number less one. -/
def opCount (u : BitVec 4) : Nat :=
  match u.toNat with
  | 1 => 3
  | 2 => 2
  | 3 => 1
  | 4 => 1
  | 5 => 4
  | 6 => 4
  | 7 => 1
  | _ => 0

/-- R83: the commands that take a 16-bit operand, by UNIT and OP. -/
def takesHalf (u o : BitVec 4) : Bool :=
  match u.toNat, o.toNat with
  | 1, 0 => true
  | 1, 1 => true
  | 2, 1 => true
  | 3, 0 => true
  | 5, 0 => true
  | 6, 0 => true
  | _, _ => false

/-- R87 clauses 1 to 5, by the fields of R80 and in the order of R87: the name of the rejection, or none for a word
that encodes a command. -/
def illegalReason (w : Word) : Option IllegalReason :=
  if opCount (unitOf w) = 0 then some .reservedUnit
  else if opCount (unitOf w) ≤ (opOf w).toNat then some .unlistedOp
  else if rsvOf w ≠ 0 then some .reservedBits
  else if takesHalf (unitOf w) (opOf w) then none
  else if unitOf w = 4 then if (dataOf w).toNat / 2 = 0 then none else some .dataNotBit
  else if dataOf w = 0 then none else some .dataNotZero

/-- R80: the word with these fields and RSV = 0. -/
def commandWord (unit op : BitVec 4) (data : Half) : Word := unit ++ op ++ (0 : BitVec 8) ++ data

/-- R82: the word of a command, by the UNIT, OP and DATA columns. -/
def encode : Instr → Word
  | .ddsSetPhase v => commandWord 1 0 v
  | .ddsSetInc v => commandWord 1 1 v
  | .ddsNext => commandWord 1 2 0
  | .iirReset => commandWord 2 0 0
  | .iirProcess x => commandWord 2 1 x
  | .demodProcess x => commandWord 3 0 x
  | .frameProcess b => commandWord 4 0 (BitVec.zeroExtend 16 (BitVec.ofBool b))
  | .txqPush x => commandWord 5 0 x
  | .txqPop => commandWord 5 1 0
  | .txqIsEmpty => commandWord 5 2 0
  | .txqIsFull => commandWord 5 3 0
  | .rxqPush x => commandWord 6 0 x
  | .rxqPop => commandWord 6 1 0
  | .rxqIsEmpty => commandWord 6 2 0
  | .rxqIsFull => commandWord 6 3 0
  | .blkStatus => commandWord 7 0 0

/-- R88: the ports that may issue a command. -/
def Instr.ports : Instr → List Port
  | .ddsSetPhase _ => [.core]
  | .ddsSetInc _ => [.core]
  | .ddsNext => [.core]
  | .iirReset => [.core]
  | .iirProcess _ => [.core]
  | .demodProcess _ => [.core]
  | .frameProcess _ => [.core]
  | .txqPush _ => [.core]
  | .txqPop => [.xport]
  | .txqIsEmpty => [.core, .xport]
  | .txqIsFull => [.core, .xport]
  | .rxqPush _ => [.xport]
  | .rxqPop => [.core]
  | .rxqIsEmpty => [.core, .xport]
  | .rxqIsFull => [.core, .xport]
  | .blkStatus => [.core, .xport]

/-- R92: the word of an assembler line; none for a line the assembler refuses. `.word` gives any 32-bit word, a
reserved one too. -/
def assemble : AsmLine → Option Word
  | .command m o => (m.instr o).map encode
  | .word w => if w < 2 ^ 32 then some (BitVec.ofNat 32 w) else none

/-- The instruction this decoder reads from a word of `nbits` bits numbered as spec/opcode_table.json numbers them;
every command is one whole 32-bit word (R64, R91). -/
def decodeTableWord (nbits w : Nat) : Option Instr :=
  if w % 2 ^ nbits < 2 ^ 32 then decode (BitVec.ofNat 32 (w % 2 ^ nbits)) else none

end Sys2Proof
end

