-- ==== Sys2Proof/Machine/State.lean ====
section
/-! DEFINITION. The state of the block (spec/10_state.md R22), the hosts' sides of the two ports, the schedule, the
reasons a step can stop, and the state after reset (spec/70_reset_and_hazards.md R230). -/

namespace Sys2Proof.Machine

/-- Why the machine faults. The block itself never traps (R200): one reason, for a state no run reaches. -/
inductive Fault where
  /-- Raised by TXQ.PUSH, TXQ.POP, RXQ.PUSH and RXQ.POP when the cursor names a cell outside 0..RB_N−1, which does
  not exist (R62). Safe: cursors stay in range (R42), so no reachable state raises it (log 7). -/
  | noSuchCell
  deriving DecidableEq, Repr

/-- Why the machine gives a run no meaning. -/
inductive Refusal where
  /-- Raised by an arm of `exec` for a command that has no meaning yet. Safe. -/
  | notModelled (mnemonic : String)
  /-- Raised by `step` when a host gives a command before the response to its previous one: R239 "a model refuses a
  run in which a host does so". Safe (log 5). -/
  | overlappingCommands
  deriving DecidableEq, Repr

/-- The DDS tone generator (R24, R25). -/
structure Dds where
  phase : Half
  inc : Half
  deriving DecidableEq, Repr

/-- The two DF2T delay registers of one biquad instance (R27, R30). -/
structure Biquad where
  s1 : Wide
  s2 : Wide
  deriving DecidableEq, Repr

/-- The FSK demodulator: `d[0]` is the newest entry of the delay line (R29), `f` its own IIR instance (R30). -/
structure Demod where
  d : Vector Half demodDepth
  f : Biquad
  deriving DecidableEq, Repr

/-- The framing decoder's states (R32). -/
inductive FrameState where
  | idle
  | start
  | data (i : Fin 8)
  | stop
  deriving DecidableEq, Repr

/-- The framing decoder (R32 to R35). -/
structure Frame where
  st : FrameState
  acc : Byte
  out : Byte
  prev : Bool
  deriving DecidableEq, Repr

/-- The storage of a queue (R41, R62): the cells that do not hold 0, by index. A cell that is not listed reads 0, its
reset value (log 8). -/
structure Memory where
  cells : List (Nat × Half)
  deriving DecidableEq, Repr

/-- The canonical form: indices strictly rising, no entry equal to what an unlisted cell reads as. -/
def Memory.wf (m : Memory) : Bool :=
  decide (m.cells.Pairwise fun a b => a.1 < b.1) && m.cells.all fun c => c.2 != 0

/-- One ring buffer with both sides' cursors and views (R40 to R45). -/
structure Queue where
  cell : Memory
  wr : Nat
  rd : Nat
  rdSeen : Nat
  wrSeen : Nat
  deriving DecidableEq, Repr

/-- The sticky fault bits and their CORE-domain copies (R47, R48). -/
structure Blk where
  txUnderrun : Bool
  rxOverrun : Bool
  txUnderrunSeen : Bool
  rxOverrunSeen : Bool
  deriving DecidableEq, Repr

/-- The two queue instances (R40). -/
inductive QueueId where
  | txq
  | rxq
  deriving DecidableEq, Repr

/-- The agents of R61. -/
inductive Agent where
  | port (p : Port)
  | syncW (q : QueueId)
  | syncR (q : QueueId)
  | syncF
  deriving DecidableEq, Repr

/-- A command a host has to give: its word, and whether the host gives it before the response to its previous command
(R239; log 5). -/
structure Offer where
  word : Word
  early : Bool
  deriving DecidableEq, Repr

/-- The host's side of one port: the commands still to be given, in order (R21, R246), and the responses so far,
oldest first (R246). -/
structure PortIo where
  pending : List Offer
  responses : List Word
  deriving DecidableEq, Repr

/-- The state. `cfg` is the configuration, a parameter of the whole run that no step writes (R235; log 1). `dds` to
`blk` are R22's record. `core` and `xport` are the hosts' sides of the ports and `active` the port whose command is
being executed (R8, R86; log 4). `sched` says which agents step next (R61; log 3). -/
structure State where
  cfg : Config
  dds : Dds
  iir : Biquad
  demod : Demod
  frame : Frame
  txq : Queue
  rxq : Queue
  blk : Blk
  core : PortIo
  xport : PortIo
  active : Port
  sched : List Agent
  deriving DecidableEq, Repr

/-- The state after reset under a configuration (R230). The model's own fields start empty, with `active` = CORE:
DESIGN CHOICE, safe (log 4). -/
def State.resetWith (c : Config) : State where
  cfg := c
  dds := { phase := 0, inc := 0 }
  iir := { s1 := 0, s2 := 0 }
  demod := { d := Vector.replicate demodDepth 0, f := { s1 := 0, s2 := 0 } }
  frame := { st := .idle, acc := 0, out := 0, prev := true }
  txq := { cell := { cells := [] }, wr := c.txqInitWr, rd := c.txqInitRd, rdSeen := c.txqInitRd, wrSeen := c.txqInitWr }
  rxq := { cell := { cells := [] }, wr := c.rxqInitWr, rd := c.rxqInitRd, rdSeen := c.rxqInitRd, wrSeen := c.rxqInitWr }
  blk := { txUnderrun := false, rxOverrun := false, txUnderrunSeen := false, rxOverrunSeen := false }
  core := { pending := [], responses := [] }
  xport := { pending := [], responses := [] }
  active := .core
  sched := []

/-- The state after reset under the "value" column of R3, whatever the OPEN parameters are (log 2). -/
def State.reset : State := State.resetWith Config.default

end Sys2Proof.Machine
end

