-- ==== Sys2Proof/Machine/Flags.lean ====
section
/-! DEFINITION. Every condition the block reports: the STATUS codes and the response word (spec/30_encoding.md R84,
R85), the queue predicates and occupancies (spec/10_state.md R44, R46; spec/44_queue.md R165), and the six flags of
BLK.STATUS (spec/45_block.md R190). The block has no flag register (R49). -/

namespace Sys2Proof.Machine

/-- The STATUS codes (R85). Codes 5 to 15 are never produced: they have no constructor. -/
inductive Status where
  | ok
  | full
  | empty
  | illegal
  | wrongPort
  deriving DecidableEq, Repr

/-- R85. -/
def Status.code : Status → BitVec 4
  | .ok => 0
  | .full => 1
  | .empty => 2
  | .illegal => 3
  | .wrongPort => 4

/-- R84: the word `status[3:0], 11'b0, valid, data[15:0]`. -/
def responseWord (st : Status) (valid : Bool) (data : Half) : Word :=
  st.code ++ (0 : BitVec 11) ++ BitVec.ofBool valid ++ data

/-- The cursor after `i` in a ring of `n` slots (R42). -/
def nextSlot (n i : Nat) : Nat := (i + 1) % n

/-- `(a − b) mod n` for cursors of a ring of `n` slots (R44). -/
def distance (n a b : Nat) : Nat := (a + n - b) % n

/-- R44: the true occupancy. -/
def Queue.occ (n : Nat) (q : Queue) : Nat := distance n q.wr q.rd

/-- R46: the producer's occupancy. -/
def Queue.occP (n : Nat) (q : Queue) : Nat := distance n q.wr q.rdSeen

/-- R46: the consumer's occupancy. -/
def Queue.occC (n : Nat) (q : Queue) : Nat := distance n q.wrSeen q.rd

/-- R44: truly empty. -/
def Queue.isEmpty (q : Queue) : Bool := q.wr == q.rd

/-- R44: truly full. -/
def Queue.isFull (n : Nat) (q : Queue) : Bool := nextSlot n q.wr == q.rd

/-- R165: empty as the producer sees it. -/
def Queue.emptyP (q : Queue) : Bool := q.wr == q.rdSeen

/-- R165: full as the producer sees it. -/
def Queue.fullP (n : Nat) (q : Queue) : Bool := nextSlot n q.wr == q.rdSeen

/-- R165: empty as the consumer sees it. -/
def Queue.emptyC (q : Queue) : Bool := q.wrSeen == q.rd

/-- R165: full as the consumer sees it. -/
def Queue.fullC (n : Nat) (q : Queue) : Bool := nextSlot n q.wrSeen == q.rd

/-- R160, R164: empty as a port sees it, from the side it is on. -/
def State.txqEmptyAt (s : State) : Port → Bool
  | .core => s.txq.emptyP
  | .xport => s.txq.emptyC

/-- R160, R164. -/
def State.txqFullAt (s : State) : Port → Bool
  | .core => s.txq.fullP s.cfg.rbN
  | .xport => s.txq.fullC s.cfg.rbN

/-- R160, R164. -/
def State.rxqEmptyAt (s : State) : Port → Bool
  | .core => s.rxq.emptyC
  | .xport => s.rxq.emptyP

/-- R160, R164. -/
def State.rxqFullAt (s : State) : Port → Bool
  | .core => s.rxq.fullC s.cfg.rbN
  | .xport => s.rxq.fullP s.cfg.rbN

/-- R190: TX_UNDERRUN as a port sees it. -/
def State.txUnderrunAt (s : State) : Port → Bool
  | .core => s.blk.txUnderrunSeen
  | .xport => s.blk.txUnderrun

/-- R190: RX_OVERRUN as a port sees it. -/
def State.rxOverrunAt (s : State) : Port → Bool
  | .core => s.blk.rxOverrunSeen
  | .xport => s.blk.rxOverrun

/-- R190: the RDATA of BLK.STATUS, `10'b0, f5, f4, f3, f2, f1, f0`. -/
def State.statusData (s : State) (p : Port) : Half :=
  (0 : BitVec 10) ++ BitVec.ofBool (s.rxOverrunAt p) ++ BitVec.ofBool (s.txUnderrunAt p) ++
    BitVec.ofBool (s.rxqFullAt p) ++ BitVec.ofBool (s.rxqEmptyAt p) ++ BitVec.ofBool (s.txqFullAt p) ++
    BitVec.ofBool (s.txqEmptyAt p)

end Sys2Proof.Machine
end

