-- ==== Sys2Proof/Machine/Ops.lean ====
section
/-! DEFINITION. The named operations the meanings share: the cell primitives MemRead and MemWrite (spec/20_memory.md
R62), the response of a command (spec/00_scope.md R8), the port rights (spec/30_encoding.md R88), the error answers
and the escalations in the place of exceptions (spec/60_exceptions.md R202 to R208), push and pop (spec/44_queue.md
R161, R162) and the synchronisers' copies (R166 to R168). -/

namespace Sys2Proof.Machine

/-! ### Cells -/

/-- What a cell holds; a cell that is not listed holds 0, its reset value (R41). -/
def Memory.read (m : Memory) (i : Nat) : Half := (m.cells.lookup i).getD 0

/-- Writes one entry of a canonical list; writing 0 removes the entry. -/
def putCell (i : Nat) (v : Half) : List (Nat × Half) → List (Nat × Half)
  | [] => if v = 0 then [] else [(i, v)]
  | c :: cs =>
    if i < c.1 then if v = 0 then c :: cs else (i, v) :: c :: cs
    else if i = c.1 then if v = 0 then cs else (i, v) :: cs
    else c :: putCell i v cs

/-- The memory with cell `i` holding `v`. -/
def Memory.write (m : Memory) (i : Nat) (v : Half) : Memory := { cells := putCell i v m.cells }

/-- R62 `MemRead(q, i)`; a cell outside 0..n−1 does not exist. -/
def memRead (n : Nat) (m : Memory) (i : Nat) : Except Fault Half :=
  if i < n then .ok (m.read i) else .error .noSuchCell

/-- R62 `MemWrite(q, i, v)`; a cell outside 0..n−1 does not exist. -/
def memWrite (n : Nat) (m : Memory) (i : Nat) (v : Half) : Except Fault Memory :=
  if i < n then .ok (m.write i v) else .error .noSuchCell

/-! ### Ports -/

/-- The host's side of a port. -/
def State.io (s : State) : Port → PortIo
  | .core => s.core
  | .xport => s.xport

/-- The state with the host's side of a port replaced. -/
def State.setIo (s : State) (p : Port) (io : PortIo) : State :=
  match p with
  | .core => { s with core := io }
  | .xport => { s with xport := io }

/-- R84: the response leaves on the port the command came from. -/
def State.reply (s : State) (w : Word) : State :=
  s.setIo s.active { s.io s.active with responses := (s.io s.active).responses ++ [w] }

/-- R8 `respond(status, valid, data)`: the command completes with its one response (R66, R86). -/
def respond (s : State) (st : Status) (valid : Bool) (data : Half) : Host.Outcome State Fault Refusal :=
  .next (s.reply (responseWord st valid data))

/-- R8 `raise Illegal(cmd)`, R202: no state written. -/
def raiseIllegal (s : State) : Host.Outcome State Fault Refusal := respond s .illegal false 0

/-- R8 `raise WrongPort(cmd)`, R203: no state written. -/
def raiseWrongPort (s : State) : Host.Outcome State Fault Refusal := respond s .wrongPort false 0

/-- R86, R88: runs the rule of a command if the port may issue it, else answers WRONG_PORT. -/
def withRights (ports : List Port) (s : State) (rule : Host.Outcome State Fault Refusal) :
    Host.Outcome State Fault Refusal :=
  if s.active ∈ ports then rule else raiseWrongPort s

/-! ### Queues -/

/-- A queue of the state. -/
def State.queue (s : State) : QueueId → Queue
  | .txq => s.txq
  | .rxq => s.rxq

/-- The state with a queue replaced. -/
def State.setQueue (s : State) (k : QueueId) (q : Queue) : State :=
  match k with
  | .txq => { s with txq := q }
  | .rxq => { s with rxq := q }

/-- R161: `none` is FULL; the cell write and the cursor advance are one step (R67); R163 for the view. -/
def Queue.push (c : Config) (q : Queue) (x : Half) : Except Fault (Option Queue) :=
  if q.fullP c.rbN then .ok none
  else (memWrite c.rbN q.cell q.wr x).map fun m =>
    some { q with
      cell := m
      wr := nextSlot c.rbN q.wr
      wrSeen := if c.queueView = .immediate then nextSlot c.rbN q.wr else q.wrSeen }

/-- R162: `none` is EMPTY; the cell is not cleared; R163 for the view. -/
def Queue.pop (c : Config) (q : Queue) : Except Fault (Option (Half × Queue)) :=
  if q.emptyC then .ok none
  else (memRead c.rbN q.cell q.rd).map fun x =>
    some (x, { q with
      rd := nextSlot c.rbN q.rd
      rdSeen := if c.queueView = .immediate then nextSlot c.rbN q.rd else q.rdSeen })

/-! ### Synchroniser copies and the sticky bits -/

/-- R166 `SYNC_W(q)`. -/
def Queue.syncW (q : Queue) : Queue := { q with wrSeen := q.wr }

/-- R167 `SYNC_R(q)`. -/
def Queue.syncR (q : Queue) : Queue := { q with rdSeen := q.rd }

/-- R168 `SYNC_F`. -/
def Blk.syncF (b : Blk) : Blk := { b with txUnderrunSeen := b.txUnderrun, rxOverrunSeen := b.rxOverrun }

/-- R168: under IMMEDIATE the flag synchroniser's step happens inside every command that sets a sticky bit. DEDUCED
(log 6), safe: both bits are copied, which in every reachable state is the one bit R207 and R208 name. -/
def Blk.settle (c : Config) (b : Blk) : Blk := if c.queueView = .immediate then b.syncF else b

/-- R207: TransportUnderrun. -/
def signalUnderrun (s : State) : State := { s with blk := ({ s.blk with txUnderrun := true } : Blk).settle s.cfg }

/-- R208: TransportOverrun. -/
def signalOverrun (s : State) : State := { s with blk := ({ s.blk with rxOverrun := true } : Blk).settle s.cfg }

/-- The generic push command on queue `k` (R161); `escalate` is what FULL sets on the producer's port (R204). -/
def pushCommand (k : QueueId) (x : Half) (escalate : State → State) (s : State) : Host.Outcome State Fault Refusal :=
  match (s.queue k).push s.cfg x with
  | .error f => .fault f
  | .ok none => respond (escalate s) .full false 0
  | .ok (some q) => respond (s.setQueue k q) .ok false 0

/-- The generic pop command on queue `k` (R162); `escalate` is what EMPTY sets on the consumer's port (R205). -/
def popCommand (k : QueueId) (escalate : State → State) (s : State) : Host.Outcome State Fault Refusal :=
  match (s.queue k).pop s.cfg with
  | .error f => .fault f
  | .ok none => respond (escalate s) .empty false 0
  | .ok (some (x, q)) => respond (s.setQueue k q) .ok false x

end Sys2Proof.Machine
end

