-- ==== Sys2Proof/Machine/Block.lean ====
section
/-! DEFINITION. The block status command (spec/45_block.md R190). -/

namespace Sys2Proof.Machine

/-- BLK.STATUS (R190). -/
def execBlkStatus (s : State) : Host.Outcome State Fault Refusal :=
  withRights (Instr.ports .blkStatus) s (respond s .ok false (s.statusData s.active))

end Sys2Proof.Machine
end

