-- ==== Sys2Proof/Machine/Arith.lean ====
section
/-! DEFINITION. The primitive functions of spec/00_scope.md R6, on mathematical integers (R5). -/

namespace Sys2Proof.Machine

/-- R6: `v mod 2^16`. -/
def u16 (v : Int) : Int := v % 2 ^ 16

/-- R6: the two's-complement wrap to int16. -/
def wrap16 (v : Int) : Int := (v + 2 ^ 15) % 2 ^ 16 - 2 ^ 15

/-- R6: the two's-complement wrap to int32. -/
def wrap32 (v : Int) : Int := (v + 2 ^ 31) % 2 ^ 32 - 2 ^ 31

/-- R6: saturation to int16. -/
def sat16 (v : Int) : Int := if v < -32768 then -32768 else if v > 32767 then 32767 else v

/-- R6: saturation to int32. -/
def sat32 (v : Int) : Int := if v < -2 ^ 31 then -2 ^ 31 else if v > 2 ^ 31 - 1 then 2 ^ 31 - 1 else v

/-- R6: arithmetic shift right, `floor(v / 2^s)`. -/
def asr (v : Int) (s : Nat) : Int := v / 2 ^ s

/-- R6: the 16-bit two's-complement pattern. -/
def pat16 (v : Int) : Half := BitVec.ofInt 16 v

/-- The pattern of an int32 written to a 32-bit register (R27). -/
def pat32 (v : Int) : Wide := BitVec.ofInt 32 v

end Sys2Proof.Machine
end

