-- ==== Sys2Proof/Machine/Operands.lean ====
section
/-! DEFINITION. How a DATA field is read as an operand (spec/30_encoding.md R83). -/

namespace Sys2Proof.Machine

/-- R83: phase and increment, a u16, zero-extended. -/
def operandU16 (d : Half) : Int := d.toNat

/-- R83: a sample, `sext_16(DATA)`. -/
def operandSample (d : Half) : Int := if d.getLsbD 15 then (d.toNat : Int) - 2 ^ 16 else d.toNat

/-- A stored int16 as an integer: the same reading as a sample operand (R7). -/
def int16 (d : Half) : Int := operandSample d

/-- A stored int32 as an integer (R7, R27). -/
def int32 (d : Wide) : Int := d.toInt

/-- R84: the pattern of a result bit, `{15'b0, bit}`. -/
def bitData (b : Bool) : Half := if b then 1 else 0

/-- R83: a bit operand as a number. -/
def operandBit (b : Bool) : Nat := if b then 1 else 0

end Sys2Proof.Machine
end

