-- ==== Sys2Proof/Machine/Dds.lean ====
section
/-! DEFINITION. The DDS tone generator (spec/40_dds.md R100 to R103). -/

namespace Sys2Proof.Machine

/-- R103: the table index `asr(p, 16 − DDS_TB)`, the top DDS_TB bits of the phase. -/
def waveIndex (c : Config) (p : Half) : Nat := (asr (operandU16 p) (16 - c.ddsTb)).toNat

theorem waveIndex_eq (c : Config) (p : Half) : waveIndex c p = p.toNat / 2 ^ (16 - c.ddsTb) := by
  unfold waveIndex asr operandU16
  exact_mod_cast Int.toNat_natCast _

theorem waveIndex_lt (c : Config) (p : Half) : waveIndex c p < c.ddsWave.length := by
  have h := c.legal.1
  rw [c.legal.2.1, waveIndex_eq, Nat.div_lt_iff_lt_mul (Nat.two_pow_pos _), ← Nat.pow_add,
    Nat.add_sub_cancel' h.2]
  exact p.isLt

/-- R103: the waveform function. -/
def wave (c : Config) (p : Half) : Half := c.ddsWave[waveIndex c p]'(waveIndex_lt c p)

/-- R102: `u16(dds.phase + dds.inc)`. -/
def nextPhase (d : Dds) : Half := pat16 (u16 (operandU16 d.phase + operandU16 d.inc))

/-- DDS.SETPHASE (R100). -/
def execDdsSetPhase (v : Half) (s : State) : Host.Outcome State Fault Refusal :=
  withRights (Instr.ports (.ddsSetPhase v)) s
    (respond { s with dds := { s.dds with phase := v } } .ok false 0)

/-- DDS.SETINC (R101). -/
def execDdsSetInc (v : Half) (s : State) : Host.Outcome State Fault Refusal :=
  withRights (Instr.ports (.ddsSetInc v)) s
    (respond { s with dds := { s.dds with inc := v } } .ok false 0)

/-- DDS.NEXT (R102): the sample is the one at the advanced phase. -/
def execDdsNext (s : State) : Host.Outcome State Fault Refusal :=
  withRights (Instr.ports .ddsNext) s
    (respond { s with dds := { s.dds with phase := nextPhase s.dds } } .ok false (wave s.cfg (nextPhase s.dds)))

end Sys2Proof.Machine
end

