-- ==== Sys2Proof/Machine/Iir.lean ====
section
/-! DEFINITION. The IIR biquad stage (spec/41_iir.md R110 to R114). -/

namespace Sys2Proof.Machine

/-- R112: state and accumulator overflow, by IIR_STATE_OVF. -/
def ovf (c : Config) (v : Int) : Int :=
  match c.iirStateOvf with
  | .wrap => wrap32 v
  | .sat => sat32 v

/-- R111: the shift from Q(15+F) to Q15, by IIR_ROUND. -/
def quantShift (c : Config) (acc : Int) : Int :=
  if c.iirF = 0 then acc
  else match c.iirRound with
    | .floor => asr acc c.iirF
    | .nearest => asr (acc + 2 ^ (c.iirF - 1)) c.iirF

/-- R111: the output quantiser, by IIR_OUT. -/
def quant (c : Config) (acc : Int) : Int :=
  match c.iirOut with
  | .sat => sat16 (quantShift c acc)
  | .wrap => wrap16 (quantShift c acc)

/-- R110: the output of the second-order section. -/
def biquadOut (c : Config) (k : Coef) (st : Biquad) (x : Int) : Int :=
  quant c (ovf c (int16 k.b0 * x + int32 st.s1))

/-- R110: the delay registers after the section's output is `y`. -/
def biquadState (c : Config) (k : Coef) (st : Biquad) (x y : Int) : Biquad where
  s1 := pat32 (ovf c (int16 k.b1 * x - int16 k.a1 * y + int32 st.s2))
  s2 := pat32 (ovf c (int16 k.b2 * x - int16 k.a2 * y))

/-- R110: `biquad(c, s1, s2, x)`, the output and the delay registers after it. The feedback uses the quantised
output. -/
def biquad (c : Config) (k : Coef) (st : Biquad) (x : Int) : Int × Biquad :=
  (biquadOut c k st x, biquadState c k st x (biquadOut c k st x))

/-- IIR.RESET (R113). -/
def execIirReset (s : State) : Host.Outcome State Fault Refusal :=
  withRights (Instr.ports .iirReset) s (respond { s with iir := { s1 := 0, s2 := 0 } } .ok false 0)

/-- IIR.PROCESS (R114). -/
def execIirProcess (x : Half) (s : State) : Host.Outcome State Fault Refusal :=
  withRights (Instr.ports (.iirProcess x)) s
    (respond { s with iir := (biquad s.cfg s.cfg.iirCoef s.iir (operandSample x)).2 } .ok false
      (pat16 (biquad s.cfg s.cfg.iirCoef s.iir (operandSample x)).1))

end Sys2Proof.Machine
end

