-- ==== Sys2Proof/Machine/Demod.lean ====
section
/-! DEFINITION. The FSK demodulator (spec/42_fsk_demod.md R130 to R132). -/

namespace Sys2Proof.Machine

/-- R131: the product brought to Q15. -/
def scale (prod : Int) : Int := sat16 (asr prod demodShift)

/-- R132: the decision, by DEMOD_POL; the comparison is strict. -/
def decision (c : Config) (y : Int) : Bool :=
  match c.demodPol with
  | .gtIsOne => decide (y > int16 c.demodThresh)
  | .gtIsZero => !decide (y > int16 c.demodThresh)

theorem lag_lt (c : Config) : c.demodLag - 1 < demodDepth := by
  have h := c.legal.2.2.2.1
  omega

/-- R130: the entry `demod.d[DEMOD_LAG − 1]` before the push. -/
def partner (c : Config) (d : Vector Half demodDepth) : Half := d[c.demodLag - 1]'(lag_lt c)

/-- R130: the delay line after the push; the oldest entry is dropped. -/
def pushDelay (d : Vector Half demodDepth) (x : Half) : Vector Half demodDepth :=
  Vector.ofFn fun k : Fin demodDepth => if h : k.val = 0 then x else d[k.val - 1]

/-- R130: the embedded filter's step on the scaled product. -/
def demodFilter (c : Config) (m : Demod) (x : Half) : Int × Biquad :=
  biquad c c.demodCoef m.f (scale (operandSample x * int16 (partner c m.d)))

/-- DEMOD.PROCESS (R130): every read is of the state before the command (R67). -/
def execDemodProcess (x : Half) (s : State) : Host.Outcome State Fault Refusal :=
  withRights (Instr.ports (.demodProcess x)) s
    (respond { s with demod := { d := pushDelay s.demod.d x, f := (demodFilter s.cfg s.demod x).2 } } .ok false
      (bitData (decision s.cfg (demodFilter s.cfg s.demod x).1)))

end Sys2Proof.Machine
end

