-- ==== Sys2Proof/Machine/Frame.lean ====
section
/-! DEFINITION. The framing decoder (spec/43_framing.md R140 to R147). -/

namespace Sys2Proof.Machine

/-- R141: the accumulator with bit i := b, `(acc AND NOT 2^i) OR (b · 2^i)`. -/
def accWith (acc : Byte) (i : Nat) (b : Bool) : Byte :=
  (acc &&& ~~~BitVec.ofNat 8 (2 ^ i)) ||| BitVec.ofNat 8 (operandBit b * 2 ^ i)

/-- R144: the state after DATA(i). -/
def afterData (i : Fin 8) : FrameState := if h : i.val < 7 then .data ⟨i.val + 1, by omega⟩ else .stop

/-- R142 to R145: the decoder after one bit, but for `prev`. -/
def Frame.advance (f : Frame) (b : Bool) : Frame :=
  match f.st with
  | .idle => if f.prev = true ∧ b = false then { f with acc := 0, st := .start } else f
  | .start => { f with acc := accWith f.acc 0 b, st := .data 1 }
  | .data i => { f with acc := accWith f.acc i.val b, st := afterData i }
  | .stop => { f with out := f.acc, st := .idle }

/-- R141: the decoder after one bit; every call writes `prev` (R146). -/
def Frame.process (f : Frame) (b : Bool) : Frame := { f.advance b with prev := b }

/-- R147: a call emits when, and only when, it was in STOP. -/
def Frame.emits (f : Frame) : Bool := f.st == .stop

/-- FRAME.PROCESS (R141). -/
def execFrameProcess (b : Bool) (s : State) : Host.Outcome State Fault Refusal :=
  withRights (Instr.ports (.frameProcess b)) s
    (respond { s with frame := s.frame.process b } .ok s.frame.emits
      (if s.frame.emits then BitVec.zeroExtend 16 (s.frame.process b).out else 0))

end Sys2Proof.Machine
end

