-- ==== Sys2Proof/Machine/SampleQueue.lean ====
section
/-! DEFINITION. The sample queue commands (spec/44_queue.md R170 to R177). A sample is stored as its int16 pattern, so
`s = sext_16(DATA)` is the DATA field itself (R64, R83). -/

namespace Sys2Proof.Machine

/-- TXQ.PUSH (R170): FULL on CORE sets no sticky bit. -/
def execTxqPush (x : Half) (s : State) : Host.Outcome State Fault Refusal :=
  withRights (Instr.ports (.txqPush x)) s (pushCommand .txq x id s)

/-- TXQ.POP (R171): EMPTY signals TransportUnderrun. -/
def execTxqPop (s : State) : Host.Outcome State Fault Refusal :=
  withRights (Instr.ports .txqPop) s (popCommand .txq signalUnderrun s)

/-- TXQ.ISEMPTY (R172). -/
def execTxqIsEmpty (s : State) : Host.Outcome State Fault Refusal :=
  withRights (Instr.ports .txqIsEmpty) s (respond s .ok false (bitData (s.txqEmptyAt s.active)))

/-- TXQ.ISFULL (R173). -/
def execTxqIsFull (s : State) : Host.Outcome State Fault Refusal :=
  withRights (Instr.ports .txqIsFull) s (respond s .ok false (bitData (s.txqFullAt s.active)))

/-- RXQ.PUSH (R174): FULL signals TransportOverrun. -/
def execRxqPush (x : Half) (s : State) : Host.Outcome State Fault Refusal :=
  withRights (Instr.ports (.rxqPush x)) s (pushCommand .rxq x signalOverrun s)

/-- RXQ.POP (R175): EMPTY on CORE sets no sticky bit. -/
def execRxqPop (s : State) : Host.Outcome State Fault Refusal :=
  withRights (Instr.ports .rxqPop) s (popCommand .rxq id s)

/-- RXQ.ISEMPTY (R176). -/
def execRxqIsEmpty (s : State) : Host.Outcome State Fault Refusal :=
  withRights (Instr.ports .rxqIsEmpty) s (respond s .ok false (bitData (s.rxqEmptyAt s.active)))

/-- RXQ.ISFULL (R177). -/
def execRxqIsFull (s : State) : Host.Outcome State Fault Refusal :=
  withRights (Instr.ports .rxqIsFull) s (respond s .ok false (bitData (s.rxqFullAt s.active)))

end Sys2Proof.Machine
end

