-- ==== Sys2Proof/Machine/Dispatch.lean ====
section
/-! DEFINITION. One arm per command: the meaning of each (spec/30_encoding.md R82). -/

namespace Sys2Proof.Machine

def exec (i : Instr) (s : State) : Host.Outcome State Fault Refusal :=
  match i with
  | .ddsSetPhase v => Sys2Proof.Machine.execDdsSetPhase v s
  | .ddsSetInc v => Sys2Proof.Machine.execDdsSetInc v s
  | .ddsNext => Sys2Proof.Machine.execDdsNext s
  | .iirReset => Sys2Proof.Machine.execIirReset s
  | .iirProcess x => Sys2Proof.Machine.execIirProcess x s
  | .demodProcess x => Sys2Proof.Machine.execDemodProcess x s
  | .frameProcess b => Sys2Proof.Machine.execFrameProcess b s
  | .txqPush x => Sys2Proof.Machine.execTxqPush x s
  | .txqPop => Sys2Proof.Machine.execTxqPop s
  | .txqIsEmpty => Sys2Proof.Machine.execTxqIsEmpty s
  | .txqIsFull => Sys2Proof.Machine.execTxqIsFull s
  | .rxqPush x => Sys2Proof.Machine.execRxqPush x s
  | .rxqPop => Sys2Proof.Machine.execRxqPop s
  | .rxqIsEmpty => Sys2Proof.Machine.execRxqIsEmpty s
  | .rxqIsFull => Sys2Proof.Machine.execRxqIsFull s
  | .blkStatus => Sys2Proof.Machine.execBlkStatus s

end Sys2Proof.Machine
end

