-- ==== Sys2Proof/Machine/Agents.lean ====
section
/-! DEFINITION. What one step of each agent is (spec/20_memory.md R61, spec/30_encoding.md R86, spec/44_queue.md R166
to R168). -/

namespace Sys2Proof.Machine

/-- R86: the body of `execute(port, cmd)` once the port is noted in `active`. The port rights are checked inside each
meaning (`withRights`), so ILLEGAL comes first and WRONG_PORT second (R89). -/
def execute (w : Word) (s : State) : Host.Outcome State Fault Refusal :=
  match decode w with
  | none => raiseIllegal s
  | some i => exec i s

/-- The state in which the command at the head of a port's list is executed: it is taken from the list, `rest` is left,
and the port is the active one. -/
def State.accept (s : State) (p : Port) (rest : List Offer) : State :=
  { s.setIo p { s.io p with pending := rest } with active := p }

/-- R61: a port agent's step. Without a command it is not enabled and the block holds its state (R220; log 3). A
command given before the previous response is refused (R239; log 5). -/
def portStep (p : Port) (s : State) : Host.Outcome State Fault Refusal :=
  match (s.io p).pending with
  | [] => .next s
  | c :: rest => if c.early then .refused .overlappingCommands else execute c.word (s.accept p rest)

/-- R61: a synchroniser's step. Under IMMEDIATE the synchronisers do not exist (R163) and the block holds its state
(log 3). -/
def syncStep (s t : State) : Host.Outcome State Fault Refusal :=
  .next (if s.cfg.queueView = .lagged then t else s)

/-- R61: one step of an agent. -/
def agentStep (a : Agent) (s : State) : Host.Outcome State Fault Refusal :=
  match a with
  | .port p => portStep p s
  | .syncW k => syncStep s (s.setQueue k (s.queue k).syncW)
  | .syncR k => syncStep s (s.setQueue k (s.queue k).syncR)
  | .syncF => syncStep s { s with blk := s.blk.syncF }

/-- Lays a command where a port's next step takes it, and lets that port step next. -/
def State.offerOn (s : State) (p : Port) (w : Word) : State :=
  { s.setIo p { s.io p with pending := { word := w, early := false } :: (s.io p).pending } with
    sched := .port p :: s.sched }

/-- A port with the right to issue the word's command (R88): XPORT for the commands that only XPORT may issue, else
CORE. -/
def portFor (w : Word) : Port :=
  match decode w with
  | none => .core
  | some i => if .core ∈ i.ports then .core else .xport

end Sys2Proof.Machine
end

