-- ==== Sys2Proof/Machine/Step.lean ====
section
/-! DEFINITION. One step of the machine: the agent at the head of the schedule steps (spec/20_memory.md R61). -/

namespace Sys2Proof.Machine

/-- One step. An exhausted schedule leaves the state as it is: between commands the block "holds its state
indefinitely" (R220), and a run has ended (R246). DESIGN CHOICE (log 3), safe. -/
def step (s : State) : Host.Outcome State Fault Refusal :=
  match s.sched with
  | [] => .next s
  | a :: rest => agentStep a { s with sched := rest }

/-- The state with a command word given by a host that may issue it, and that port scheduled next (log 10). -/
def State.withFetchWord (s : State) (nbits w : Nat) : State :=
  s.offerOn (portFor (BitVec.ofNat 32 (w % 2 ^ nbits))) (BitVec.ofNat 32 (w % 2 ^ nbits))

end Sys2Proof.Machine
end

