-- ==== Sys2Proof/Machine/Outputs.lean ====
section
/-! DEFINITION. The level outputs of spec/45_block.md R191: observations of the state, not steps. -/

namespace Sys2Proof.Machine

/-- TXQ_FULL, CORE domain (R191). -/
def State.outTxqFull (s : State) : Bool := s.txq.fullP s.cfg.rbN

/-- RXQ_EMPTY, CORE domain (R191). -/
def State.outRxqEmpty (s : State) : Bool := s.rxq.emptyC

/-- TXQ_EMPTY, XPORT domain (R191). -/
def State.outTxqEmpty (s : State) : Bool := s.txq.emptyC

/-- RXQ_FULL, XPORT domain (R191). -/
def State.outRxqFull (s : State) : Bool := s.rxq.fullP s.cfg.rbN

/-- FATAL, XPORT domain (R191). -/
def State.outFatal (s : State) : Bool := s.blk.txUnderrun || s.blk.rxOverrun

end Sys2Proof.Machine
end

