-- ==== Sys2Proof/Safety.lean ====
section
/-! DEFINITION. The words claims are made of: frames, answers, runs, schedules and fairness, the abstract contents of a
queue, and the invariant of every reachable state. -/

namespace Sys2Proof.Machine

/-! ### Frames and answers -/

/-- The units of R22's record. -/
inductive Part where
  | dds
  | iir
  | demod
  | frame
  | txq
  | rxq
  | blk
  deriving DecidableEq, Repr

/-- Two states agree on a unit. -/
def SamePart (s t : State) : Part → Prop
  | .dds => t.dds = s.dds
  | .iir => t.iir = s.iir
  | .demod => t.demod = s.demod
  | .frame => t.frame = s.frame
  | .txq => t.txq = s.txq
  | .rxq => t.rxq = s.rxq
  | .blk => t.blk = s.blk

/-- From `s` to `t` the configuration and every unit outside `ps` are unchanged. -/
def OnlyChanges (ps : List Part) (s t : State) : Prop :=
  t.cfg = s.cfg ∧ ∀ p, p ∉ ps → SamePart s t p

/-- A response word by its fields (R84), written as a number. -/
def wordOf (status valid data : Nat) : Word := BitVec.ofNat 32 (status * 2 ^ 28 + valid * 2 ^ 16 + data)

/-- From `s` to `t` the active port got exactly the response `w`, the other port got none, and no host's list, the
active port and the schedule changed. -/
def Answered (s t : State) (w : Word) : Prop :=
  t.active = s.active ∧ t.sched = s.sched ∧ t.core.pending = s.core.pending ∧ t.xport.pending = s.xport.pending ∧
  t.core.responses = s.core.responses ++ (if s.active = .core then [w] else []) ∧
  t.xport.responses = s.xport.responses ++ (if s.active = .xport then [w] else [])

/-- The command, issued on the active port, completes with this answer and changes no unit. -/
def AnswersOnly (i : Instr) (s : State) (w : Word) : Prop :=
  ∃ t, exec i s = .next t ∧ OnlyChanges [] s t ∧ Answered s t w

/-- R87 for one UNIT and OP: a word with them encodes a command exactly when RSV = 0 and its DATA is legal. -/
def LegalData (unit op : Nat) (dataOk : Nat → Prop) : Prop :=
  ∀ w : Word, w.toNat / 2 ^ 28 = unit → w.toNat / 2 ^ 24 % 16 = op →
    (decode w ≠ none ↔ w.toNat / 2 ^ 16 % 256 = 0 ∧ dataOk (w.toNat % 2 ^ 16))

/-- R92: the line with this mnemonic and operand is taken as the word with this UNIT and OP byte and this DATA, or refused
when there is no DATA. -/
def Assembles (m : Mnemonic) (unitOp : Nat) (o : Operand) (data : Option Nat) : Prop :=
  assemble (.command m o) = data.map fun d => BitVec.ofNat 32 (unitOp * 2 ^ 24 + d)

/-- The value of the waveform table at a phase (R103), as a number: the entry that the top DDS_TB bits index. -/
def sampleAt (c : Config) (p : Nat) : Nat := (c.ddsWave.getD (p / 2 ^ (16 - c.ddsTb)) 0).toNat

/-! ### The filters in plain arithmetic (R110 to R112, R131, R132) -/

/-- R112: the balanced remainder, or the clamp to int32. -/
def ovfSpec (c : Config) (v : Int) : Int :=
  match c.iirStateOvf with
  | .wrap => Int.bmod v (2 ^ 32)
  | .sat => max (-2 ^ 31) (min v (2 ^ 31 - 1))

/-- R111: floor division by 2^F, after adding one half of 2^F when rounding to nearest. -/
def roundSpec (c : Config) (acc : Int) : Int :=
  if c.iirRound = .nearest ∧ 1 ≤ c.iirF then (acc + 2 ^ (c.iirF - 1)) / 2 ^ c.iirF else acc / 2 ^ c.iirF

/-- R111: the range reduction to int16. -/
def quantSpec (c : Config) (acc : Int) : Int :=
  match c.iirOut with
  | .sat => max (-32768) (min (roundSpec c acc) 32767)
  | .wrap => Int.bmod (roundSpec c acc) (2 ^ 16)

/-- R110: the output of the second-order section. -/
def outputSpec (c : Config) (k : Coef) (st : Biquad) (x : Int) : Int :=
  quantSpec c (ovfSpec c (k.b0.toInt * x + st.s1.toInt))

/-- R110: the delay registers after the section's output is `y`. -/
def FilterStepped (c : Config) (k : Coef) (st : Biquad) (x y : Int) (st' : Biquad) : Prop :=
  st'.s1.toInt = ovfSpec c (k.b1.toInt * x - k.a1.toInt * y + st.s2.toInt) ∧
  st'.s2.toInt = ovfSpec c (k.b2.toInt * x - k.a2.toInt * y)

/-- R131: the scaled product. -/
def scaleSpec (prod : Int) : Int := max (-32768) (min (prod / 32768) 32767)

/-- R132: the decision as a number. -/
def decideSpec (c : Config) (y : Int) : Nat :=
  match c.demodPol with
  | .gtIsOne => if c.demodThresh.toInt < y then 1 else 0
  | .gtIsZero => if c.demodThresh.toInt < y then 0 else 1

/-! ### Runs -/

/-- A list of commands executed one after the other on the active port. -/
def runCommands : List Instr → State → Host.Outcome State Fault Refusal
  | [], s => .next s
  | i :: is, s =>
    match exec i s with
    | .next t => runCommands is t
    | .fault f => .fault f
    | .refused r => .refused r

/-- A list of agents stepping one after the other. -/
def runAgents : List Agent → State → Host.Outcome State Fault Refusal
  | [], s => .next s
  | a :: as, s =>
    match agentStep a s with
    | .next t => runAgents as t
    | .fault f => .fault f
    | .refused r => .refused r

/-- The first `n` steps of an infinite schedule. -/
def runSchedule (sched : Nat → Agent) : Nat → State → Host.Outcome State Fault Refusal
  | 0, s => .next s
  | n + 1, s =>
    match runSchedule sched n s with
    | .next t => agentStep (sched n) t
    | .fault f => .fault f
    | .refused r => .refused r

/-- The five synchroniser agents (R61). -/
def syncAgents : List Agent := [.syncW .txq, .syncW .rxq, .syncR .txq, .syncR .rxq, .syncF]

/-- R169: a schedule in which every synchroniser steps infinitely often (log 9). -/
def FairSync (sched : Nat → Agent) : Prop := ∀ a ∈ syncAgents, ∀ n, ∃ m, n ≤ m ∧ sched m = a

/-- R246: a run has ended when both hosts' lists are exhausted. -/
def State.ended (s : State) : Prop := s.core.pending = [] ∧ s.xport.pending = []

/-- No host has given a command before the response to its previous one (R239). -/
def State.NoOverlap (s : State) : Prop :=
  (∀ c ∈ s.core.pending, c.early = false) ∧ (∀ c ∈ s.xport.pending, c.early = false)

/-! ### What a step of an agent did -/

/-- The command an agent is about to execute, with the port it is issued on. -/
def commandOf (a : Agent) (s : State) : Option (Port × Instr) :=
  match a with
  | .port p =>
    match (s.io p).pending with
    | [] => none
    | c :: _ => if c.early then none else (decode c.word).map fun i => (p, i)
  | _ => none

/-- The last response of a port. -/
def State.lastResponse (s : State) (p : Port) : Word := (s.io p).responses.getLast?.getD 0

/-- The last response of a port has STATUS OK (R85). -/
def State.lastOk (s : State) (p : Port) : Bool := s.lastResponse p >>> 28 == 0

/-- The port that pushes to a queue (R160). -/
def QueueId.producer : QueueId → Port
  | .txq => .core
  | .rxq => .xport

/-- The port that pops from a queue (R160). -/
def QueueId.consumer : QueueId → Port
  | .txq => .xport
  | .rxq => .core

/-- The PUSH command of a queue (R170, R174). -/
def QueueId.pushInstr (k : QueueId) (x : Half) : Instr :=
  match k with
  | .txq => .txqPush x
  | .rxq => .rxqPush x

/-- The POP command of a queue (R171, R175). -/
def QueueId.popInstr : QueueId → Instr
  | .txq => .txqPop
  | .rxq => .rxqPop

/-- The unit a queue is. -/
def QueueId.part : QueueId → Part
  | .txq => .txq
  | .rxq => .rxq

/-- The sample a command pushes to queue `k`. -/
def pushOperand (k : QueueId) : Instr → Option Half
  | .txqPush x => if k = .txq then some x else none
  | .rxqPush x => if k = .rxq then some x else none
  | _ => none

/-- Whether a command pops queue `k`. -/
def popsQueue (k : QueueId) : Instr → Bool
  | .txqPop => k == .txq
  | .rxqPop => k == .rxq
  | _ => false

/-- The samples that PUSH commands on queue `k`, issued on its producer's port, offer in this step. -/
def offered (k : QueueId) (a : Agent) (s : State) : List Half :=
  match commandOf a s with
  | none => []
  | some (p, i) => if p = k.producer then (pushOperand k i).toList else []

/-- The samples of the PUSHes on queue `k` that returned OK in this step from `s` to `t`. -/
def pushedOk (k : QueueId) (a : Agent) (s t : State) : List Half :=
  match commandOf a s with
  | none => []
  | some (p, i) => if t.lastOk p then (pushOperand k i).toList else []

/-- The samples returned by the POPs on queue `k` that returned OK in this step from `s` to `t`. -/
def poppedOk (k : QueueId) (a : Agent) (s t : State) : List Half :=
  match commandOf a s with
  | none => []
  | some (p, i) => if t.lastOk p && popsQueue k i then [(t.lastResponse p).setWidth 16] else []

/-- What the steps of a list of agents did to queue `k`: the samples offered, pushed and popped, in order, and the last
state; none when the run stops. -/
def runQueue (k : QueueId) : List Agent → State → Option (List Half × List Half × List Half × State)
  | [], s => some ([], [], [], s)
  | a :: as, s =>
    match agentStep a s with
    | .next t => (runQueue k as t).map fun r =>
        (offered k a s ++ r.1, pushedOk k a s t ++ r.2.1, poppedOk k a s t ++ r.2.2.1, r.2.2.2)
    | _ => none

/-- The samples a queue truly holds, oldest first (R44, R180). -/
def Queue.contents (n : Nat) (q : Queue) : List Half :=
  (List.range (q.occ n)).map fun j => q.cell.read ((q.rd + j) % n)

/-! ### The invariant -/

/-- R42, R45, R46, R163 and the canonical storage: cursors and views in range, the views pessimistic, exact under
IMMEDIATE. -/
structure Queue.Inv (c : Config) (q : Queue) : Prop where
  wr_lt : q.wr < c.rbN
  rd_lt : q.rd < c.rbN
  wrSeen_lt : q.wrSeen < c.rbN
  rdSeen_lt : q.rdSeen < c.rbN
  cell_wf : q.cell.wf = true
  cell_lt : ∀ e ∈ q.cell.cells, e.1 < c.rbN
  occC_le : q.occC c.rbN ≤ q.occ c.rbN
  occ_le : q.occ c.rbN ≤ q.occP c.rbN
  exact_views : c.queueView = .immediate → q.wrSeen = q.wr ∧ q.rdSeen = q.rd

/-- R48: a copy is 0 or equals its source bit; under IMMEDIATE it equals it. -/
structure Blk.Inv (c : Config) (b : Blk) : Prop where
  txCopy : b.txUnderrunSeen = true → b.txUnderrun = true
  rxCopy : b.rxOverrunSeen = true → b.rxOverrun = true
  exact_copies : c.queueView = .immediate → b.txUnderrunSeen = b.txUnderrun ∧ b.rxOverrunSeen = b.rxOverrun

/-- The invariant of every reachable state; R140: DATA(0) is never the state between two commands. -/
structure State.Inv (s : State) : Prop where
  txq : s.txq.Inv s.cfg
  rxq : s.rxq.Inv s.cfg
  blk : s.blk.Inv s.cfg
  frame : s.frame.st ≠ .data 0

/-- The state of the same machine under another visibility model (spec/90_conflicts.md C5). -/
def State.withView (s : State) (v : QueueView) : State := { s with cfg := s.cfg.withView v }

end Sys2Proof.Machine
end

