-- ==== Sys2Proof/Certificates/Slice0/Obligations.lean ====
section
/-! DEFINITION. The statements for the provers: each formalises rules of spec/, or follows from the sections it names.
A "log n" in a docstring is notes/assumptions/n.md. -/

open Sys2Proof Sys2Proof.Machine

/-! ### Command words (30_encoding.md) -/

/-- One word of each unit, written out from the fields of R80 and the rows of R82, decodes to its command. -/
def Obligations.WordsWrittenOutDecode : Prop :=
  decode 0x10004000 = some (.ddsSetPhase 0x4000) ∧ decode 0x12000000 = some .ddsNext ∧
  decode 0x210003E8 = some (.iirProcess 1000) ∧ decode 0x3000FFFF = some (.demodProcess 0xFFFF) ∧
  decode 0x40000001 = some (.frameProcess true) ∧ decode 0x51000000 = some .txqPop ∧
  decode 0x60008000 = some (.rxqPush 0x8000) ∧ decode 0x70000000 = some .blkStatus

/-- R82: the words of a command and the commands of a word are each other's inverse, at every operand: each command
has one word, and no bit of a word is dropped. -/
def Obligations.DecodeIsInverseOfEncode : Prop :=
  ∀ (w : Word) (i : Instr), decode w = some i ↔ w = encode i

/-- R82: "The patterns are pairwise disjoint: no word matches two rows". -/
def Obligations.NoWordMatchesTwoRows : Prop :=
  rows.Pairwise fun r q => ∀ w : Word, ¬ (r.admits w = true ∧ q.admits w = true)

/-- R87: the decoder returns the command of the row that a word matches, and NONE exactly in the five listed cases. -/
def Obligations.IllegalExactlyInTheFiveCases : Prop :=
  (∀ r ∈ rows, ∀ w : Word, w &&& r.mask = r.pattern → decode w = some (r.build (dataOf w))) ∧
  ∀ w : Word,
    let unit := w.toNat / 2 ^ 28
    let op := w.toNat / 2 ^ 24 % 16
    let rsv := w.toNat / 2 ^ 16 % 256
    let data := w.toNat % 2 ^ 16
    decode w = none ↔
      (unit = 0 ∨ 8 ≤ unit) ∨
      ((unit = 1 ∧ 3 ≤ op) ∨ (unit = 2 ∧ 2 ≤ op) ∨ (unit = 3 ∧ 1 ≤ op) ∨ (unit = 4 ∧ 1 ≤ op) ∨
        (unit = 5 ∧ 4 ≤ op) ∨ (unit = 6 ∧ 4 ≤ op) ∨ (unit = 7 ∧ 1 ≤ op)) ∨
      rsv ≠ 0 ∨
      ((unit, op) ∈ [(1, 2), (2, 0), (5, 1), (5, 2), (5, 3), (6, 1), (6, 2), (6, 3), (7, 0)] ∧ data ≠ 0) ∨
      (unit = 4 ∧ op = 0 ∧ data / 2 ≠ 0)

/-- R92: for every mnemonic, exactly the operands an assembler takes, and the word of each; any other operand, one that is
missing where it is asked for and one that stands where none is asked for are refused. (R93) Every line with a
mnemonic that it takes is one word that encodes a command, and `.word` gives any word as it stands. That frame.process
takes no hexadecimal operand is the model's choice (log 13). -/
def Obligations.AssemblerRefusesOperandsOutOfRange : Prop :=
  (∀ e ∈ [(Mnemonic.ddsSetPhase, 0x10), (.ddsSetInc, 0x11)],
    Assembles e.1 e.2 .absent none ∧
    (∀ v : Int, Assembles e.1 e.2 (.dec v) (if 0 ≤ v ∧ v ≤ 65535 then some v.toNat else none)) ∧
    ∀ v : Nat, Assembles e.1 e.2 (.hex v) (if v ≤ 0xFFFF then some v else none)) ∧
  (∀ e ∈ [(Mnemonic.iirProcess, 0x21), (.demodProcess, 0x30), (.txqPush, 0x50), (.rxqPush, 0x60)],
    Assembles e.1 e.2 .absent none ∧
    (∀ v : Int, Assembles e.1 e.2 (.dec v) (if -32768 ≤ v ∧ v ≤ 32767 then some (v % 2 ^ 16).toNat else none)) ∧
    ∀ v : Nat, Assembles e.1 e.2 (.hex v) (if v ≤ 0xFFFF then some v else none)) ∧
  (Assembles .frameProcess 0x40 .absent none ∧
    (∀ v : Int, Assembles .frameProcess 0x40 (.dec v) (if v = 0 ∨ v = 1 then some v.toNat else none)) ∧
    ∀ v : Nat, Assembles .frameProcess 0x40 (.hex v) none) ∧
  (∀ e ∈ [(Mnemonic.ddsNext, 0x12), (.iirReset, 0x20), (.txqPop, 0x51), (.txqIsEmpty, 0x52), (.txqIsFull, 0x53),
      (.rxqPop, 0x61), (.rxqIsEmpty, 0x62), (.rxqIsFull, 0x63), (.blkStatus, 0x70)],
    Assembles e.1 e.2 .absent (some 0) ∧ (∀ v : Int, Assembles e.1 e.2 (.dec v) none) ∧
    ∀ v : Nat, Assembles e.1 e.2 (.hex v) none) ∧
  (∀ m o w, assemble (.command m o) = some w → decode w ≠ none) ∧
  ∀ w : Word, assemble (.word w.toNat) = some w

/-! ### Ports and answers (30_encoding.md, 60_exceptions.md) -/

/-- When a port is scheduled and its host's next word decodes, the step of the machine is the meaning of the decoded
command, in the state from which that word is taken and in which the port is the active one. -/
def Obligations.StepRunsTheDecodedCommand : Prop :=
  ∀ (s : State) (p : Port) (later : List Agent) (w : Word) (rest : List Offer) (i : Instr),
    s.sched = .port p :: later → (s.io p).pending = ⟨w, false⟩ :: rest → decode w = some i →
    ∃ u : State, step s = exec i u ∧ u.active = p ∧ u.sched = later ∧ (u.io p).pending = rest ∧
      (u.io p).responses = (s.io p).responses ∧ (∀ q, q ≠ p → u.io q = s.io q) ∧ OnlyChanges [] s u

/-- R202, R90: a word that encodes no command is answered ILLEGAL on the port it came from and writes no state. -/
def Obligations.IllegalWordAnswersIllegal : Prop :=
  ∀ (s : State) (p : Port) (later : List Agent) (w : Word) (rest : List Offer),
    s.sched = .port p :: later → (s.io p).pending = ⟨w, false⟩ :: rest → decode w = none →
    ∃ t, step s = .next t ∧ OnlyChanges [] s t ∧ t.sched = later ∧ (t.io p).pending = rest ∧
      (t.io p).responses = (s.io p).responses ++ [wordOf 3 0 0] ∧ ∀ q, q ≠ p → t.io q = s.io q

/-- R88, R203: the ports that may issue each command, and that on any other port the command answers WRONG_PORT and
writes no state. -/
def Obligations.WrongPortAnswersWrongPort : Prop :=
  (∀ i : Instr, Port.core ∉ i.ports ↔ i = .txqPop ∨ ∃ x, i = .rxqPush x) ∧
  (∀ i : Instr, Port.xport ∈ i.ports ↔ i = .txqPop ∨ (∃ x, i = .rxqPush x) ∨ i = .txqIsEmpty ∨ i = .txqIsFull ∨
    i = .rxqIsEmpty ∨ i = .rxqIsFull ∨ i = .blkStatus) ∧
  ∀ (i : Instr) (s : State), s.active ∉ i.ports → AnswersOnly i s (wordOf 4 0 0)

/-- R89: a command reports exactly one STATUS, the first that applies: ILLEGAL, WRONG_PORT, then the command's own FULL
or EMPTY; an ILLEGAL word answers ILLEGAL on every port. -/
def Obligations.FirstFailingCheckIsReported : Prop :=
  ∀ (s t : State) (p : Port) (w : Word) (rest : List Offer),
    (s.io p).pending = ⟨w, false⟩ :: rest → agentStep (.port p) s = .next t →
    let status := (t.lastResponse p).toNat / 2 ^ 28
    (decode w = none → status = 3) ∧
    ∀ i, decode w = some i →
      (p ∉ i.ports → status = 4) ∧
      (p ∈ i.ports →
        (status = 1 ↔ ∃ k x, i = QueueId.pushInstr k x ∧ (s.queue k).fullP s.cfg.rbN = true) ∧
        (status = 2 ↔ ∃ k, popsQueue k i = true ∧ (s.queue k).emptyC = true) ∧ status ≤ 2)

/-- R66, R84, R85: a port's step consumes exactly one command word and produces exactly one response word, on that port;
in it bits 27:17 are 0, STATUS is one of the five codes, and VALID is 1 only for a FRAME.PROCESS of a decoder in
STOP. -/
def Obligations.OneWellFormedResponsePerCommand : Prop :=
  ∀ (s t : State) (p : Port) (w : Word) (rest : List Offer),
    (s.io p).pending = ⟨w, false⟩ :: rest → agentStep (.port p) s = .next t →
    ∃ r : Word, (t.io p).responses = (s.io p).responses ++ [r] ∧ (t.io p).pending = rest ∧
      (∀ q, q ≠ p → t.io q = s.io q) ∧
      r.toNat / 2 ^ 17 % 2 ^ 11 = 0 ∧ r.toNat / 2 ^ 28 ≤ 4 ∧
      (r.toNat / 2 ^ 16 % 2 = 1 ↔
        p = .core ∧ (∃ b, decode w = some (.frameProcess b)) ∧ s.frame.st = .stop)

/-- R239: a command given before the response to the previous one on its port is refused, whatever it is. -/
def Obligations.OverlappingCommandIsRefused : Prop :=
  ∀ (s : State) (p : Port) (later : List Agent) (w : Word) (rest : List Offer),
    s.sched = .port p :: later → (s.io p).pending = ⟨w, true⟩ :: rest → step s = .refused .overlappingCommands

/-! ### DDS (40_dds.md) -/

/-- R100: DDS.SETPHASE. -/
def Obligations.SetPhaseWritesThePhaseOnly : Prop :=
  LegalData 1 0 (fun _ => True) ∧ (∀ v, (encode (.ddsSetPhase v)).toNat = 0x10000000 + v.toNat) ∧
  (∀ v s, s.active = .xport → AnswersOnly (.ddsSetPhase v) s (wordOf 4 0 0)) ∧
  ∀ (v : Half) (s : State), s.active = .core →
    ∃ t, exec (.ddsSetPhase v) s = .next t ∧ t.dds.phase = v ∧ t.dds.inc = s.dds.inc ∧ OnlyChanges [.dds] s t ∧
      Answered s t (wordOf 0 0 0) ∧
      ∃ u, exec .ddsNext t = .next u ∧
        u.core.responses = t.core.responses ++ [wordOf 0 0 (sampleAt s.cfg ((v.toNat + s.dds.inc.toNat) % 2 ^ 16))]

/-- R101: DDS.SETINC, and the phases and samples of the NEXTs that follow it, from the unchanged phase on. -/
def Obligations.SetIncWritesTheIncrementOnly : Prop :=
  LegalData 1 1 (fun _ => True) ∧ (∀ v, (encode (.ddsSetInc v)).toNat = 0x11000000 + v.toNat) ∧
  (∀ v s, s.active = .xport → AnswersOnly (.ddsSetInc v) s (wordOf 4 0 0)) ∧
  ∀ (v : Half) (s : State), s.active = .core →
    ∃ t, exec (.ddsSetInc v) s = .next t ∧ t.dds.inc = v ∧ t.dds.phase = s.dds.phase ∧ OnlyChanges [.dds] s t ∧
      Answered s t (wordOf 0 0 0) ∧
      ∀ k, ∃ u w, runCommands (List.replicate k .ddsNext) t = .next u ∧
        u.dds.phase.toNat = (s.dds.phase.toNat + k * v.toNat) % 2 ^ 16 ∧ exec .ddsNext u = .next w ∧
        w.core.responses = u.core.responses ++
          [wordOf 0 0 (sampleAt s.cfg ((s.dds.phase.toNat + (k + 1) * v.toNat) % 2 ^ 16))]

/-- R102, R103: DDS.NEXT advances the phase modulo 2^16, then answers the table entry that the top DDS_TB bits of the
advanced phase index. -/
def Obligations.NextAdvancesThenMaps : Prop :=
  LegalData 1 2 (fun d => d = 0) ∧ (encode .ddsNext).toNat = 0x12000000 ∧
  (∀ s, s.active = .xport → AnswersOnly .ddsNext s (wordOf 4 0 0)) ∧
  ∀ s : State, s.active = .core →
    ∃ t, exec .ddsNext s = .next t ∧ t.dds.phase.toNat = (s.dds.phase.toNat + s.dds.inc.toNat) % 2 ^ 16 ∧
      t.dds.inc = s.dds.inc ∧ OnlyChanges [.dds] s t ∧
      t.dds.phase.toNat / 2 ^ (16 - s.cfg.ddsTb) < s.cfg.ddsWave.length ∧
      Answered s t (wordOf 0 0 (sampleAt s.cfg t.dds.phase.toNat))

/-- R105: the k-th NEXT after SETPHASE p0 and SETINC v sets the phase to u16(p0 + k·v) and answers its sample; the phases
have period 2^16 / gcd(v, 2^16); v = 0 gives one sample forever and v = 2^15 two table entries half a table apart in
turn, of period 1 exactly when they are equal (90_conflicts.md C3). -/
def Obligations.NextSequenceIsPeriodic : Prop :=
  ∀ (p0 v : Half) (s : State), s.active = .core →
    let phase := fun k => (p0.toNat + k * v.toNat) % 2 ^ 16
    (∀ k, ∃ t u, runCommands (.ddsSetPhase p0 :: .ddsSetInc v :: List.replicate k .ddsNext) s = .next t ∧
      t.dds.phase.toNat = phase k ∧
      exec .ddsNext t = .next u ∧ u.dds.phase.toNat = phase (k + 1) ∧
      u.core.responses = t.core.responses ++ [wordOf 0 0 (sampleAt s.cfg (phase (k + 1)))]) ∧
    (∀ k j, phase k = phase (k + j) ↔ 2 ^ 16 / Nat.gcd v.toNat (2 ^ 16) ∣ j) ∧
    (v.toNat = 0 → ∀ k, phase k = p0.toNat) ∧
    (v.toNat = 2 ^ 15 →
      let index := fun k => phase k / 2 ^ (16 - s.cfg.ddsTb)
      let sample := fun k => sampleAt s.cfg (phase k)
      (∀ k, phase (2 * k) = p0.toNat ∧ phase (2 * k + 1) = (p0.toNat + 2 ^ 15) % 2 ^ 16) ∧
      (index 0 = index 1 + 2 ^ (s.cfg.ddsTb - 1) ∨ index 1 = index 0 + 2 ^ (s.cfg.ddsTb - 1)) ∧
      (∀ k, sample (k + 2) = sample k) ∧ ((∀ k, sample (k + 1) = sample k) ↔ sample 0 = sample 1))

/-! ### IIR (41_iir.md) -/

/-- R113: IIR.RESET. -/
def Obligations.IirResetClearsTheShaperOnly : Prop :=
  LegalData 2 0 (fun d => d = 0) ∧ (encode .iirReset).toNat = 0x20000000 ∧
  (∀ s, s.active = .xport → AnswersOnly .iirReset s (wordOf 4 0 0)) ∧
  ∀ s : State, s.active = .core →
    ∃ t, exec .iirReset s = .next t ∧ t.iir.s1.toInt = 0 ∧ t.iir.s2.toInt = 0 ∧ OnlyChanges [.iir] s t ∧
      Answered s t (wordOf 0 0 0) ∧
      (∃ u, exec .iirReset t = .next u ∧ u.iir = t.iir) ∧
      ∀ x : Half, ∃ u, exec (.iirProcess x) t = .next u ∧
        u.core.responses = t.core.responses ++
          [wordOf 0 0 (quantSpec s.cfg (ovfSpec s.cfg (s.cfg.iirCoef.b0.toInt * x.toInt)) % 2 ^ 16).toNat]

/-- R110, R111, R112, R114: IIR.PROCESS; the feedback uses the quantised output, and the state is updated on every
call. -/
def Obligations.IirProcessStepsTheShaper : Prop :=
  LegalData 2 1 (fun _ => True) ∧ (∀ x, (encode (.iirProcess x)).toNat = 0x21000000 + x.toNat) ∧
  (∀ x s, s.active = .xport → AnswersOnly (.iirProcess x) s (wordOf 4 0 0)) ∧
  ∀ (x : Half) (s : State), s.active = .core →
    let y := outputSpec s.cfg s.cfg.iirCoef s.iir x.toInt
    (-2 ^ 15 ≤ y ∧ y < 2 ^ 15) ∧
    ∃ t, exec (.iirProcess x) s = .next t ∧ FilterStepped s.cfg s.cfg.iirCoef s.iir x.toInt y t.iir ∧
      OnlyChanges [.iir] s t ∧ Answered s t (wordOf 0 0 (y % 2 ^ 16).toNat)

/-- R116: the outputs of IIR.PROCESS and DEMOD.PROCESS depend only on the operand, their own instance's state and the
parameters R110 to R112 and R130 to R132 name. -/
def Obligations.FilterOutputsAreDeterminedByTheirInstance : Prop :=
  ∀ (s s' t : State) (x : Half), s.active = .core → s'.active = .core →
    s.cfg.iirF = s'.cfg.iirF → s.cfg.iirRound = s'.cfg.iirRound → s.cfg.iirOut = s'.cfg.iirOut →
    s.cfg.iirStateOvf = s'.cfg.iirStateOvf →
    (s.cfg.iirCoef = s'.cfg.iirCoef → s.iir = s'.iir → exec (.iirProcess x) s = .next t →
      ∃ t', exec (.iirProcess x) s' = .next t' ∧ t'.iir = t.iir ∧ t'.lastResponse .core = t.lastResponse .core) ∧
    (s.cfg.demodCoef = s'.cfg.demodCoef → s.cfg.demodLag = s'.cfg.demodLag →
      s.cfg.demodThresh = s'.cfg.demodThresh → s.cfg.demodPol = s'.cfg.demodPol → s.demod = s'.demod →
      exec (.demodProcess x) s = .next t →
      ∃ t', exec (.demodProcess x) s' = .next t' ∧ t'.demod = t.demod ∧
        t'.lastResponse .core = t.lastResponse .core)

/-! ### FSK demodulator (42_fsk_demod.md) -/

/-- R130, R131, R132: DEMOD.PROCESS; the partner is the entry DEMOD_LAG − 1 of the line before the push, and one product
alone saturates. -/
def Obligations.DemodProcessCorrelatesFiltersDecides : Prop :=
  LegalData 3 0 (fun _ => True) ∧ (∀ x, (encode (.demodProcess x)).toNat = 0x30000000 + x.toNat) ∧
  (∀ x s, s.active = .xport → AnswersOnly (.demodProcess x) s (wordOf 4 0 0)) ∧
  (∀ a b : Half, scaleSpec (a.toInt * b.toInt) ≠ a.toInt * b.toInt / 2 ^ 15 ↔ a = 0x8000 ∧ b = 0x8000) ∧
  ∀ (x : Half) (s : State), s.active = .core →
    ∃ other : Half, s.demod.d[s.cfg.demodLag - 1]? = some other ∧
    let q := scaleSpec (x.toInt * other.toInt)
    let y := outputSpec s.cfg s.cfg.demodCoef s.demod.f q
    ∃ t, exec (.demodProcess x) s = .next t ∧ FilterStepped s.cfg s.cfg.demodCoef s.demod.f q y t.demod.f ∧
      t.demod.d[0]? = some x ∧ (∀ k, k < 21 → t.demod.d[k + 1]? = s.demod.d[k]?) ∧
      OnlyChanges [.demod] s t ∧ Answered s t (wordOf 0 0 (decideSpec s.cfg y))

/-- R133: after reset the first DEMOD_LAG bits are decide(0) and the demodulator's filter stays 0; the line always holds
the last inputs, newest first, so from call DEMOD_LAG + 1 on the partner of the next call is the input DEMOD_LAG
calls before it. -/
def Obligations.DemodWarmUp : Prop :=
  ∀ (c : Config) (xs : List Half),
    ∃ t, runCommands (xs.map .demodProcess) (State.resetWith c) = .next t ∧ t.active = .core ∧
      (xs.length ≤ c.demodLag →
        t.demod.f = ⟨0, 0⟩ ∧ t.core.responses = List.replicate xs.length (wordOf 0 0 (decideSpec c 0))) ∧
      (∀ k, k < 22 → t.demod.d[k]? = some (xs.reverse.getD k 0)) ∧
      (c.demodLag ≤ xs.length → t.demod.d[c.demodLag - 1]? = xs[xs.length - c.demodLag]?)

/-! ### Framing decoder (43_framing.md) -/

/-- R141 to R147: FRAME.PROCESS follows the table of R140. -/
def Obligations.FrameProcessFollowsTheTable : Prop :=
  LegalData 4 0 (fun d => d < 2) ∧ (∀ b, (encode (.frameProcess b)).toNat = 0x40000000 + b.toNat) ∧
  (∀ b s, s.active = .xport → AnswersOnly (.frameProcess b) s (wordOf 4 0 0)) ∧
  ∀ (b : Bool) (s : State), s.active = .core →
    ∃ t, exec (.frameProcess b) s = .next t ∧ OnlyChanges [.frame] s t ∧ t.frame.prev = b ∧
      (s.frame.st ≠ .stop → t.frame.out = s.frame.out ∧ Answered s t (wordOf 0 0 0)) ∧
      (s.frame.st = .idle → s.frame.prev = true → b = false → t.frame.acc = 0 ∧ t.frame.st = .start) ∧
      (s.frame.st = .idle → ¬ (s.frame.prev = true ∧ b = false) →
        t.frame.acc = s.frame.acc ∧ t.frame.st = .idle) ∧
      (s.frame.st = .start → t.frame.st = .data 1 ∧
        ∀ j, j < 8 → t.frame.acc.getLsbD j = if j = 0 then b else s.frame.acc.getLsbD j) ∧
      (∀ i : Fin 8, s.frame.st = .data i →
        t.frame.st = (if h : i.val < 7 then .data ⟨i.val + 1, by omega⟩ else .stop) ∧
        ∀ j, j < 8 → t.frame.acc.getLsbD j = if j = i.val then b else s.frame.acc.getLsbD j) ∧
      (s.frame.st = .stop → t.frame.st = .idle ∧ t.frame.acc = s.frame.acc ∧ t.frame.out = s.frame.acc ∧
        Answered s t (wordOf 0 1 s.frame.acc.toNat))

/-- R146: every FRAME.PROCESS writes its bit into `prev`, `prev` is 1 after reset, and only the IDLE state reads it. -/
def Obligations.OnlyIdleReadsThePreviousBit : Prop :=
  (∀ c, (State.resetWith c).frame.prev = true) ∧
  (∀ (b : Bool) (s t : State), s.active = .core → exec (.frameProcess b) s = .next t → t.frame.prev = b) ∧
  ∀ (b prev : Bool) (s : State), s.active = .core → s.frame.st ≠ .idle →
    exec (.frameProcess b) { s with frame := { s.frame with prev := prev } } = exec (.frameProcess b) s

/-- R149: a frame emits its byte on the 10th call of the frame; frames may follow one another at once; after a 0 stop bit
nothing starts before a 1 and then a 0; at most one byte per 10 calls, and IDLE after every emission. -/
def Obligations.FramingArithmetic : Prop :=
  (∀ (s : State) (v : Byte) (stop : Bool), s.active = .core → s.frame.st = .idle → s.frame.prev = true →
    ∃ t, runCommands ((false :: ((List.range 8).map v.getLsbD ++ [stop])).map .frameProcess) s = .next t ∧
      t.core.responses = s.core.responses ++ (List.replicate 9 (wordOf 0 0 0) ++ [wordOf 0 1 v.toNat]) ∧
      t.frame = ⟨.idle, v, v, stop⟩ ∧ OnlyChanges [.frame] s t ∧
      (stop = true → ∃ u, exec (.frameProcess false) t = .next u ∧ u.frame.st = .start) ∧
      (stop = false → ∀ zeros ones,
        (∃ u, runCommands (List.replicate zeros (.frameProcess false)) t = .next u ∧ u.frame.st = .idle) ∧
        ∃ u r, runCommands (List.replicate zeros (.frameProcess false) ++
            List.replicate (ones + 1) (.frameProcess true)) t = .next u ∧ u.frame.st = .idle ∧
          exec (.frameProcess false) u = .next r ∧ r.frame.st = .start)) ∧
  (∀ (s : State) (bits : List Bool), s.active = .core → bits.length ≤ 10 →
    ∃ t rs, runCommands (bits.map .frameProcess) s = .next t ∧ t.core.responses = s.core.responses ++ rs ∧
      (rs.filter fun r => r.toNat / 2 ^ 16 % 2 == 1).length ≤ 1) ∧
  ∀ (b : Bool) (s t : State), s.active = .core → exec (.frameProcess b) s = .next t →
    (t.lastResponse .core).toNat / 2 ^ 16 % 2 = 1 → t.frame.st = .idle

/-! ### Sample queues (44_queue.md) -/

/-- R161, R163, R170, R204: TXQ.PUSH, of a queue with canonical storage and its write cursor in range. -/
def Obligations.TxqPushStoresOrAnswersFull : Prop :=
  LegalData 5 0 (fun _ => True) ∧ (∀ x, (encode (.txqPush x)).toNat = 0x50000000 + x.toNat) ∧
  (∀ x s, s.active = .xport → AnswersOnly (.txqPush x) s (wordOf 4 0 0)) ∧
  ∀ (x : Half) (s : State), s.active = .core →
    ((s.txq.wr + 1) % s.cfg.rbN = s.txq.rdSeen → AnswersOnly (.txqPush x) s (wordOf 1 0 0)) ∧
    ((s.txq.wr + 1) % s.cfg.rbN ≠ s.txq.rdSeen → s.txq.wr < s.cfg.rbN → s.txq.cell.wf = true →
      ∃ t, exec (.txqPush x) s = .next t ∧ OnlyChanges [.txq] s t ∧ Answered s t (wordOf 0 0 0) ∧
        t.txq.wr = (s.txq.wr + 1) % s.cfg.rbN ∧ t.txq.rd = s.txq.rd ∧ t.txq.rdSeen = s.txq.rdSeen ∧
        t.txq.wrSeen = (if s.cfg.queueView = .immediate then t.txq.wr else s.txq.wrSeen) ∧
        t.txq.cell.read s.txq.wr = x ∧ ∀ a, a ≠ s.txq.wr → t.txq.cell.read a = s.txq.cell.read a)

/-- R162, R163, R171, R205, R207: TXQ.POP; EMPTY sets the underrun bit and changes no queue. -/
def Obligations.TxqPopTakesOrSignalsUnderrun : Prop :=
  LegalData 5 1 (fun d => d = 0) ∧ (encode .txqPop).toNat = 0x51000000 ∧
  (∀ s, s.active = .core → AnswersOnly .txqPop s (wordOf 4 0 0)) ∧
  ∀ s : State, s.active = .xport →
    (s.txq.wrSeen = s.txq.rd →
      ∃ t, exec .txqPop s = .next t ∧ OnlyChanges [.blk] s t ∧ Answered s t (wordOf 2 0 0) ∧
        t.blk.txUnderrun = true ∧ t.blk.rxOverrun = s.blk.rxOverrun ∧
        (s.cfg.queueView = .immediate → t.blk.txUnderrunSeen = true) ∧
        (s.cfg.queueView = .lagged → t.blk.txUnderrunSeen = s.blk.txUnderrunSeen) ∧
        (s.blk.Inv s.cfg → t.blk.rxOverrunSeen = s.blk.rxOverrunSeen)) ∧
    (s.txq.wrSeen ≠ s.txq.rd → s.txq.rd < s.cfg.rbN →
      ∃ t, exec .txqPop s = .next t ∧ OnlyChanges [.txq] s t ∧
        Answered s t (wordOf 0 0 (s.txq.cell.read s.txq.rd).toNat) ∧
        t.txq.rd = (s.txq.rd + 1) % s.cfg.rbN ∧ t.txq.wr = s.txq.wr ∧ t.txq.wrSeen = s.txq.wrSeen ∧
        t.txq.rdSeen = (if s.cfg.queueView = .immediate then t.txq.rd else s.txq.rdSeen) ∧
        ∀ a, t.txq.cell.read a = s.txq.cell.read a)

/-- R172: TXQ.ISEMPTY, on both ports, each from its own side; no state is written. -/
def Obligations.TxqIsEmptyAnswersThePortsView : Prop :=
  LegalData 5 2 (fun d => d = 0) ∧ (encode .txqIsEmpty).toNat = 0x52000000 ∧
  ∀ s : State,
    (s.active = .core →
      AnswersOnly .txqIsEmpty s (wordOf 0 0 (if s.txq.wr = s.txq.rdSeen then 1 else 0))) ∧
    (s.active = .xport →
      AnswersOnly .txqIsEmpty s (wordOf 0 0 (if s.txq.wrSeen = s.txq.rd then 1 else 0)))

/-- R173: TXQ.ISFULL; on CORE the answer 1 means the next TXQ.PUSH answers FULL. -/
def Obligations.TxqIsFullAnswersThePortsView : Prop :=
  LegalData 5 3 (fun d => d = 0) ∧ (encode .txqIsFull).toNat = 0x53000000 ∧
  ∀ s : State,
    (s.active = .core →
      ∃ t, exec .txqIsFull s = .next t ∧ OnlyChanges [] s t ∧
        Answered s t (wordOf 0 0 (if (s.txq.wr + 1) % s.cfg.rbN = s.txq.rdSeen then 1 else 0)) ∧
        (t.lastResponse .core = wordOf 0 0 1 → ∀ x, AnswersOnly (.txqPush x) t (wordOf 1 0 0))) ∧
    (s.active = .xport →
      AnswersOnly .txqIsFull s (wordOf 0 0 (if (s.txq.wrSeen + 1) % s.cfg.rbN = s.txq.rd then 1 else 0)))

/-- R161, R163, R174, R204, R208: RXQ.PUSH; FULL sets the overrun bit and changes no queue. -/
def Obligations.RxqPushStoresOrSignalsOverrun : Prop :=
  LegalData 6 0 (fun _ => True) ∧ (∀ x, (encode (.rxqPush x)).toNat = 0x60000000 + x.toNat) ∧
  (∀ x s, s.active = .core → AnswersOnly (.rxqPush x) s (wordOf 4 0 0)) ∧
  ∀ (x : Half) (s : State), s.active = .xport →
    ((s.rxq.wr + 1) % s.cfg.rbN = s.rxq.rdSeen →
      ∃ t, exec (.rxqPush x) s = .next t ∧ OnlyChanges [.blk] s t ∧ Answered s t (wordOf 1 0 0) ∧
        t.blk.rxOverrun = true ∧ t.blk.txUnderrun = s.blk.txUnderrun ∧
        (s.cfg.queueView = .immediate → t.blk.rxOverrunSeen = true) ∧
        (s.cfg.queueView = .lagged → t.blk.rxOverrunSeen = s.blk.rxOverrunSeen) ∧
        (s.blk.Inv s.cfg → t.blk.txUnderrunSeen = s.blk.txUnderrunSeen)) ∧
    ((s.rxq.wr + 1) % s.cfg.rbN ≠ s.rxq.rdSeen → s.rxq.wr < s.cfg.rbN → s.rxq.cell.wf = true →
      ∃ t, exec (.rxqPush x) s = .next t ∧ OnlyChanges [.rxq] s t ∧ Answered s t (wordOf 0 0 0) ∧
        t.rxq.wr = (s.rxq.wr + 1) % s.cfg.rbN ∧ t.rxq.rd = s.rxq.rd ∧ t.rxq.rdSeen = s.rxq.rdSeen ∧
        t.rxq.wrSeen = (if s.cfg.queueView = .immediate then t.rxq.wr else s.rxq.wrSeen) ∧
        t.rxq.cell.read s.rxq.wr = x ∧ ∀ a, a ≠ s.rxq.wr → t.rxq.cell.read a = s.rxq.cell.read a)

/-- R162, R163, R175, R205: RXQ.POP; EMPTY on CORE is routine and changes nothing. -/
def Obligations.RxqPopTakesOrAnswersEmpty : Prop :=
  LegalData 6 1 (fun d => d = 0) ∧ (encode .rxqPop).toNat = 0x61000000 ∧
  (∀ s, s.active = .xport → AnswersOnly .rxqPop s (wordOf 4 0 0)) ∧
  ∀ s : State, s.active = .core →
    (s.rxq.wrSeen = s.rxq.rd → AnswersOnly .rxqPop s (wordOf 2 0 0)) ∧
    (s.rxq.wrSeen ≠ s.rxq.rd → s.rxq.rd < s.cfg.rbN →
      ∃ t, exec .rxqPop s = .next t ∧ OnlyChanges [.rxq] s t ∧
        Answered s t (wordOf 0 0 (s.rxq.cell.read s.rxq.rd).toNat) ∧
        t.rxq.rd = (s.rxq.rd + 1) % s.cfg.rbN ∧ t.rxq.wr = s.rxq.wr ∧ t.rxq.wrSeen = s.rxq.wrSeen ∧
        t.rxq.rdSeen = (if s.cfg.queueView = .immediate then t.rxq.rd else s.rxq.rdSeen) ∧
        ∀ a, t.rxq.cell.read a = s.rxq.cell.read a)

/-- R176: RXQ.ISEMPTY, with the sides exchanged. -/
def Obligations.RxqIsEmptyAnswersThePortsView : Prop :=
  LegalData 6 2 (fun d => d = 0) ∧ (encode .rxqIsEmpty).toNat = 0x62000000 ∧
  ∀ s : State,
    (s.active = .core →
      AnswersOnly .rxqIsEmpty s (wordOf 0 0 (if s.rxq.wrSeen = s.rxq.rd then 1 else 0))) ∧
    (s.active = .xport →
      AnswersOnly .rxqIsEmpty s (wordOf 0 0 (if s.rxq.wr = s.rxq.rdSeen then 1 else 0)))

/-- R177: RXQ.ISFULL; on XPORT the answer 1 means the next RXQ.PUSH answers FULL and sets the overrun bit. -/
def Obligations.RxqIsFullAnswersThePortsView : Prop :=
  LegalData 6 3 (fun d => d = 0) ∧ (encode .rxqIsFull).toNat = 0x63000000 ∧
  ∀ s : State,
    (s.active = .core →
      AnswersOnly .rxqIsFull s (wordOf 0 0 (if (s.rxq.wrSeen + 1) % s.cfg.rbN = s.rxq.rd then 1 else 0))) ∧
    (s.active = .xport →
      ∃ t, exec .rxqIsFull s = .next t ∧ OnlyChanges [] s t ∧
        Answered s t (wordOf 0 0 (if (s.rxq.wr + 1) % s.cfg.rbN = s.rxq.rdSeen then 1 else 0)) ∧
        (t.lastResponse .xport = wordOf 0 0 1 → ∀ x, ∃ u, exec (.rxqPush x) t = .next u ∧
          Answered t u (wordOf 1 0 0) ∧ u.blk.rxOverrun = true))

/-- log 7 (the model's choice, DESIGN CHOICE): in a state whose cursor names a cell that does not exist, which no run
reaches, the command that would access the cell faults. R62 gives the cells 0..RB_N−1 only. -/
def Obligations.MissingCellFaults : Prop :=
  ∀ (s : State) (x : Half),
    (s.active = .core → (s.txq.wr + 1) % s.cfg.rbN ≠ s.txq.rdSeen → s.cfg.rbN ≤ s.txq.wr →
      exec (.txqPush x) s = .fault .noSuchCell) ∧
    (s.active = .xport → s.txq.wrSeen ≠ s.txq.rd → s.cfg.rbN ≤ s.txq.rd →
      exec .txqPop s = .fault .noSuchCell) ∧
    (s.active = .xport → (s.rxq.wr + 1) % s.cfg.rbN ≠ s.rxq.rdSeen → s.cfg.rbN ≤ s.rxq.wr →
      exec (.rxqPush x) s = .fault .noSuchCell) ∧
    (s.active = .core → s.rxq.wrSeen ≠ s.rxq.rd → s.cfg.rbN ≤ s.rxq.rd →
      exec .rxqPop s = .fault .noSuchCell)

/-- R166, R167, R168: each synchroniser step copies what it names and writes nothing else; under IMMEDIATE the flag
synchroniser's copy happens inside the commands that set a sticky bit. -/
def Obligations.SynchronisersCopyAndWriteNothingElse : Prop :=
  (∀ (s : State) (k : QueueId), s.cfg.queueView = .lagged →
    ∃ t, agentStep (.syncW k) s = .next t ∧ OnlyChanges [k.part] s t ∧ t.core = s.core ∧ t.xport = s.xport ∧
      t.queue k = { s.queue k with wrSeen := (s.queue k).wr }) ∧
  (∀ (s : State) (k : QueueId), s.cfg.queueView = .lagged →
    ∃ t, agentStep (.syncR k) s = .next t ∧ OnlyChanges [k.part] s t ∧ t.core = s.core ∧ t.xport = s.xport ∧
      t.queue k = { s.queue k with rdSeen := (s.queue k).rd }) ∧
  (∀ s : State, s.cfg.queueView = .lagged →
    ∃ t, agentStep .syncF s = .next t ∧ OnlyChanges [.blk] s t ∧ t.core = s.core ∧ t.xport = s.xport ∧
      t.blk = ⟨s.blk.txUnderrun, s.blk.rxOverrun, s.blk.txUnderrun, s.blk.rxOverrun⟩) ∧
  ∀ (s t : State) (i : Instr), s.cfg.queueView = .immediate → s.active = .xport →
    (i = .txqPop ∧ s.txq.emptyC = true ∨ ∃ x, i = .rxqPush x ∧ s.rxq.fullP s.cfg.rbN = true) →
    exec i s = .next t →
    t.blk.txUnderrunSeen = t.blk.txUnderrun ∧ t.blk.rxOverrunSeen = t.blk.rxOverrun

/-- R178: a PUSH returns OK only if the queue was truly not full and a POP only if it was truly not empty, in both
visibility models, from every state that meets the invariant. -/
def Obligations.NoFalseSuccess : Prop :=
  ∀ (s t : State) (a : Agent) (k : QueueId), s.Inv → agentStep a s = .next t →
    (pushedOk k a s t ≠ [] → (s.queue k).occ s.cfg.rbN < s.cfg.rbN - 1) ∧
    (poppedOk k a s t ≠ [] → 0 < (s.queue k).occ s.cfg.rbN)

/-- R179: from a queue its producer sees empty, the first RB_N − 1 PUSHes return OK whatever else happens in between, and
if the producer's view of the read cursor is where it was, one more returns FULL. -/
def Obligations.QueueCapacity : Prop :=
  ∀ (k : QueueId) (as : List Agent) (s t : State) (offer ok taken : List Half),
    s.Inv → (s.queue k).wr = (s.queue k).rdSeen → runQueue k as s = some (offer, ok, taken, t) →
    (offer.length ≤ s.cfg.rbN - 1 → ok = offer) ∧
    (offer.length = s.cfg.rbN - 1 → (t.queue k).rdSeen = (s.queue k).rdSeen → t.active = k.producer →
      ∀ x, ∃ u, exec (k.pushInstr x) t = .next u ∧ Answered t u (wordOf 1 0 0))

/-- R180: the samples of the POPs that returned OK are, in order, a prefix of what the queue held followed by the samples
of the PUSHes that returned OK; what is left is what the queue then holds. From reset the queue holds the cells between
the initial cursors: by default four zeros in txq and nothing in rxq. -/
def Obligations.QueueIsFifo : Prop :=
  (∀ (k : QueueId) (as : List Agent) (s t : State) (offer ok taken : List Half),
    s.Inv → runQueue k as s = some (offer, ok, taken, t) →
    (s.queue k).contents s.cfg.rbN ++ ok = taken ++ (t.queue k).contents t.cfg.rbN) ∧
  (∀ (c : Config) (coreList xportList : List Offer) (k : QueueId) (as : List Agent) (t : State)
    (offer ok taken : List Half),
    runQueue k as { State.resetWith c with core := ⟨coreList, []⟩, xport := ⟨xportList, []⟩ } =
      some (offer, ok, taken, t) →
    taken <+: ((State.resetWith c).queue k).contents c.rbN ++ ok) ∧
  State.reset.txq.contents 8 = [0, 0, 0, 0] ∧ State.reset.rxq.contents 8 = []

/-- R182: the views are pessimistic and never wrong on the unsafe side, each may differ from the truth under LAGGED, and
under IMMEDIATE they are exact. -/
def Obligations.ViewsArePessimistic : Prop :=
  (∀ (c : Config) (q : Queue), q.Inv c →
    (q.isFull c.rbN = true → q.fullP c.rbN = true) ∧ (q.isEmpty = true → q.emptyC = true) ∧
    (q.emptyP = true → q.isEmpty = true) ∧ (q.fullC c.rbN = true → q.isFull c.rbN = true) ∧
    (c.queueView = .immediate → q.fullP c.rbN = q.isFull c.rbN ∧ q.emptyC = q.isEmpty ∧ q.emptyP = q.isEmpty ∧
      q.fullC c.rbN = q.isFull c.rbN)) ∧
  (∃ c q, c.queueView = .lagged ∧ Queue.Inv c q ∧ q.fullP c.rbN = true ∧ q.isFull c.rbN = false) ∧
  (∃ c q, c.queueView = .lagged ∧ Queue.Inv c q ∧ q.emptyC = true ∧ q.isEmpty = false) ∧
  (∃ c q, c.queueView = .lagged ∧ Queue.Inv c q ∧ q.emptyP = false ∧ q.isEmpty = true) ∧
  ∃ c q, c.queueView = .lagged ∧ Queue.Inv c q ∧ q.fullC c.rbN = false ∧ q.isFull c.rbN = true

/-- R42: a cursor stays in 0..RB_N−1; only a PUSH that returned OK changes the write cursor and only a POP that returned OK
the read cursor, each to the next slot. -/
def Obligations.CursorsMoveOnlyBySuccess : Prop :=
  ∀ (s t : State) (a : Agent) (k : QueueId), s.Inv → agentStep a s = .next t →
    ((t.queue k).wr < t.cfg.rbN ∧ (t.queue k).rd < t.cfg.rbN) ∧
    (pushedOk k a s t = [] → (t.queue k).wr = (s.queue k).wr) ∧
    (pushedOk k a s t ≠ [] → (t.queue k).wr = ((s.queue k).wr + 1) % s.cfg.rbN) ∧
    (poppedOk k a s t = [] → (t.queue k).rd = (s.queue k).rd) ∧
    (poppedOk k a s t ≠ [] → (t.queue k).rd = ((s.queue k).rd + 1) % s.cfg.rbN)

/-- R238: once TXQ.ISFULL on CORE would answer 0, the next TXQ.PUSH succeeds, whatever XPORT and the synchronisers do
first. -/
def Obligations.NotFullOnCoreStaysNotFull : Prop :=
  ∀ (s t : State) (as : List Agent) (x : Half), s.Inv → s.txq.fullP s.cfg.rbN = false →
    (∀ a ∈ as, a ≠ .port .core) → runAgents as s = .next t →
    ∃ u, exec (.txqPush x) { t with active := .core } = .next u ∧
      u.core.responses = t.core.responses ++ [wordOf 0 0 0]

/-- R169, R73: on a schedule that is fair to the synchronisers, after any point of a run that does not stop there is a
later one at which the consumer sees the write cursor, one at which the producer sees the read cursor, and one at
which CORE sees the sticky bits. -/
def Obligations.FairSchedulesShowEveryCursor : Prop :=
  ∀ (sched : Nat → Agent) (s : State), s.cfg.queueView = .lagged → FairSync sched →
    (∀ n, ∃ t, runSchedule sched n s = .next t) →
    ∀ n, (∀ k : QueueId, ∃ m t, n < m ∧ runSchedule sched m s = .next t ∧ (t.queue k).wrSeen = (t.queue k).wr) ∧
      (∀ k : QueueId, ∃ m t, n < m ∧ runSchedule sched m s = .next t ∧ (t.queue k).rdSeen = (t.queue k).rd) ∧
      ∃ m t, n < m ∧ runSchedule sched m s = .next t ∧ t.blk.txUnderrunSeen = t.blk.txUnderrun ∧
        t.blk.rxOverrunSeen = t.blk.rxOverrun

/-- C5: LAGGED admits every IMMEDIATE run: a port's step under IMMEDIATE is that step under LAGGED followed by the five
synchroniser steps. -/
def Obligations.LaggedAdmitsEveryImmediateStep : Prop :=
  ∀ (s t : State) (p : Port), s.Inv → s.cfg.queueView = .immediate → agentStep (.port p) s = .next t →
    runAgents (.port p :: syncAgents) (s.withView .lagged) = .next (t.withView .lagged)

/-! ### Block status and outputs (45_block.md, 60_exceptions.md) -/

/-- R190: BLK.STATUS on each port; no state is written; from a state that meets the invariant the empty and full flags of
one queue are never both 1 and CORE never reads a fault bit as 1 while the source bit is 0. -/
def Obligations.StatusReportsThePortsFlags : Prop :=
  LegalData 7 0 (fun d => d = 0) ∧ (encode .blkStatus).toNat = 0x70000000 ∧
  ∀ s : State,
    let bit := fun (p : Prop) [Decidable p] (n : Nat) => if p then 2 ^ n else 0
    (s.active = .core → AnswersOnly .blkStatus s (wordOf 0 0
      (bit (s.txq.wr = s.txq.rdSeen) 0 + bit ((s.txq.wr + 1) % s.cfg.rbN = s.txq.rdSeen) 1 +
        bit (s.rxq.wrSeen = s.rxq.rd) 2 + bit ((s.rxq.wrSeen + 1) % s.cfg.rbN = s.rxq.rd) 3 +
        bit (s.blk.txUnderrunSeen = true) 4 + bit (s.blk.rxOverrunSeen = true) 5))) ∧
    (s.active = .xport → AnswersOnly .blkStatus s (wordOf 0 0
      (bit (s.txq.wrSeen = s.txq.rd) 0 + bit ((s.txq.wrSeen + 1) % s.cfg.rbN = s.txq.rd) 1 +
        bit (s.rxq.wr = s.rxq.rdSeen) 2 + bit ((s.rxq.wr + 1) % s.cfg.rbN = s.rxq.rdSeen) 3 +
        bit (s.blk.txUnderrun = true) 4 + bit (s.blk.rxOverrun = true) 5))) ∧
    (s.Inv → ∀ t, exec .blkStatus s = .next t →
      let r := (t.lastResponse t.active).toNat
      ¬ (r % 2 = 1 ∧ r / 2 % 2 = 1) ∧ ¬ (r / 4 % 2 = 1 ∧ r / 8 % 2 = 1) ∧
      (r / 16 % 2 = 1 → s.blk.txUnderrun = true) ∧ (r / 32 % 2 = 1 → s.blk.rxOverrun = true))

/-- R191: the level outputs; the full and empty levels tell what the next PUSH or POP of their port answers. -/
def Obligations.LevelOutputsTellTheNextAnswer : Prop :=
  ∀ s : State,
    (s.outTxqFull = true ↔ (s.txq.wr + 1) % s.cfg.rbN = s.txq.rdSeen) ∧
    (s.outRxqEmpty = true ↔ s.rxq.wrSeen = s.rxq.rd) ∧
    (s.outTxqEmpty = true ↔ s.txq.wrSeen = s.txq.rd) ∧
    (s.outRxqFull = true ↔ (s.rxq.wr + 1) % s.cfg.rbN = s.rxq.rdSeen) ∧
    (s.outFatal = true ↔ s.blk.txUnderrun = true ∨ s.blk.rxOverrun = true) ∧
    (s.Inv → ∀ x t,
      (s.active = .core → exec (.txqPush x) s = .next t →
        (s.outTxqFull = true ↔ t.lastResponse .core = wordOf 1 0 0)) ∧
      (s.active = .core → exec .rxqPop s = .next t →
        (s.outRxqEmpty = true ↔ t.lastResponse .core = wordOf 2 0 0)) ∧
      (s.active = .xport → exec .txqPop s = .next t →
        (s.outTxqEmpty = true ↔ t.lastResponse .xport = wordOf 2 0 0)) ∧
      (s.active = .xport → exec (.rxqPush x) s = .next t →
        (s.outRxqFull = true ↔ t.lastResponse .xport = wordOf 1 0 0)))

/-- R47: the sticky bits are 0 after reset, each is set only by its own command answering EMPTY or FULL on XPORT, and once
set it stays set. -/
def Obligations.StickyBitsAreSticky : Prop :=
  (∀ c, (State.resetWith c).blk.txUnderrun = false ∧ (State.resetWith c).blk.rxOverrun = false) ∧
  ∀ (s t : State) (a : Agent), agentStep a s = .next t →
    (s.blk.txUnderrun = true → t.blk.txUnderrun = true) ∧ (s.blk.rxOverrun = true → t.blk.rxOverrun = true) ∧
    (s.blk.txUnderrun = false → t.blk.txUnderrun = true →
      commandOf a s = some (.xport, .txqPop) ∧ s.txq.emptyC = true) ∧
    (s.blk.rxOverrun = false → t.blk.rxOverrun = true →
      (∃ x, commandOf a s = some (.xport, .rxqPush x)) ∧ s.rxq.fullP s.cfg.rbN = true)

/-- R48: the CORE copies of the sticky bits. -/
def Obligations.StickyCopiesFollow : Prop :=
  (∀ c, (State.resetWith c).blk.txUnderrunSeen = false ∧ (State.resetWith c).blk.rxOverrunSeen = false) ∧
  ∀ (s t : State) (a : Agent), s.Inv → agentStep a s = .next t →
    (s.cfg.queueView = .immediate →
      t.blk.txUnderrunSeen = t.blk.txUnderrun ∧ t.blk.rxOverrunSeen = t.blk.rxOverrun) ∧
    (s.cfg.queueView = .lagged → a = .syncF →
      t.blk.txUnderrunSeen = s.blk.txUnderrun ∧ t.blk.rxOverrunSeen = s.blk.rxOverrun) ∧
    (t.blk.txUnderrunSeen = true → t.blk.txUnderrun = true) ∧
    (t.blk.rxOverrunSeen = true → t.blk.rxOverrun = true) ∧
    (s.blk.txUnderrunSeen = true → t.blk.txUnderrunSeen = true) ∧
    (s.blk.rxOverrunSeen = true → t.blk.rxOverrunSeen = true)

/-- R209: with any sticky bits every command but BLK.STATUS, which reports them, completes with the same answer and the same
units, and BLK.STATUS completes too. -/
def Obligations.StickyBitsStopNothing : Prop :=
  ∀ (s : State) (b : Blk),
    (∀ (i : Instr) (t : State), i ≠ .blkStatus → exec i s = .next t →
      ∃ b', exec i { s with blk := b } = .next { t with blk := b' }) ∧
    ∃ t, exec .blkStatus { s with blk := b } = .next t ∧ OnlyChanges [] { s with blk := b } t

/-! ### The whole machine (10_state.md, 20_memory.md, 60_exceptions.md, 70_reset_and_hazards.md) -/

/-- R230: every state element after reset, under every configuration. -/
def Obligations.ResetValues : Prop :=
  ∀ c : Config, let s := State.resetWith c
    s.cfg = c ∧ s.dds.phase.toNat = 0 ∧ s.dds.inc.toNat = 0 ∧ s.iir.s1.toInt = 0 ∧ s.iir.s2.toInt = 0 ∧
    (∀ k, k < 22 → s.demod.d[k]? = some 0) ∧ s.demod.f.s1.toInt = 0 ∧ s.demod.f.s2.toInt = 0 ∧
    s.frame.st = .idle ∧ s.frame.acc.toNat = 0 ∧ s.frame.out.toNat = 0 ∧ s.frame.prev = true ∧
    (∀ k i, ((s.queue k).cell.read i).toNat = 0) ∧
    s.txq.wr = c.txqInitWr ∧ s.txq.wrSeen = c.txqInitWr ∧ s.txq.rd = c.txqInitRd ∧ s.txq.rdSeen = c.txqInitRd ∧
    s.rxq.wr = c.rxqInitWr ∧ s.rxq.wrSeen = c.rxqInitWr ∧ s.rxq.rd = c.rxqInitRd ∧ s.rxq.rdSeen = c.rxqInitRd ∧
    s.blk.txUnderrun = false ∧ s.blk.rxOverrun = false ∧ s.blk.txUnderrunSeen = false ∧
    s.blk.rxOverrunSeen = false

/-- The invariant holds after reset, under every configuration; log 2: `State.reset` takes the defaults of R3, where
RB_N = 8 and the initial cursors are 4, 0, 0, 0. -/
def Obligations.ResetMeetsTheInvariant : Prop :=
  (∀ c : Config, (State.resetWith c).Inv) ∧ State.reset.Inv ∧ State.reset.cfg.rbN = 8 ∧
  State.reset.cfg.queueView = .lagged ∧ State.reset.cfg.demodLag = 21 ∧
  (State.reset.txq.wr, State.reset.txq.rd, State.reset.rxq.wr, State.reset.rxq.rd) = (4, 0, 0, 0)

/-- R46, R48, R163 and the canonical storage: every step of the machine keeps the invariant, from every state that meets
it. -/
def Obligations.EveryStepKeepsTheInvariant : Prop :=
  ∀ s t : State, s.Inv → step s = .next t → t.Inv

/-- R200: from a state that meets the invariant, with no overlapping commands, a step neither faults nor is refused: the
machine always goes on, and the state it goes on with is such a state again. -/
def Obligations.TheBlockNeverStops : Prop :=
  ∀ s : State, s.Inv → s.NoOverlap → ∃ t, step s = .next t ∧ t.Inv ∧ t.NoOverlap

/-- R235: no step changes the configuration. -/
def Obligations.ConfigurationIsFixed : Prop :=
  ∀ s t : State, step s = .next t → t.cfg = s.cfg

/-- R72: the DDS, IIR, demodulator and framing state is reachable only from CORE, XPORT's sticky bits only from XPORT and
the flag synchroniser. -/
def Obligations.OnlyCoreReachesTheCoreUnits : Prop :=
  ∀ (s t : State) (a : Agent), agentStep a s = .next t →
    (a ≠ .port .core → OnlyChanges [.txq, .rxq, .blk] s t ∧ t.core = s.core) ∧
    (a = .port .core → OnlyChanges [.dds, .iir, .demod, .frame, .txq, .rxq] s t ∧ t.xport = s.xport)

/-- R22, column "written by", for every element of the record: it changes only by its writers. Under LAGGED a view or a
sticky-bit copy is written by its synchroniser alone; under IMMEDIATE, where there is none (R163, R168), by the queue's
own PUSH or POP and by the command that sets the bit. -/
def Obligations.OnlyTheNamedWritersWrite : Prop :=
  ∀ (s t : State) (a : Agent), agentStep a s = .next t →
    (t.dds.phase ≠ s.dds.phase →
      commandOf a s = some (.core, .ddsNext) ∨ ∃ v, commandOf a s = some (.core, .ddsSetPhase v)) ∧
    (t.dds.inc ≠ s.dds.inc → ∃ v, commandOf a s = some (.core, .ddsSetInc v)) ∧
    (t.iir ≠ s.iir → commandOf a s = some (.core, .iirReset) ∨ ∃ x, commandOf a s = some (.core, .iirProcess x)) ∧
    (t.demod ≠ s.demod → ∃ x, commandOf a s = some (.core, .demodProcess x)) ∧
    (t.frame ≠ s.frame → ∃ b, commandOf a s = some (.core, .frameProcess b)) ∧
    (t.txq.cell ≠ s.txq.cell ∨ t.txq.wr ≠ s.txq.wr → ∃ x, commandOf a s = some (.core, .txqPush x)) ∧
    (t.txq.rd ≠ s.txq.rd → commandOf a s = some (.xport, .txqPop)) ∧
    (t.rxq.cell ≠ s.rxq.cell ∨ t.rxq.wr ≠ s.rxq.wr → ∃ x, commandOf a s = some (.xport, .rxqPush x)) ∧
    (t.rxq.rd ≠ s.rxq.rd → commandOf a s = some (.core, .rxqPop)) ∧
    (t.blk.txUnderrun ≠ s.blk.txUnderrun → commandOf a s = some (.xport, .txqPop)) ∧
    (t.blk.rxOverrun ≠ s.blk.rxOverrun → ∃ x, commandOf a s = some (.xport, .rxqPush x)) ∧
    (s.cfg.queueView = .lagged →
      (∀ k : QueueId, ((t.queue k).wrSeen ≠ (s.queue k).wrSeen → a = .syncW k) ∧
        ((t.queue k).rdSeen ≠ (s.queue k).rdSeen → a = .syncR k)) ∧
      (t.blk.txUnderrunSeen ≠ s.blk.txUnderrunSeen ∨ t.blk.rxOverrunSeen ≠ s.blk.rxOverrunSeen → a = .syncF)) ∧
    (s.cfg.queueView = .immediate →
      (∀ k : QueueId,
        ((t.queue k).wrSeen ≠ (s.queue k).wrSeen → ∃ x, commandOf a s = some (k.producer, k.pushInstr x)) ∧
        ((t.queue k).rdSeen ≠ (s.queue k).rdSeen → commandOf a s = some (k.consumer, k.popInstr))) ∧
      (s.Inv →
        (t.blk.txUnderrunSeen ≠ s.blk.txUnderrunSeen → commandOf a s = some (.xport, .txqPop)) ∧
        (t.blk.rxOverrunSeen ≠ s.blk.rxOverrunSeen → ∃ x, commandOf a s = some (.xport, .rxqPush x))))

/-- R218: what XPORT is answered, and what its commands do, does not depend on the state that belongs to CORE alone nor
on what the CORE host has to say. -/
def Obligations.XportLearnsNothingOfTheCoreUnits : Prop :=
  ∀ (s s' t : State), s'.cfg = s.cfg → s'.txq = s.txq → s'.rxq = s.rxq → s'.blk = s.blk → s'.xport = s.xport →
    agentStep (.port .xport) s = .next t →
    ∃ t', agentStep (.port .xport) s' = .next t' ∧ t'.xport = t.xport ∧ t'.txq = t.txq ∧ t'.rxq = t.rxq ∧
      t'.blk = t.blk

/-- R164: "A port never reads the other side's own cursor directly": what CORE is answered does not depend on XPORT's
cursors, on XPORT's views, nor on the sticky bits themselves. -/
def Obligations.CoreNeverReadsXportsCursors : Prop :=
  ∀ (s t : State) (txRd txWrSeen rxWr rxRdSeen : Nat) (tx rx : Bool), agentStep (.port .core) s = .next t →
    ∃ t', agentStep (.port .core)
        { s with
          txq := { s.txq with rd := txRd, wrSeen := txWrSeen }
          rxq := { s.rxq with wr := rxWr, rdSeen := rxRdSeen }
          blk := { s.blk with txUnderrun := tx, rxOverrun := rx } } = .next t' ∧ t'.core = t.core

/-- Storage in canonical form is determined by what its cells read as: equal memories are equal data (log 8), and a write
keeps the form and changes one cell. -/
def Obligations.StorageIsCanonical : Prop :=
  (∀ m m' : Memory, m.wf = true → m'.wf = true → (∀ i, m.read i = m'.read i) → m = m') ∧
  ∀ (m : Memory) (i : Nat) (v : Half), m.wf = true →
    (m.write i v).wf = true ∧ ∀ j, (m.write i v).read j = if j = i then v else m.read j

/-- R3: a configuration with any parameter outside its legal range is refused, and one with all of them inside is taken as
it is. -/
def Obligations.IllegalConfigurationIsRefused : Prop :=
  ∀ p : Params,
    (p.ddsTb = 0 ∨ 16 < p.ddsTb ∨ p.ddsWave.length ≠ 2 ^ p.ddsTb ∨ 15 < p.iirF ∨ p.demodLag = 0 ∨
        22 < p.demodLag ∨ p.rbN < 2 ∨ 65536 < p.rbN ∨ p.rbN ≤ p.txqInitWr ∨ p.rbN ≤ p.txqInitRd ∨
        p.rbN ≤ p.rxqInitWr ∨ p.rbN ≤ p.rxqInitRd →
      Config.ofParams p = none) ∧
    (p.Legal → ∃ c, Config.ofParams p = some c ∧ c.toParams = p)

/-- R246, R220, log 3 (the model's choice, DESIGN CHOICE, for an exhausted schedule): when both hosts' lists are exhausted
no response is added and only views and sticky-bit copies can still move; with no agent scheduled the state is
held. -/
def Obligations.EndedRunMovesOnlyViews : Prop :=
  (∀ s : State, s.sched = [] → step s = .next s) ∧
  ∀ (s : State) (a : Agent), s.ended →
    ∃ t, agentStep a s = .next t ∧ t.ended ∧ t.core.responses = s.core.responses ∧
      t.xport.responses = s.xport.responses ∧ OnlyChanges [.txq, .rxq, .blk] s t ∧
      (∀ k : QueueId, (t.queue k).cell = (s.queue k).cell ∧ (t.queue k).wr = (s.queue k).wr ∧
        (t.queue k).rd = (s.queue k).rd) ∧
      t.blk.txUnderrun = s.blk.txUnderrun ∧ t.blk.rxOverrun = s.blk.rxOverrun
end

