-- ==== Sys2Proof/Laws/Arith.lean ====
section
/-! SUPPORT. The arithmetic of spec/00_scope.md R6 and of the filters: what each primitive gives, and the ranges. -/

namespace Sys2Proof.Machine

theorem operandSample_eq_toInt (d : Half) : operandSample d = d.toInt := by
  unfold operandSample
  rw [BitVec.toInt_eq_msb_cond, BitVec.msb_eq_getLsbD_last]
  norm_num

theorem int16_eq_toInt (d : Half) : int16 d = d.toInt := operandSample_eq_toInt d

theorem int32_eq_toInt (d : Wide) : int32 d = d.toInt := rfl

theorem wrap16_eq_bmod (v : Int) : wrap16 v = Int.bmod v (2 ^ 16) := by
  unfold wrap16 Int.bmod
  norm_num
  omega

theorem wrap32_eq_bmod (v : Int) : wrap32 v = Int.bmod v (2 ^ 32) := by
  unfold wrap32 Int.bmod
  norm_num
  omega

theorem sat16_eq_clamp (v : Int) : sat16 v = max (-32768) (min v 32767) := by
  unfold sat16
  omega

theorem sat32_eq_clamp (v : Int) : sat32 v = max (-2 ^ 31) (min v (2 ^ 31 - 1)) := by
  unfold sat32
  omega

theorem int16_pat16 {v : Int} (lo : -2 ^ 15 ≤ v) (hi : v < 2 ^ 15) : int16 (pat16 v) = v := by
  rw [int16_eq_toInt, pat16, BitVec.toInt_ofInt]
  exact Int.bmod_eq_of_le (by omega) (by omega)

theorem int32_pat32 {v : Int} (lo : -2 ^ 31 ≤ v) (hi : v < 2 ^ 31) : int32 (pat32 v) = v := by
  rw [int32_eq_toInt, pat32, BitVec.toInt_ofInt]
  exact Int.bmod_eq_of_le (by omega) (by omega)

theorem pat16_toNat (v : Int) : (pat16 v).toNat = (v % 2 ^ 16).toNat := by
  rw [pat16, BitVec.toNat_ofInt]
  norm_num

theorem ovf_range (c : Config) (v : Int) : -2 ^ 31 ≤ ovf c v ∧ ovf c v < 2 ^ 31 := by
  unfold ovf wrap32 sat32
  split
  · omega
  · split <;> [skip; split] <;> omega

theorem int32_pat32_ovf (c : Config) (v : Int) : int32 (pat32 (ovf c v)) = ovf c v :=
  int32_pat32 (ovf_range c v).1 (ovf_range c v).2

theorem quant_range (c : Config) (v : Int) : -2 ^ 15 ≤ quant c v ∧ quant c v < 2 ^ 15 := by
  unfold quant wrap16 sat16
  split
  · split <;> [skip; split] <;> omega
  · omega

theorem int16_pat16_quant (c : Config) (v : Int) : int16 (pat16 (quant c v)) = quant c v :=
  int16_pat16 (quant_range c v).1 (quant_range c v).2

theorem ovf_zero (c : Config) : ovf c 0 = 0 := by
  unfold ovf
  split <;> decide

theorem quant_zero (c : Config) : quant c 0 = 0 := by
  have shift : quantShift c 0 = 0 := by
    unfold quantShift asr
    split
    · rfl
    · split
      · simp
      · rename_i h _
        rw [zero_add]
        have : (2 : Int) ^ (c.iirF - 1) < 2 ^ c.iirF := pow_lt_pow_right₀ (by omega) (by omega)
        exact Int.ediv_eq_zero_of_lt (by positivity) this
  unfold quant
  rw [shift]
  split <;> decide

theorem biquad_zero (c : Config) (k : Coef) : biquad c k ⟨0, 0⟩ 0 = (0, ⟨0, 0⟩) := by
  have z : int32 0#32 = 0 := by decide
  have p : pat32 0 = 0#32 := by decide
  simp [biquad, biquadOut, biquadState, z, p, ovf_zero, quant_zero]

theorem nextPhase_toNat (d : Dds) : (nextPhase d).toNat = (d.phase.toNat + d.inc.toNat) % 2 ^ 16 := by
  unfold nextPhase u16 operandU16
  rw [pat16_toNat]
  omega

theorem nextPhase_eq_add (d : Dds) : nextPhase d = d.phase + d.inc := by
  apply BitVec.eq_of_toNat_eq
  rw [nextPhase_toNat, BitVec.toNat_add]

theorem wave_toNat (c : Config) (p : Half) : (wave c p).toNat = sampleAt c p.toNat := by
  have h := waveIndex_lt c p
  rw [waveIndex_eq] at h
  simp only [wave, sampleAt, waveIndex_eq]
  rw [List.getD_eq_getElem _ _ h]

theorem append_toNat_eq_add {m n : Nat} (a : BitVec m) (b : BitVec n) :
    (a ++ b).toNat = a.toNat * 2 ^ n + b.toNat := by
  rw [BitVec.toNat_append, ← Nat.shiftLeft_add_eq_or_of_lt b.isLt, Nat.shiftLeft_eq]

theorem responseWord_eq_wordOf (st : Status) (v : Bool) (d : Half) :
    responseWord st v d = wordOf st.code.toNat v.toNat d.toNat := by
  apply BitVec.eq_of_toNat_eq
  have hd := d.isLt
  rw [responseWord, append_toNat_eq_add, wordOf, BitVec.toNat_ofNat, Nat.mod_eq_of_lt] <;>
  cases st <;> cases v <;> simp [Status.code] <;> omega

end Sys2Proof.Machine
end

