-- ==== Sys2Proof/Laws/Decode.lean ====
section
/-! SUPPORT. What the decoder and the encoder do, in numbers (spec/30_encoding.md R80 to R87). -/

namespace Sys2Proof

open Sys2Proof.Machine (append_toNat_eq_add)

theorem and_half (w : Word) : w &&& 0xFFFF0000#32 = w >>> 16 <<< 16 := by
  apply BitVec.eq_of_getLsbD_eq
  intro i hi
  interval_cases i <;> simp

theorem and_bit (w : Word) : w &&& 0xFFFFFFFE#32 = w >>> 1 <<< 1 := by
  apply BitVec.eq_of_getLsbD_eq
  intro i hi
  interval_cases i <;> simp

theorem and_all (w : Word) : w &&& 0xFFFFFFFF#32 = w := BitVec.and_allOnes

theorem admits_half (w p : Word) (hp : p.toNat % 2 ^ 16 = 0) :
    (w &&& 0xFFFF0000#32 == p) = decide (w.toNat / 2 ^ 16 = p.toNat / 2 ^ 16) := by
  have hw := w.isLt
  rw [and_half, Bool.eq_iff_iff, beq_iff_eq, decide_eq_true_iff, ← BitVec.toNat_inj]
  simp only [BitVec.toNat_shiftLeft, BitVec.toNat_ushiftRight, Nat.shiftRight_eq_div_pow, Nat.shiftLeft_eq]
  omega

theorem admits_bit (w p : Word) (hp : p.toNat % 2 = 0) :
    (w &&& 0xFFFFFFFE#32 == p) = decide (w.toNat / 2 = p.toNat / 2) := by
  have hw := w.isLt
  rw [and_bit, Bool.eq_iff_iff, beq_iff_eq, decide_eq_true_iff, ← BitVec.toNat_inj]
  simp only [BitVec.toNat_shiftLeft, BitVec.toNat_ushiftRight, Nat.shiftRight_eq_div_pow, Nat.shiftLeft_eq]
  omega

theorem admits_all (w p : Word) : (w &&& 0xFFFFFFFF#32 == p) = decide (w.toNat = p.toNat) := by
  rw [and_all, Bool.eq_iff_iff, beq_iff_eq, decide_eq_true_iff, BitVec.toNat_inj]

theorem map_find_cons {α β : Type} (f : α → β) (p : α → Bool) (a : α) (l : List α) :
    ((a :: l).find? p).map f = if p a = true then some (f a) else (l.find? p).map f := by
  cases h : p a <;> simp [List.find?, h]

/-- The decoder as a chain of numeric tests, one per row of R82. -/
theorem decode_eq (w : Word) : decode w =
    if w.toNat / 2 ^ 16 = 0x1000 then some (.ddsSetPhase (dataOf w))
    else if w.toNat / 2 ^ 16 = 0x1100 then some (.ddsSetInc (dataOf w))
    else if w.toNat = 0x12000000 then some .ddsNext
    else if w.toNat = 0x20000000 then some .iirReset
    else if w.toNat / 2 ^ 16 = 0x2100 then some (.iirProcess (dataOf w))
    else if w.toNat / 2 ^ 16 = 0x3000 then some (.demodProcess (dataOf w))
    else if w.toNat / 2 = 0x20000000 then some (.frameProcess ((dataOf w).getLsbD 0))
    else if w.toNat / 2 ^ 16 = 0x5000 then some (.txqPush (dataOf w))
    else if w.toNat = 0x51000000 then some .txqPop
    else if w.toNat = 0x52000000 then some .txqIsEmpty
    else if w.toNat = 0x53000000 then some .txqIsFull
    else if w.toNat / 2 ^ 16 = 0x6000 then some (.rxqPush (dataOf w))
    else if w.toNat = 0x61000000 then some .rxqPop
    else if w.toNat = 0x62000000 then some .rxqIsEmpty
    else if w.toNat = 0x63000000 then some .rxqIsFull
    else if w.toNat = 0x70000000 then some .blkStatus
    else none := by
  simp only [decode, rows, map_find_cons, Row.admits, BitVec.ofNat_eq_ofNat]
  rw [admits_half w 0x10000000#32 (by decide), admits_half w 0x11000000#32 (by decide), admits_all w 0x12000000#32,
    admits_all w 0x20000000#32, admits_half w 0x21000000#32 (by decide), admits_half w 0x30000000#32 (by decide),
    admits_bit w 0x40000000#32 (by decide), admits_half w 0x50000000#32 (by decide), admits_all w 0x51000000#32,
    admits_all w 0x52000000#32, admits_all w 0x53000000#32, admits_half w 0x60000000#32 (by decide),
    admits_all w 0x61000000#32, admits_all w 0x62000000#32, admits_all w 0x63000000#32, admits_all w 0x70000000#32]
  simp only [decide_eq_true_eq, BitVec.toNat_ofNat, Nat.reducePow, Nat.reduceMod, Nat.reduceDiv, List.find?_nil,
    Option.map_none]

/-- A word that decodes is admitted by the row its command is built from. -/
theorem decode_some_row {w : Word} {i : Instr} (h : decode w = some i) :
    ∃ r ∈ rows, r.admits w = true ∧ r.build (dataOf w) = i := by
  obtain ⟨r, hr, hi⟩ := Option.map_eq_some_iff.mp h
  exact ⟨r, List.mem_of_find?_eq_some hr, List.find?_some (p := fun r : Row => r.admits w) hr, hi⟩

/-- A word encodes no command exactly when no row admits it. -/
theorem decode_none_iff (w : Word) : decode w = none ↔ ∀ r ∈ rows, r.admits w = false := by
  simp [decode]

theorem commandWord_toNat (u o : BitVec 4) (d : Half) :
    (commandWord u o d).toNat = u.toNat * 2 ^ 28 + o.toNat * 2 ^ 24 + d.toNat := by
  simp only [commandWord, append_toNat_eq_add, BitVec.ofNat_eq_ofNat, BitVec.toNat_ofNat, Nat.reducePow, Nat.zero_mod]
  omega

theorem dataOf_toNat (w : Word) : (dataOf w).toNat = w.toNat % 2 ^ 16 := BitVec.toNat_setWidth ..

theorem unitOf_toNat (w : Word) : (unitOf w).toNat = w.toNat / 2 ^ 28 := by
  have hw := w.isLt
  simp only [unitOf, BitVec.extractLsb'_toNat, Nat.shiftRight_eq_div_pow]
  omega

theorem opOf_toNat (w : Word) : (opOf w).toNat = w.toNat / 2 ^ 24 % 16 := by
  simp [opOf, BitVec.extractLsb'_toNat, Nat.shiftRight_eq_div_pow]

theorem rsvOf_toNat (w : Word) : (rsvOf w).toNat = w.toNat / 2 ^ 16 % 256 := by
  simp [rsvOf, BitVec.extractLsb'_toNat, Nat.shiftRight_eq_div_pow]

theorem bitData_toNat (b : Bool) : (BitVec.zeroExtend 16 (BitVec.ofBool b)).toNat = b.toNat := by
  cases b <;> rfl

/-- The word of each command as a number. -/
theorem encode_toNat (i : Instr) : (encode i).toNat =
    match i with
    | .ddsSetPhase v => 0x10000000 + v.toNat
    | .ddsSetInc v => 0x11000000 + v.toNat
    | .ddsNext => 0x12000000
    | .iirReset => 0x20000000
    | .iirProcess x => 0x21000000 + x.toNat
    | .demodProcess x => 0x30000000 + x.toNat
    | .frameProcess b => 0x40000000 + b.toNat
    | .txqPush x => 0x50000000 + x.toNat
    | .txqPop => 0x51000000
    | .txqIsEmpty => 0x52000000
    | .txqIsFull => 0x53000000
    | .rxqPush x => 0x60000000 + x.toNat
    | .rxqPop => 0x61000000
    | .rxqIsEmpty => 0x62000000
    | .rxqIsFull => 0x63000000
    | .blkStatus => 0x70000000 := by
  cases i <;> simp only [encode, commandWord_toNat, bitData_toNat] <;> simp

end Sys2Proof
end

