-- ==== Sys2Proof/Laws/Memory.lean ====
section
/-! SUPPORT. The queue storage: read after write, and that a write keeps the canonical form (spec/20_memory.md R62). -/

namespace Sys2Proof.Machine

/-- The canonical form as a proposition on the list. -/
def Canonical (l : List (Nat × Half)) : Prop := l.Pairwise (fun a b => a.1 < b.1) ∧ ∀ c ∈ l, c.2 ≠ 0

theorem Memory.wf_iff (m : Memory) : m.wf = true ↔ Canonical m.cells := by
  simp [Memory.wf, Canonical]

/-- Reading a canonical list. -/
def readCells (l : List (Nat × Half)) (i : Nat) : Half := (l.lookup i).getD 0

theorem readCells_nil (i : Nat) : readCells [] i = 0 := rfl

theorem readCells_cons (c : Nat × Half) (l : List (Nat × Half)) (i : Nat) :
    readCells (c :: l) i = if i = c.1 then c.2 else readCells l i := by
  unfold readCells
  rw [List.lookup]
  by_cases h : i = c.1
  · subst h; simp
  · rw [beq_false_of_ne h, if_neg h]

theorem readCells_absent {l : List (Nat × Half)} {i : Nat} (h : ∀ c ∈ l, c.1 ≠ i) : readCells l i = 0 := by
  induction l with
  | nil => rfl
  | cons c l ih =>
    rw [readCells_cons, if_neg (Ne.symm (h c (by simp))), ih fun d hd => h d (by simp [hd])]

theorem readCells_lt_head {c : Nat × Half} {l : List (Nat × Half)} {i : Nat} (hl : Canonical (c :: l)) (h : i ≤ c.1) :
    readCells l i = 0 := by
  apply readCells_absent
  intro d hd
  have := (List.pairwise_cons.mp hl.1).1 d hd
  omega

theorem Canonical.tail {c : Nat × Half} {l : List (Nat × Half)} (h : Canonical (c :: l)) : Canonical l :=
  ⟨(List.pairwise_cons.mp h.1).2, fun d hd => h.2 d (by simp [hd])⟩

theorem mem_putCell {i : Nat} {v : Half} {l : List (Nat × Half)} {c : Nat × Half} (h : c ∈ putCell i v l) :
    c = (i, v) ∨ c ∈ l := by
  induction l with
  | nil =>
    unfold putCell at h
    split at h <;> simp_all
  | cons d l ih =>
    unfold putCell at h
    split at h
    · split at h <;> simp_all
    · split at h
      · split at h <;> simp_all
        rcases h with h | h <;> simp [h]
      · rcases List.mem_cons.mp h with h | h
        · simp [h]
        · rcases ih h with h | h <;> simp [h]

theorem putCell_canonical (i : Nat) (v : Half) {l : List (Nat × Half)} (h : Canonical l) :
    Canonical (putCell i v l) := by
  induction l with
  | nil =>
    unfold putCell
    split
    · exact h
    · rename_i hv
      exact ⟨by simp, by simpa using hv⟩
  | cons d l ih =>
    have hp := List.pairwise_cons.mp h.1
    unfold putCell
    split
    · rename_i hi
      split
      · exact h
      · rename_i hv
        refine ⟨List.pairwise_cons.mpr ⟨?_, h.1⟩, ?_⟩
        · intro c hc
          rcases List.mem_cons.mp hc with rfl | hc
          · exact hi
          · exact Nat.lt_trans hi (hp.1 c hc)
        · intro c hc
          rcases List.mem_cons.mp hc with rfl | hc
          · exact hv
          · exact h.2 c hc
    · split
      · rename_i hi
        split
        · exact h.tail
        · rename_i hv
          refine ⟨List.pairwise_cons.mpr ⟨fun c hc => hi ▸ hp.1 c hc, hp.2⟩, ?_⟩
          intro c hc
          rcases List.mem_cons.mp hc with rfl | hc
          · exact hv
          · exact h.tail.2 c hc
      · rename_i hlt hne
        have it := ih h.tail
        refine ⟨List.pairwise_cons.mpr ⟨?_, it.1⟩, ?_⟩
        · intro c hc
          rcases mem_putCell hc with rfl | hc
          · show d.1 < i
            omega
          · exact hp.1 c hc
        · intro c hc
          rcases List.mem_cons.mp hc with rfl | hc
          · exact h.2 c (by simp)
          · exact it.2 c hc

theorem readCells_putCell (i : Nat) (v : Half) (j : Nat) {l : List (Nat × Half)} (h : Canonical l) :
    readCells (putCell i v l) j = if j = i then v else readCells l j := by
  induction l with
  | nil =>
    unfold putCell
    split
    · rename_i hv
      simp [readCells_nil, hv]
    · simp [readCells_cons]
  | cons d l ih =>
    unfold putCell
    split
    · rename_i hi
      split
      · rename_i hv
        split
        · rename_i hj
          rw [readCells_cons, if_neg (by omega), hv, readCells_lt_head h (by omega)]
        · rfl
      · rw [readCells_cons]
    · split
      · rename_i hlt hi
        split
        · rename_i hv
          split
          · rename_i hj
            rw [hv, readCells_lt_head h (by omega)]
          · rename_i hj
            rw [readCells_cons, if_neg (by omega)]
        · simp only [readCells_cons, ← hi]
          split <;> rfl
      · rename_i hlt hne
        simp only [readCells_cons, ih h.tail]
        split
        · rename_i hj
          rw [if_neg (by omega)]
        · rfl

theorem canonical_ext {l m : List (Nat × Half)} (hl : Canonical l) (hm : Canonical m)
    (h : ∀ i, readCells l i = readCells m i) : l = m := by
  induction l generalizing m with
  | nil =>
    cases m with
    | nil => rfl
    | cons c m =>
      have := h c.1
      rw [readCells_nil, readCells_cons, if_pos rfl] at this
      exact absurd this.symm (hm.2 c (by simp))
  | cons c l ih =>
    cases m with
    | nil =>
      have := h c.1
      rw [readCells_nil, readCells_cons, if_pos rfl] at this
      exact absurd this (hl.2 c (by simp))
    | cons d m =>
      have key : c.1 = d.1 := by
        rcases Nat.lt_trichotomy c.1 d.1 with hlt | heq | hgt
        · have := h c.1
          rw [readCells_cons, if_pos rfl, readCells_cons, if_neg (by omega), readCells_lt_head hm (by omega)] at this
          exact absurd this (hl.2 c (by simp))
        · exact heq
        · have := h d.1
          rw [readCells_cons, if_neg (by omega), readCells_cons, if_pos rfl, readCells_lt_head hl (by omega)] at this
          exact absurd this.symm (hm.2 d (by simp))
      have val : c.2 = d.2 := by
        have := h c.1
        rwa [readCells_cons, if_pos rfl, readCells_cons, if_pos key] at this
      have tails : l = m := by
        apply ih hl.tail hm.tail
        intro i
        have := h i
        rw [readCells_cons, readCells_cons] at this
        by_cases hi : i = c.1
        · rw [readCells_lt_head hl (by omega), readCells_lt_head hm (by omega)]
        · rwa [if_neg hi, if_neg (by omega)] at this
      rw [tails, Prod.ext key val]

theorem Memory.read_write (m : Memory) (i : Nat) (v : Half) (j : Nat) (h : m.wf = true) :
    (m.write i v).read j = if j = i then v else m.read j :=
  readCells_putCell i v j ((Memory.wf_iff m).mp h)

theorem Memory.write_wf (m : Memory) (i : Nat) (v : Half) (h : m.wf = true) : (m.write i v).wf = true :=
  (Memory.wf_iff _).mpr (putCell_canonical i v ((Memory.wf_iff m).mp h))

theorem Memory.write_lt (m : Memory) (n i : Nat) (v : Half) (hi : i < n) (h : ∀ e ∈ m.cells, e.1 < n) :
    ∀ e ∈ (m.write i v).cells, e.1 < n := by
  intro e he
  rcases mem_putCell he with rfl | he
  · exact hi
  · exact h e he

end Sys2Proof.Machine
end

