-- ==== Sys2Proof/Laws/Queue.lean ====
section
/-! SUPPORT. The ring buffer: cursor arithmetic, what push and pop do, that they keep the queue's invariant, and what
they do to the samples the queue holds (spec/44_queue.md R161 to R168, R178 to R182). -/

namespace Sys2Proof.Machine

/-! ### Cursor arithmetic -/

theorem nextSlot_eq {n a : Nat} (ha : a < n) : nextSlot n a = if a + 1 = n then 0 else a + 1 := by
  unfold nextSlot
  split
  · rename_i h
    rw [h, Nat.mod_self]
  · exact Nat.mod_eq_of_lt (by omega)

theorem nextSlot_lt {n a : Nat} (ha : a < n) : nextSlot n a < n := Nat.mod_lt _ (by omega)

theorem distance_eq {n a b : Nat} (ha : a < n) (hb : b < n) :
    distance n a b = if b ≤ a then a - b else a + n - b := by
  unfold distance
  split
  · rw [show a + n - b = (a - b) + n by omega, Nat.add_mod_right]
    exact Nat.mod_eq_of_lt (by omega)
  · exact Nat.mod_eq_of_lt (by omega)

theorem distance_lt {n a b : Nat} (ha : a < n) : distance n a b < n := Nat.mod_lt _ (by omega)

theorem distance_zero_iff {n a b : Nat} (ha : a < n) (hb : b < n) : distance n a b = 0 ↔ a = b := by
  rw [distance_eq ha hb]
  split <;> omega

theorem nextSlot_eq_iff {n a b : Nat} (ha : a < n) (hb : b < n) : nextSlot n a = b ↔ distance n a b = n - 1 := by
  rw [distance_eq ha hb, nextSlot_eq ha]
  split <;> split <;> omega

theorem distance_nextSlot_left {n a b : Nat} (ha : a < n) (hb : b < n) (h : nextSlot n a ≠ b) :
    distance n (nextSlot n a) b = distance n a b + 1 := by
  rw [distance_eq (nextSlot_lt ha) hb, distance_eq ha hb]
  rw [nextSlot_eq ha] at h ⊢
  repeat' split
  all_goals first | omega | (split at h <;> omega)

theorem distance_nextSlot_right {n a b : Nat} (ha : a < n) (hb : b < n) (h : a ≠ b) :
    distance n a (nextSlot n b) + 1 = distance n a b := by
  rw [distance_eq ha (nextSlot_lt hb), distance_eq ha hb, nextSlot_eq hb]
  repeat' split
  all_goals omega

theorem nextSlot_ne {n a : Nat} (hn : 2 ≤ n) (ha : a < n) : nextSlot n a ≠ a := by
  rw [nextSlot_eq ha]
  split <;> omega

/-- The slot `distance n a b` places after `b` is `a`. -/
theorem add_distance_mod {n a b : Nat} (ha : a < n) (hb : b < n) : (b + distance n a b) % n = a := by
  rw [distance_eq ha hb]
  split
  · rw [show b + (a - b) = a by omega]
    exact Nat.mod_eq_of_lt ha
  · rw [show b + (a + n - b) = a + n by omega, Nat.add_mod_right]
    exact Nat.mod_eq_of_lt ha

theorem add_mod_ne {n a b j : Nat} (ha : a < n) (hb : b < n) (h : j < distance n a b) : (b + j) % n ≠ a := by
  rw [distance_eq ha hb] at h
  have split_mod : (b + j) % n = if b + j < n then b + j else b + j - n := by
    split
    · exact Nat.mod_eq_of_lt (by assumption)
    · rw [Nat.mod_eq_sub_mod (by omega)]
      exact Nat.mod_eq_of_lt (by split at h <;> omega)
  rw [split_mod]
  split at h <;> split <;> omega

theorem nextSlot_add_mod {n b j : Nat} : (nextSlot n b + j) % n = (b + (j + 1)) % n := by
  unfold nextSlot
  rw [Nat.mod_add_mod]
  congr 1
  omega

theorem rbN_ge (c : Config) : 2 ≤ c.rbN := c.legal.2.2.2.2.1.1

/-! ### Push and pop -/

/-- The queue after a PUSH that returned OK (R161). -/
def Queue.pushed (c : Config) (q : Queue) (x : Half) : Queue :=
  { q with
    cell := q.cell.write q.wr x
    wr := nextSlot c.rbN q.wr
    wrSeen := if c.queueView = .immediate then nextSlot c.rbN q.wr else q.wrSeen }

/-- The queue after a POP that returned OK (R162). -/
def Queue.popped (c : Config) (q : Queue) : Queue :=
  { q with
    rd := nextSlot c.rbN q.rd
    rdSeen := if c.queueView = .immediate then nextSlot c.rbN q.rd else q.rdSeen }

theorem push_full {c : Config} {q : Queue} {x : Half} (h : q.fullP c.rbN = true) : q.push c x = .ok none := by
  rw [Queue.push, if_pos h]

theorem push_ok {c : Config} {q : Queue} {x : Half} (h : q.fullP c.rbN = false) (hw : q.wr < c.rbN) :
    q.push c x = .ok (some (q.pushed c x)) := by
  rw [Queue.push, if_neg (by simp [h]), memWrite, if_pos hw]
  rfl

theorem pop_empty {c : Config} {q : Queue} (h : q.emptyC = true) : q.pop c = .ok none := by
  rw [Queue.pop, if_pos h]

theorem pop_ok {c : Config} {q : Queue} (h : q.emptyC = false) (hr : q.rd < c.rbN) :
    q.pop c = .ok (some (q.cell.read q.rd, q.popped c)) := by
  rw [Queue.pop, if_neg (by simp [h]), memRead, if_pos hr]
  rfl

/-- Everything push can answer. -/
theorem push_cases (c : Config) (q : Queue) (x : Half) :
    (q.fullP c.rbN = true ∧ q.push c x = .ok none) ∨
    (q.fullP c.rbN = false ∧ q.wr < c.rbN ∧ q.push c x = .ok (some (q.pushed c x))) ∨
    (q.fullP c.rbN = false ∧ ¬ q.wr < c.rbN ∧ q.push c x = .error .noSuchCell) := by
  cases h : q.fullP c.rbN
  · by_cases hw : q.wr < c.rbN
    · exact .inr (.inl ⟨rfl, hw, push_ok h hw⟩)
    · refine .inr (.inr ⟨rfl, hw, ?_⟩)
      rw [Queue.push, if_neg (by simp [h]), memWrite, if_neg hw]
      rfl
  · exact .inl ⟨rfl, push_full h⟩

/-- Everything pop can answer. -/
theorem pop_cases (c : Config) (q : Queue) :
    (q.emptyC = true ∧ q.pop c = .ok none) ∨
    (q.emptyC = false ∧ q.rd < c.rbN ∧ q.pop c = .ok (some (q.cell.read q.rd, q.popped c))) ∨
    (q.emptyC = false ∧ ¬ q.rd < c.rbN ∧ q.pop c = .error .noSuchCell) := by
  cases h : q.emptyC
  · by_cases hr : q.rd < c.rbN
    · exact .inr (.inl ⟨rfl, hr, pop_ok h hr⟩)
    · refine .inr (.inr ⟨rfl, hr, ?_⟩)
      rw [Queue.pop, if_neg (by simp [h]), memRead, if_neg hr]
      rfl
  · exact .inl ⟨rfl, pop_empty h⟩

/-! ### The view predicates as occupancies (R46) -/

theorem Queue.Inv.fullP_iff {c : Config} {q : Queue} (h : q.Inv c) :
    q.fullP c.rbN = true ↔ q.occP c.rbN = c.rbN - 1 := by
  rw [Queue.fullP, beq_iff_eq, nextSlot_eq_iff h.wr_lt h.rdSeen_lt, Queue.occP]

theorem Queue.Inv.emptyP_iff {c : Config} {q : Queue} (h : q.Inv c) : q.emptyP = true ↔ q.occP c.rbN = 0 := by
  rw [Queue.emptyP, beq_iff_eq, Queue.occP, distance_zero_iff h.wr_lt h.rdSeen_lt]

theorem Queue.Inv.fullC_iff {c : Config} {q : Queue} (h : q.Inv c) :
    q.fullC c.rbN = true ↔ q.occC c.rbN = c.rbN - 1 := by
  rw [Queue.fullC, beq_iff_eq, nextSlot_eq_iff h.wrSeen_lt h.rd_lt, Queue.occC]

theorem Queue.Inv.emptyC_iff {c : Config} {q : Queue} (h : q.Inv c) : q.emptyC = true ↔ q.occC c.rbN = 0 := by
  rw [Queue.emptyC, beq_iff_eq, Queue.occC, distance_zero_iff h.wrSeen_lt h.rd_lt]

theorem Queue.Inv.isFull_iff {c : Config} {q : Queue} (h : q.Inv c) :
    q.isFull c.rbN = true ↔ q.occ c.rbN = c.rbN - 1 := by
  rw [Queue.isFull, beq_iff_eq, nextSlot_eq_iff h.wr_lt h.rd_lt, Queue.occ]

theorem Queue.Inv.isEmpty_iff {c : Config} {q : Queue} (h : q.Inv c) : q.isEmpty = true ↔ q.occ c.rbN = 0 := by
  rw [Queue.isEmpty, beq_iff_eq, Queue.occ, distance_zero_iff h.wr_lt h.rd_lt]

theorem Queue.Inv.occP_lt {c : Config} {q : Queue} (h : q.Inv c) : q.occP c.rbN < c.rbN := distance_lt h.wr_lt

/-! ### Push, pop and the synchronisers keep the invariant -/

theorem occP_pushed {c : Config} {q : Queue} (x : Half) (h : q.Inv c) (hf : q.fullP c.rbN = false) :
    (q.pushed c x).occP c.rbN = q.occP c.rbN + 1 :=
  distance_nextSlot_left h.wr_lt h.rdSeen_lt (by simp only [Queue.fullP, beq_eq_false_iff_ne] at hf; exact hf)

theorem occ_pushed {c : Config} {q : Queue} (x : Half) (h : q.Inv c) (hf : q.fullP c.rbN = false) :
    (q.pushed c x).occ c.rbN = q.occ c.rbN + 1 := by
  refine distance_nextSlot_left h.wr_lt h.rd_lt fun hn => ?_
  have full := (nextSlot_eq_iff h.wr_lt h.rd_lt).mp hn
  have lt := h.occP_lt
  have le := h.occ_le
  have nf : q.occP c.rbN ≠ c.rbN - 1 := fun e => by simp [h.fullP_iff.mpr e] at hf
  unfold Queue.occ at le
  omega

theorem occC_popped {c : Config} {q : Queue} (h : q.Inv c) (he : q.emptyC = false) :
    (q.popped c).occC c.rbN + 1 = q.occC c.rbN :=
  distance_nextSlot_right h.wrSeen_lt h.rd_lt (by simp only [Queue.emptyC, beq_eq_false_iff_ne] at he; exact he)

theorem occ_popped {c : Config} {q : Queue} (h : q.Inv c) (he : q.emptyC = false) :
    (q.popped c).occ c.rbN + 1 = q.occ c.rbN := by
  refine distance_nextSlot_right h.wr_lt h.rd_lt fun hn => ?_
  have zero := (distance_zero_iff h.wr_lt h.rd_lt).mpr hn
  have le := h.occC_le
  have ne : q.occC c.rbN ≠ 0 := fun e => by simp [h.emptyC_iff.mpr e] at he
  unfold Queue.occ at le
  omega

theorem Queue.Inv.pushed {c : Config} {q : Queue} (x : Half) (h : q.Inv c) (hf : q.fullP c.rbN = false) :
    (q.pushed c x).Inv c := by
  have hP := occP_pushed x h hf
  have hO := occ_pushed x h hf
  have le1 := h.occC_le
  have le2 := h.occ_le
  by_cases hv : c.queueView = .immediate
  · obtain ⟨e1, e2⟩ := h.exact_views hv
    refine ⟨nextSlot_lt h.wr_lt, h.rd_lt, ?_, h.rdSeen_lt, Memory.write_wf _ _ _ h.cell_wf,
      Memory.write_lt _ _ _ _ h.wr_lt h.cell_lt, ?_, by omega, fun _ => ⟨?_, e2⟩⟩
    · simp only [Queue.pushed, hv, if_true]
      exact nextSlot_lt h.wr_lt
    · simp only [Queue.occC, Queue.occ, Queue.pushed, hv, if_true, le_refl]
    · simp only [Queue.pushed, hv, if_true]
  · refine ⟨nextSlot_lt h.wr_lt, h.rd_lt, ?_, h.rdSeen_lt, Memory.write_wf _ _ _ h.cell_wf,
      Memory.write_lt _ _ _ _ h.wr_lt h.cell_lt, ?_, by omega, fun e => absurd e hv⟩
    · simp only [Queue.pushed, hv, if_false]
      exact h.wrSeen_lt
    · have : (q.pushed c x).occC c.rbN = q.occC c.rbN := by simp [Queue.occC, Queue.pushed, hv]
      omega

theorem Queue.Inv.popped {c : Config} {q : Queue} (h : q.Inv c) (he : q.emptyC = false) : (q.popped c).Inv c := by
  have hC := occC_popped h he
  have hO := occ_popped h he
  have le1 := h.occC_le
  have le2 := h.occ_le
  by_cases hv : c.queueView = .immediate
  · obtain ⟨e1, e2⟩ := h.exact_views hv
    refine ⟨h.wr_lt, nextSlot_lt h.rd_lt, h.wrSeen_lt, ?_, h.cell_wf, h.cell_lt, by omega, ?_, fun _ => ⟨e1, ?_⟩⟩
    · simp only [Queue.popped, hv, if_true]
      exact nextSlot_lt h.rd_lt
    · simp only [Queue.occP, Queue.occ, Queue.popped, hv, if_true, le_refl]
    · simp only [Queue.popped, hv, if_true]
  · refine ⟨h.wr_lt, nextSlot_lt h.rd_lt, h.wrSeen_lt, ?_, h.cell_wf, h.cell_lt, by omega, ?_, fun e => absurd e hv⟩
    · simp only [Queue.popped, hv, if_false]
      exact h.rdSeen_lt
    · have : (q.popped c).occP c.rbN = q.occP c.rbN := by simp [Queue.occP, Queue.popped, hv]
      omega

theorem Queue.Inv.syncW {c : Config} {q : Queue} (h : q.Inv c) : q.syncW.Inv c :=
  ⟨h.wr_lt, h.rd_lt, h.wr_lt, h.rdSeen_lt, h.cell_wf, h.cell_lt, Nat.le_refl _, h.occ_le,
    fun e => ⟨rfl, (h.exact_views e).2⟩⟩

theorem Queue.Inv.syncR {c : Config} {q : Queue} (h : q.Inv c) : q.syncR.Inv c :=
  ⟨h.wr_lt, h.rd_lt, h.wrSeen_lt, h.rd_lt, h.cell_wf, h.cell_lt, h.occC_le, Nat.le_refl _,
    fun e => ⟨(h.exact_views e).1, rfl⟩⟩

/-! ### The samples a queue holds (R180, R181) -/

theorem contents_pushed {c : Config} {q : Queue} (x : Half) (h : q.Inv c) (hf : q.fullP c.rbN = false) :
    (q.pushed c x).contents c.rbN = q.contents c.rbN ++ [x] := by
  rw [Queue.contents, occ_pushed x h hf, List.range_succ, List.map_append, List.map_singleton, Queue.contents]
  congr 1
  · apply List.map_congr_left
    intro j hj
    show (q.cell.write q.wr x).read _ = _
    rw [Memory.read_write _ _ _ _ h.cell_wf, if_neg]
    · rfl
    · exact add_mod_ne h.wr_lt h.rd_lt (List.mem_range.mp hj)
  · show [(q.cell.write q.wr x).read _] = _
    rw [Memory.read_write _ _ _ _ h.cell_wf, if_pos]
    exact add_distance_mod h.wr_lt h.rd_lt

theorem contents_popped {c : Config} {q : Queue} (h : q.Inv c) (he : q.emptyC = false) :
    q.contents c.rbN = q.cell.read q.rd :: (q.popped c).contents c.rbN := by
  rw [Queue.contents, ← occ_popped h he, List.range_succ_eq_map, List.map_cons, List.map_map, Queue.contents]
  congr 1
  · rw [Nat.add_zero, Nat.mod_eq_of_lt h.rd_lt]
  · apply List.map_congr_left
    intro j _
    show q.cell.read _ = q.cell.read _
    congr 1
    exact nextSlot_add_mod.symm

@[simp] theorem contents_syncW (n : Nat) (q : Queue) : q.syncW.contents n = q.contents n := rfl

@[simp] theorem contents_syncR (n : Nat) (q : Queue) : q.syncR.contents n = q.contents n := rfl

theorem contents_length (n : Nat) (q : Queue) : (q.contents n).length = q.occ n := by
  simp [Queue.contents]

end Sys2Proof.Machine
end

