-- ==== Sys2Proof/Laws/State.lean ====
section
/-! SUPPORT. One lemma per field for each update of the state, so that no later proof unfolds a record update. -/

namespace Sys2Proof.Machine

/-! ### setIo -/

@[simp] theorem setIo_cfg (s : State) (p : Port) (io : PortIo) : (s.setIo p io).cfg = s.cfg := by
  cases p <;> rfl
@[simp] theorem setIo_dds (s : State) (p : Port) (io : PortIo) : (s.setIo p io).dds = s.dds := by
  cases p <;> rfl
@[simp] theorem setIo_iir (s : State) (p : Port) (io : PortIo) : (s.setIo p io).iir = s.iir := by
  cases p <;> rfl
@[simp] theorem setIo_demod (s : State) (p : Port) (io : PortIo) : (s.setIo p io).demod = s.demod := by
  cases p <;> rfl
@[simp] theorem setIo_frame (s : State) (p : Port) (io : PortIo) : (s.setIo p io).frame = s.frame := by
  cases p <;> rfl
@[simp] theorem setIo_txq (s : State) (p : Port) (io : PortIo) : (s.setIo p io).txq = s.txq := by
  cases p <;> rfl
@[simp] theorem setIo_rxq (s : State) (p : Port) (io : PortIo) : (s.setIo p io).rxq = s.rxq := by
  cases p <;> rfl
@[simp] theorem setIo_blk (s : State) (p : Port) (io : PortIo) : (s.setIo p io).blk = s.blk := by
  cases p <;> rfl
@[simp] theorem setIo_active (s : State) (p : Port) (io : PortIo) : (s.setIo p io).active = s.active := by
  cases p <;> rfl
@[simp] theorem setIo_sched (s : State) (p : Port) (io : PortIo) : (s.setIo p io).sched = s.sched := by
  cases p <;> rfl
@[simp] theorem setIo_core_core (s : State) (io : PortIo) : (s.setIo .core io).core = io := rfl
@[simp] theorem setIo_core_xport (s : State) (io : PortIo) : (s.setIo .core io).xport = s.xport := rfl
@[simp] theorem setIo_xport_core (s : State) (io : PortIo) : (s.setIo .xport io).core = s.core := rfl
@[simp] theorem setIo_xport_xport (s : State) (io : PortIo) : (s.setIo .xport io).xport = io := rfl
@[simp] theorem setIo_io (s : State) (p : Port) (io : PortIo) : (s.setIo p io).io p = io := by
  cases p <;> rfl
theorem setIo_io_ne (s : State) (p r : Port) (io : PortIo) (h : r ≠ p) : (s.setIo p io).io r = s.io r := by
  cases p <;> cases r <;> first | rfl | exact absurd rfl h
@[simp] theorem io_core (s : State) : s.io .core = s.core := rfl
@[simp] theorem io_xport (s : State) : s.io .xport = s.xport := rfl

/-! ### reply -/

@[simp] theorem reply_cfg (s : State) (w : Word) : (s.reply w).cfg = s.cfg := by
  simp [State.reply]
@[simp] theorem reply_dds (s : State) (w : Word) : (s.reply w).dds = s.dds := by
  simp [State.reply]
@[simp] theorem reply_iir (s : State) (w : Word) : (s.reply w).iir = s.iir := by
  simp [State.reply]
@[simp] theorem reply_demod (s : State) (w : Word) : (s.reply w).demod = s.demod := by
  simp [State.reply]
@[simp] theorem reply_frame (s : State) (w : Word) : (s.reply w).frame = s.frame := by
  simp [State.reply]
@[simp] theorem reply_txq (s : State) (w : Word) : (s.reply w).txq = s.txq := by
  simp [State.reply]
@[simp] theorem reply_rxq (s : State) (w : Word) : (s.reply w).rxq = s.rxq := by
  simp [State.reply]
@[simp] theorem reply_blk (s : State) (w : Word) : (s.reply w).blk = s.blk := by
  simp [State.reply]
@[simp] theorem reply_active (s : State) (w : Word) : (s.reply w).active = s.active := by
  simp [State.reply]
@[simp] theorem reply_sched (s : State) (w : Word) : (s.reply w).sched = s.sched := by
  simp [State.reply]
@[simp] theorem reply_io_pending (s : State) (w : Word) (p : Port) :
    ((s.reply w).io p).pending = (s.io p).pending := by
  cases p <;> cases h : s.active <;> simp [State.reply, h]
@[simp] theorem reply_core_pending (s : State) (w : Word) : (s.reply w).core.pending = s.core.pending :=
  reply_io_pending s w .core
@[simp] theorem reply_xport_pending (s : State) (w : Word) : (s.reply w).xport.pending = s.xport.pending :=
  reply_io_pending s w .xport
@[simp] theorem reply_io_responses (s : State) (w : Word) (p : Port) :
    ((s.reply w).io p).responses = (s.io p).responses ++ (if s.active = p then [w] else []) := by
  cases p <;> cases h : s.active <;> simp [State.reply, h]
@[simp] theorem reply_core_responses (s : State) (w : Word) :
    (s.reply w).core.responses = s.core.responses ++ (if s.active = .core then [w] else []) :=
  reply_io_responses s w .core
@[simp] theorem reply_xport_responses (s : State) (w : Word) :
    (s.reply w).xport.responses = s.xport.responses ++ (if s.active = .xport then [w] else []) :=
  reply_io_responses s w .xport

/-! ### accept -/

@[simp] theorem accept_cfg (s : State) (p : Port) (rest : List Offer) : (s.accept p rest).cfg = s.cfg := by
  simp [State.accept]
@[simp] theorem accept_dds (s : State) (p : Port) (rest : List Offer) : (s.accept p rest).dds = s.dds := by
  simp [State.accept]
@[simp] theorem accept_iir (s : State) (p : Port) (rest : List Offer) : (s.accept p rest).iir = s.iir := by
  simp [State.accept]
@[simp] theorem accept_demod (s : State) (p : Port) (rest : List Offer) : (s.accept p rest).demod = s.demod := by
  simp [State.accept]
@[simp] theorem accept_frame (s : State) (p : Port) (rest : List Offer) : (s.accept p rest).frame = s.frame := by
  simp [State.accept]
@[simp] theorem accept_txq (s : State) (p : Port) (rest : List Offer) : (s.accept p rest).txq = s.txq := by
  simp [State.accept]
@[simp] theorem accept_rxq (s : State) (p : Port) (rest : List Offer) : (s.accept p rest).rxq = s.rxq := by
  simp [State.accept]
@[simp] theorem accept_blk (s : State) (p : Port) (rest : List Offer) : (s.accept p rest).blk = s.blk := by
  simp [State.accept]
@[simp] theorem accept_sched (s : State) (p : Port) (rest : List Offer) : (s.accept p rest).sched = s.sched := by
  simp [State.accept]
@[simp] theorem accept_active (s : State) (p : Port) (rest : List Offer) : (s.accept p rest).active = p := rfl
@[simp] theorem accept_io_responses (s : State) (p r : Port) (rest : List Offer) :
    ((s.accept p rest).io r).responses = (s.io r).responses := by
  cases p <;> cases r <;> rfl
@[simp] theorem accept_io_pending (s : State) (p : Port) (rest : List Offer) :
    ((s.accept p rest).io p).pending = rest := by
  cases p <;> rfl
theorem accept_io_ne (s : State) (p r : Port) (rest : List Offer) (h : r ≠ p) :
    (s.accept p rest).io r = s.io r := by
  cases p <;> cases r <;> first | rfl | exact absurd rfl h

/-! ### setQueue -/

@[simp] theorem setQueue_cfg (s : State) (k : QueueId) (q : Queue) : (s.setQueue k q).cfg = s.cfg := by
  cases k <;> rfl
@[simp] theorem setQueue_dds (s : State) (k : QueueId) (q : Queue) : (s.setQueue k q).dds = s.dds := by
  cases k <;> rfl
@[simp] theorem setQueue_iir (s : State) (k : QueueId) (q : Queue) : (s.setQueue k q).iir = s.iir := by
  cases k <;> rfl
@[simp] theorem setQueue_demod (s : State) (k : QueueId) (q : Queue) : (s.setQueue k q).demod = s.demod := by
  cases k <;> rfl
@[simp] theorem setQueue_frame (s : State) (k : QueueId) (q : Queue) : (s.setQueue k q).frame = s.frame := by
  cases k <;> rfl
@[simp] theorem setQueue_blk (s : State) (k : QueueId) (q : Queue) : (s.setQueue k q).blk = s.blk := by
  cases k <;> rfl
@[simp] theorem setQueue_core (s : State) (k : QueueId) (q : Queue) : (s.setQueue k q).core = s.core := by
  cases k <;> rfl
@[simp] theorem setQueue_xport (s : State) (k : QueueId) (q : Queue) : (s.setQueue k q).xport = s.xport := by
  cases k <;> rfl
@[simp] theorem setQueue_active (s : State) (k : QueueId) (q : Queue) : (s.setQueue k q).active = s.active := by
  cases k <;> rfl
@[simp] theorem setQueue_sched (s : State) (k : QueueId) (q : Queue) : (s.setQueue k q).sched = s.sched := by
  cases k <;> rfl
@[simp] theorem setQueue_txq_txq (s : State) (q : Queue) : (s.setQueue .txq q).txq = q := rfl
@[simp] theorem setQueue_txq_rxq (s : State) (q : Queue) : (s.setQueue .txq q).rxq = s.rxq := rfl
@[simp] theorem setQueue_rxq_txq (s : State) (q : Queue) : (s.setQueue .rxq q).txq = s.txq := rfl
@[simp] theorem setQueue_rxq_rxq (s : State) (q : Queue) : (s.setQueue .rxq q).rxq = q := rfl
@[simp] theorem setQueue_queue (s : State) (k : QueueId) (q : Queue) : (s.setQueue k q).queue k = q := by
  cases k <;> rfl
theorem setQueue_queue_ne (s : State) (k j : QueueId) (q : Queue) (h : j ≠ k) :
    (s.setQueue k q).queue j = s.queue j := by
  cases k <;> cases j <;> first | rfl | exact absurd rfl h
@[simp] theorem queue_txq (s : State) : s.queue .txq = s.txq := rfl
@[simp] theorem queue_rxq (s : State) : s.queue .rxq = s.rxq := rfl
@[simp] theorem setQueue_io (s : State) (k : QueueId) (q : Queue) (p : Port) : (s.setQueue k q).io p = s.io p := by
  cases k <;> cases p <;> rfl

/-! ### signalUnderrun -/

@[simp] theorem signalUnderrun_cfg (s : State) : (signalUnderrun s).cfg = s.cfg := rfl
@[simp] theorem signalUnderrun_dds (s : State) : (signalUnderrun s).dds = s.dds := rfl
@[simp] theorem signalUnderrun_iir (s : State) : (signalUnderrun s).iir = s.iir := rfl
@[simp] theorem signalUnderrun_demod (s : State) : (signalUnderrun s).demod = s.demod := rfl
@[simp] theorem signalUnderrun_frame (s : State) : (signalUnderrun s).frame = s.frame := rfl
@[simp] theorem signalUnderrun_txq (s : State) : (signalUnderrun s).txq = s.txq := rfl
@[simp] theorem signalUnderrun_rxq (s : State) : (signalUnderrun s).rxq = s.rxq := rfl
@[simp] theorem signalUnderrun_core (s : State) : (signalUnderrun s).core = s.core := rfl
@[simp] theorem signalUnderrun_xport (s : State) : (signalUnderrun s).xport = s.xport := rfl
@[simp] theorem signalUnderrun_active (s : State) : (signalUnderrun s).active = s.active := rfl
@[simp] theorem signalUnderrun_sched (s : State) : (signalUnderrun s).sched = s.sched := rfl
@[simp] theorem signalUnderrun_io (s : State) (p : Port) : (signalUnderrun s).io p = s.io p := by
  cases p <;> rfl

/-! ### signalOverrun -/

@[simp] theorem signalOverrun_cfg (s : State) : (signalOverrun s).cfg = s.cfg := rfl
@[simp] theorem signalOverrun_dds (s : State) : (signalOverrun s).dds = s.dds := rfl
@[simp] theorem signalOverrun_iir (s : State) : (signalOverrun s).iir = s.iir := rfl
@[simp] theorem signalOverrun_demod (s : State) : (signalOverrun s).demod = s.demod := rfl
@[simp] theorem signalOverrun_frame (s : State) : (signalOverrun s).frame = s.frame := rfl
@[simp] theorem signalOverrun_txq (s : State) : (signalOverrun s).txq = s.txq := rfl
@[simp] theorem signalOverrun_rxq (s : State) : (signalOverrun s).rxq = s.rxq := rfl
@[simp] theorem signalOverrun_core (s : State) : (signalOverrun s).core = s.core := rfl
@[simp] theorem signalOverrun_xport (s : State) : (signalOverrun s).xport = s.xport := rfl
@[simp] theorem signalOverrun_active (s : State) : (signalOverrun s).active = s.active := rfl
@[simp] theorem signalOverrun_sched (s : State) : (signalOverrun s).sched = s.sched := rfl
@[simp] theorem signalOverrun_io (s : State) (p : Port) : (signalOverrun s).io p = s.io p := by
  cases p <;> rfl

/-! ### withView -/

@[simp] theorem withView_cfg (s : State) (v : QueueView) : (s.withView v).cfg = s.cfg.withView v := rfl
@[simp] theorem withView_dds (s : State) (v : QueueView) : (s.withView v).dds = s.dds := rfl
@[simp] theorem withView_iir (s : State) (v : QueueView) : (s.withView v).iir = s.iir := rfl
@[simp] theorem withView_demod (s : State) (v : QueueView) : (s.withView v).demod = s.demod := rfl
@[simp] theorem withView_frame (s : State) (v : QueueView) : (s.withView v).frame = s.frame := rfl
@[simp] theorem withView_txq (s : State) (v : QueueView) : (s.withView v).txq = s.txq := rfl
@[simp] theorem withView_rxq (s : State) (v : QueueView) : (s.withView v).rxq = s.rxq := rfl
@[simp] theorem withView_blk (s : State) (v : QueueView) : (s.withView v).blk = s.blk := rfl
@[simp] theorem withView_core (s : State) (v : QueueView) : (s.withView v).core = s.core := rfl
@[simp] theorem withView_xport (s : State) (v : QueueView) : (s.withView v).xport = s.xport := rfl
@[simp] theorem withView_active (s : State) (v : QueueView) : (s.withView v).active = s.active := rfl
@[simp] theorem withView_sched (s : State) (v : QueueView) : (s.withView v).sched = s.sched := rfl
@[simp] theorem withView_io (s : State) (v : QueueView) (p : Port) : (s.withView v).io p = s.io p := by
  cases p <;> rfl
@[simp] theorem withView_rbN (c : Config) (v : QueueView) : (c.withView v).rbN = c.rbN := rfl
@[simp] theorem withView_queueView (c : Config) (v : QueueView) : (c.withView v).queueView = v := rfl

end Sys2Proof.Machine
end

