-- ==== Sys2Proof/Laws/Exec.lean ====
section
/-! SUPPORT. Everything a command can do, said once: `Effect` lists the ways a command completes, and `exec_effect`
says that these are all. -/

namespace Sys2Proof.Machine

/-- `Effect i s u st v d`: issued in `s`, the command `i` changes the units to those of `u` and answers STATUS `st`,
VALID `v` and RDATA `d`. -/
inductive Effect : Instr → State → State → Status → Bool → Half → Prop where
  | wrongPort (i : Instr) (s : State) (h : s.active ∉ i.ports) : Effect i s s .wrongPort false 0
  | ddsSetPhase (v : Half) (s : State) (h : s.active = .core) :
      Effect (.ddsSetPhase v) s { s with dds := { s.dds with phase := v } } .ok false 0
  | ddsSetInc (v : Half) (s : State) (h : s.active = .core) :
      Effect (.ddsSetInc v) s { s with dds := { s.dds with inc := v } } .ok false 0
  | ddsNext (s : State) (h : s.active = .core) :
      Effect .ddsNext s { s with dds := { s.dds with phase := nextPhase s.dds } } .ok false
        (wave s.cfg (nextPhase s.dds))
  | iirReset (s : State) (h : s.active = .core) : Effect .iirReset s { s with iir := { s1 := 0, s2 := 0 } } .ok false 0
  | iirProcess (x : Half) (s : State) (h : s.active = .core) :
      Effect (.iirProcess x) s { s with iir := (biquad s.cfg s.cfg.iirCoef s.iir (operandSample x)).2 } .ok false
        (pat16 (biquad s.cfg s.cfg.iirCoef s.iir (operandSample x)).1)
  | demodProcess (x : Half) (s : State) (h : s.active = .core) :
      Effect (.demodProcess x) s
        { s with demod := { d := pushDelay s.demod.d x, f := (demodFilter s.cfg s.demod x).2 } } .ok false
        (bitData (decision s.cfg (demodFilter s.cfg s.demod x).1))
  | frameProcess (b : Bool) (s : State) (h : s.active = .core) :
      Effect (.frameProcess b) s { s with frame := s.frame.process b } .ok s.frame.emits
        (if s.frame.emits then BitVec.zeroExtend 16 (s.frame.process b).out else 0)
  | txqPushFull (x : Half) (s : State) (h : s.active = .core) (hf : s.txq.fullP s.cfg.rbN = true) :
      Effect (.txqPush x) s s .full false 0
  | txqPushOk (x : Half) (s : State) (h : s.active = .core) (hf : s.txq.fullP s.cfg.rbN = false)
      (hw : s.txq.wr < s.cfg.rbN) : Effect (.txqPush x) s { s with txq := s.txq.pushed s.cfg x } .ok false 0
  | txqPopEmpty (s : State) (h : s.active = .xport) (he : s.txq.emptyC = true) :
      Effect .txqPop s (signalUnderrun s) .empty false 0
  | txqPopOk (s : State) (h : s.active = .xport) (he : s.txq.emptyC = false) (hr : s.txq.rd < s.cfg.rbN) :
      Effect .txqPop s { s with txq := s.txq.popped s.cfg } .ok false (s.txq.cell.read s.txq.rd)
  | txqIsEmpty (s : State) : Effect .txqIsEmpty s s .ok false (bitData (s.txqEmptyAt s.active))
  | txqIsFull (s : State) : Effect .txqIsFull s s .ok false (bitData (s.txqFullAt s.active))
  | rxqPushFull (x : Half) (s : State) (h : s.active = .xport) (hf : s.rxq.fullP s.cfg.rbN = true) :
      Effect (.rxqPush x) s (signalOverrun s) .full false 0
  | rxqPushOk (x : Half) (s : State) (h : s.active = .xport) (hf : s.rxq.fullP s.cfg.rbN = false)
      (hw : s.rxq.wr < s.cfg.rbN) : Effect (.rxqPush x) s { s with rxq := s.rxq.pushed s.cfg x } .ok false 0
  | rxqPopEmpty (s : State) (h : s.active = .core) (he : s.rxq.emptyC = true) : Effect .rxqPop s s .empty false 0
  | rxqPopOk (s : State) (h : s.active = .core) (he : s.rxq.emptyC = false) (hr : s.rxq.rd < s.cfg.rbN) :
      Effect .rxqPop s { s with rxq := s.rxq.popped s.cfg } .ok false (s.rxq.cell.read s.rxq.rd)
  | rxqIsEmpty (s : State) : Effect .rxqIsEmpty s s .ok false (bitData (s.rxqEmptyAt s.active))
  | rxqIsFull (s : State) : Effect .rxqIsFull s s .ok false (bitData (s.rxqFullAt s.active))
  | blkStatus (s : State) : Effect .blkStatus s s .ok false (s.statusData s.active)

theorem withRights_in {ps : List Port} {s : State} {r : Host.Outcome State Fault Refusal} (h : s.active ∈ ps) :
    withRights ps s r = r := if_pos h

theorem withRights_out {ps : List Port} {s : State} {r : Host.Outcome State Fault Refusal} (h : s.active ∉ ps) :
    withRights ps s r = raiseWrongPort s := if_neg h

theorem mem_both (p : Port) : p ∈ [Port.core, Port.xport] := by
  cases p <;> decide

/-- R88: on a port outside its set a command answers WRONG_PORT. -/
theorem exec_wrongPort {i : Instr} {s : State} (h : s.active ∉ i.ports) : exec i s = raiseWrongPort s := by
  cases i <;> exact withRights_out h

/-- The ways a command completes are all of these: what `Effect` lists, `exec` does. -/
theorem effect_exec {i : Instr} {s u : State} {st : Status} {v : Bool} {d : Half} (h : Effect i s u st v d) :
    exec i s = .next (u.reply (responseWord st v d)) := by
  cases h with
  | wrongPort _ _ h => exact exec_wrongPort h
  | txqPushFull x _ h hf =>
    refine (withRights_in (by simp [h, Instr.ports])).trans ?_
    simp only [pushCommand, queue_txq, push_full hf]
    rfl
  | txqPushOk x _ h hf hw =>
    refine (withRights_in (by simp [h, Instr.ports])).trans ?_
    simp only [pushCommand, queue_txq, push_ok hf hw]
    rfl
  | txqPopEmpty _ h he =>
    refine (withRights_in (by simp [h, Instr.ports])).trans ?_
    simp only [popCommand, queue_txq, pop_empty he]
    rfl
  | txqPopOk _ h he hr =>
    refine (withRights_in (by simp [h, Instr.ports])).trans ?_
    simp only [popCommand, queue_txq, pop_ok he hr]
    rfl
  | rxqPushFull x _ h hf =>
    refine (withRights_in (by simp [h, Instr.ports])).trans ?_
    simp only [pushCommand, queue_rxq, push_full hf]
    rfl
  | rxqPushOk x _ h hf hw =>
    refine (withRights_in (by simp [h, Instr.ports])).trans ?_
    simp only [pushCommand, queue_rxq, push_ok hf hw]
    rfl
  | rxqPopEmpty _ h he =>
    refine (withRights_in (by simp [h, Instr.ports])).trans ?_
    simp only [popCommand, queue_rxq, pop_empty he]
    rfl
  | rxqPopOk _ h he hr =>
    refine (withRights_in (by simp [h, Instr.ports])).trans ?_
    simp only [popCommand, queue_rxq, pop_ok he hr]
    rfl
  | txqIsEmpty => exact withRights_in (mem_both _)
  | txqIsFull => exact withRights_in (mem_both _)
  | rxqIsEmpty => exact withRights_in (mem_both _)
  | rxqIsFull => exact withRights_in (mem_both _)
  | blkStatus => exact withRights_in (mem_both _)
  | _ => exact withRights_in (by simp [*, Instr.ports])

/-- The cursors the queue commands use name cells that exist (R42). -/
def CursorsInRange (s : State) : Prop :=
  s.txq.wr < s.cfg.rbN ∧ s.txq.rd < s.cfg.rbN ∧ s.rxq.wr < s.cfg.rbN ∧ s.rxq.rd < s.cfg.rbN

/-- Every command either completes in one of the ways of `Effect` or faults at a cell that does not exist. -/
theorem effect_total (i : Instr) (s : State) :
    (∃ u st v d, Effect i s u st v d) ∨ (exec i s = .fault .noSuchCell ∧ ¬ CursorsInRange s) := by
  by_cases hp : s.active ∈ i.ports
  case neg => exact .inl ⟨_, _, _, _, .wrongPort i s hp⟩
  cases i
  case txqPush x =>
    have h : s.active = .core := by simpa [Instr.ports] using hp
    rcases push_cases s.cfg s.txq x with ⟨hf, -⟩ | ⟨hf, hw, -⟩ | ⟨-, hn, e⟩
    · exact .inl ⟨_, _, _, _, .txqPushFull x s h hf⟩
    · exact .inl ⟨_, _, _, _, .txqPushOk x s h hf hw⟩
    · refine .inr ⟨(withRights_in hp).trans ?_, fun h => hn h.1⟩
      simp only [pushCommand, queue_txq, e]
  case txqPop =>
    have h : s.active = .xport := by simpa [Instr.ports] using hp
    rcases pop_cases s.cfg s.txq with ⟨he, -⟩ | ⟨he, hr, -⟩ | ⟨-, hn, e⟩
    · exact .inl ⟨_, _, _, _, .txqPopEmpty s h he⟩
    · exact .inl ⟨_, _, _, _, .txqPopOk s h he hr⟩
    · refine .inr ⟨(withRights_in hp).trans ?_, fun h => hn h.2.1⟩
      simp only [popCommand, queue_txq, e]
  case rxqPush x =>
    have h : s.active = .xport := by simpa [Instr.ports] using hp
    rcases push_cases s.cfg s.rxq x with ⟨hf, -⟩ | ⟨hf, hw, -⟩ | ⟨-, hn, e⟩
    · exact .inl ⟨_, _, _, _, .rxqPushFull x s h hf⟩
    · exact .inl ⟨_, _, _, _, .rxqPushOk x s h hf hw⟩
    · refine .inr ⟨(withRights_in hp).trans ?_, fun h => hn h.2.2.1⟩
      simp only [pushCommand, queue_rxq, e]
  case rxqPop =>
    have h : s.active = .core := by simpa [Instr.ports] using hp
    rcases pop_cases s.cfg s.rxq with ⟨he, -⟩ | ⟨he, hr, -⟩ | ⟨-, hn, e⟩
    · exact .inl ⟨_, _, _, _, .rxqPopEmpty s h he⟩
    · exact .inl ⟨_, _, _, _, .rxqPopOk s h he hr⟩
    · refine .inr ⟨(withRights_in hp).trans ?_, fun h => hn h.2.2.2⟩
      simp only [popCommand, queue_rxq, e]
  case ddsSetPhase v => exact .inl ⟨_, _, _, _, .ddsSetPhase v s (by simpa [Instr.ports] using hp)⟩
  case ddsSetInc v => exact .inl ⟨_, _, _, _, .ddsSetInc v s (by simpa [Instr.ports] using hp)⟩
  case ddsNext => exact .inl ⟨_, _, _, _, .ddsNext s (by simpa [Instr.ports] using hp)⟩
  case iirReset => exact .inl ⟨_, _, _, _, .iirReset s (by simpa [Instr.ports] using hp)⟩
  case iirProcess x => exact .inl ⟨_, _, _, _, .iirProcess x s (by simpa [Instr.ports] using hp)⟩
  case demodProcess x => exact .inl ⟨_, _, _, _, .demodProcess x s (by simpa [Instr.ports] using hp)⟩
  case frameProcess b => exact .inl ⟨_, _, _, _, .frameProcess b s (by simpa [Instr.ports] using hp)⟩
  case txqIsEmpty => exact .inl ⟨_, _, _, _, .txqIsEmpty s⟩
  case txqIsFull => exact .inl ⟨_, _, _, _, .txqIsFull s⟩
  case rxqIsEmpty => exact .inl ⟨_, _, _, _, .rxqIsEmpty s⟩
  case rxqIsFull => exact .inl ⟨_, _, _, _, .rxqIsFull s⟩
  case blkStatus => exact .inl ⟨_, _, _, _, .blkStatus s⟩

/-- Everything a command that answers a next state did. -/
theorem exec_effect {i : Instr} {s t : State} (h : exec i s = .next t) :
    ∃ u st v d, Effect i s u st v d ∧ t = u.reply (responseWord st v d) := by
  rcases effect_total i s with ⟨u, st, v, d, e⟩ | e
  · rw [effect_exec e] at h
    exact ⟨u, st, v, d, e, (Host.Outcome.next.inj h).symm⟩
  · rw [e.1] at h
    cases h

/-- No command is refused. -/
theorem exec_ne_refused (i : Instr) (s : State) (r : Refusal) : exec i s ≠ .refused r := by
  rcases effect_total i s with ⟨u, st, v, d, e⟩ | e
  · rw [effect_exec e]
    exact fun h => by cases h
  · rw [e.1]
    exact fun h => by cases h

/-- What no command touches. -/
theorem effect_host {i : Instr} {s u : State} {st : Status} {v : Bool} {d : Half} (h : Effect i s u st v d) :
    u.cfg = s.cfg ∧ u.core = s.core ∧ u.xport = s.xport ∧ u.active = s.active ∧ u.sched = s.sched := by
  cases h <;> exact ⟨rfl, rfl, rfl, rfl, rfl⟩

/-- A command answers on its own port only, and exactly once (R66, R84). -/
theorem effect_answered {i : Instr} {s u : State} {st : Status} {v : Bool} {d : Half} (h : Effect i s u st v d) :
    Answered s (u.reply (responseWord st v d)) (responseWord st v d) := by
  obtain ⟨-, hc, hx, ha, hs⟩ := effect_host h
  refine ⟨?_, ?_, ?_, ?_, ?_, ?_⟩ <;> simp [ha, hs, hc, hx]

/-- With both cursors in range no command faults. -/
theorem effect_of_inv (i : Instr) {s : State} (h : s.Inv) : ∃ u st v d, Effect i s u st v d :=
  (effect_total i s).resolve_right fun e => e.2 ⟨h.txq.wr_lt, h.txq.rd_lt, h.rxq.wr_lt, h.rxq.rd_lt⟩

end Sys2Proof.Machine
end

