-- ==== Sys2Proof/Laws/PerInstr.lean ====
section
/-! SUPPORT. What holds of each command as syntax, one lemma per constructor: its word is admitted by a row of R82's
table that builds the command back from the word's DATA field and names the command's ports. -/

namespace Sys2Proof.Laws.OpcodeRow

open Sys2Proof

/-- A row of R82 admits the command's word, builds the command back and gives its port rights. -/
def Statement (i : Instr) : Prop :=
  ∃ r ∈ rows, r.admits (encode i) = true ∧ r.build (dataOf (encode i)) = i ∧ r.ports = i.ports

theorem half_row (n : Nat) (u o : BitVec 4) (x : Half) (i : Instr) (r : Row) (hr : rows[n]? = some r)
    (hm : r.mask = 0xFFFF0000#32) (hp : r.pattern = commandWord u o 0) (hb : r.build x = i)
    (hports : r.ports = i.ports) (he : encode i = commandWord u o x) : Statement i := by
  have hx := x.isLt
  refine ⟨r, List.mem_of_getElem? hr, ?_, ?_, hports⟩
  · rw [Row.admits, hm, hp, he, admits_half _ _ (by rw [commandWord_toNat]; simp; omega), decide_eq_true_iff,
      commandWord_toNat, commandWord_toNat]
    simp
    omega
  · have : dataOf (encode i) = x := by
      apply BitVec.eq_of_toNat_eq
      rw [dataOf_toNat, he, commandWord_toNat]
      omega
    rw [this, hb]

theorem ddsSetPhase (v : Half) : Statement (.ddsSetPhase v) := half_row 0 1 0 v _ _ rfl rfl (by decide) rfl rfl rfl

theorem ddsSetInc (v : Half) : Statement (.ddsSetInc v) := half_row 1 1 1 v _ _ rfl rfl (by decide) rfl rfl rfl

theorem ddsNext : Statement .ddsNext := ⟨rows[2], by simp [rows], by decide, rfl, rfl⟩

theorem iirReset : Statement .iirReset := ⟨rows[3], by simp [rows], by decide, rfl, rfl⟩

theorem iirProcess (x : Half) : Statement (.iirProcess x) := half_row 4 2 1 x _ _ rfl rfl (by decide) rfl rfl rfl

theorem demodProcess (x : Half) : Statement (.demodProcess x) := half_row 5 3 0 x _ _ rfl rfl (by decide) rfl rfl rfl

theorem frameProcess (b : Bool) : Statement (.frameProcess b) := by
  cases b <;> exact ⟨rows[6], by simp [rows], by decide, by decide, rfl⟩

theorem txqPush (x : Half) : Statement (.txqPush x) := half_row 7 5 0 x _ _ rfl rfl (by decide) rfl rfl rfl

theorem txqPop : Statement .txqPop := ⟨rows[8], by simp [rows], by decide, rfl, rfl⟩

theorem txqIsEmpty : Statement .txqIsEmpty := ⟨rows[9], by simp [rows], by decide, rfl, rfl⟩

theorem txqIsFull : Statement .txqIsFull := ⟨rows[10], by simp [rows], by decide, rfl, rfl⟩

theorem rxqPush (x : Half) : Statement (.rxqPush x) := half_row 11 6 0 x _ _ rfl rfl (by decide) rfl rfl rfl

theorem rxqPop : Statement .rxqPop := ⟨rows[12], by simp [rows], by decide, rfl, rfl⟩

theorem rxqIsEmpty : Statement .rxqIsEmpty := ⟨rows[13], by simp [rows], by decide, rfl, rfl⟩

theorem rxqIsFull : Statement .rxqIsFull := ⟨rows[14], by simp [rows], by decide, rfl, rfl⟩

theorem blkStatus : Statement .blkStatus := ⟨rows[15], by simp [rows], by decide, rfl, rfl⟩

end Sys2Proof.Laws.OpcodeRow
end

