-- ==== Sys2Proof/Laws/Step.lean ====
section
/-! SUPPORT. What one step of each agent does, and how a step of the machine is a step of the scheduled agent. -/

namespace Sys2Proof.Machine

theorem portStep_nil {p : Port} {s : State} (h : (s.io p).pending = []) : portStep p s = .next s := by
  rw [portStep, h]

theorem portStep_early {p : Port} {s : State} {c : Offer} {rest : List Offer} (h : (s.io p).pending = c :: rest)
    (he : c.early = true) : portStep p s = .refused .overlappingCommands := by
  rw [portStep, h]
  exact if_pos he

theorem portStep_command {p : Port} {s : State} {c : Offer} {rest : List Offer} (h : (s.io p).pending = c :: rest)
    (he : c.early = false) : portStep p s = execute c.word (s.accept p rest) := by
  rw [portStep, h]
  exact if_neg (by simp [he])

theorem execute_illegal {w : Word} {s : State} (h : decode w = none) : execute w s = raiseIllegal s := by
  rw [execute, h]

theorem execute_command {w : Word} {s : State} {i : Instr} (h : decode w = some i) : execute w s = exec i s := by
  rw [execute, h]

/-- Everything a port agent's step that answers a next state did: nothing to do, an ILLEGAL word, or a command. -/
theorem portStep_next {p : Port} {s t : State} (h : portStep p s = .next t) :
    ((s.io p).pending = [] ∧ t = s) ∨
    ∃ c rest, (s.io p).pending = c :: rest ∧ c.early = false ∧
      ((decode c.word = none ∧ t = (s.accept p rest).reply (responseWord .illegal false 0)) ∨
        ∃ i u st v d, decode c.word = some i ∧ Effect i (s.accept p rest) u st v d ∧
          t = u.reply (responseWord st v d)) := by
  cases hp : (s.io p).pending with
  | nil =>
    rw [portStep_nil hp] at h
    exact .inl ⟨rfl, (Host.Outcome.next.inj h).symm⟩
  | cons c rest =>
    cases he : c.early
    · rw [portStep_command hp he] at h
      refine .inr ⟨c, rest, rfl, he, ?_⟩
      cases hd : decode c.word with
      | none =>
        rw [execute_illegal hd] at h
        exact .inl ⟨rfl, (Host.Outcome.next.inj h).symm⟩
      | some i =>
        rw [execute_command hd] at h
        obtain ⟨u, st, v, d, e, ht⟩ := exec_effect h
        exact .inr ⟨i, u, st, v, d, rfl, e, ht⟩
    · rw [portStep_early hp he] at h
      cases h

theorem step_nil {s : State} (h : s.sched = []) : step s = .next s := by
  rw [step, h]

theorem step_agent {s : State} {a : Agent} {rest : List Agent} (h : s.sched = a :: rest) :
    step s = agentStep a { s with sched := rest } := by
  rw [step, h]

theorem agentStep_sync_immediate {a : Agent} {s : State} (ha : a ∈ syncAgents) (h : s.cfg.queueView = .immediate) :
    agentStep a s = .next s := by
  simp only [syncAgents, List.mem_cons, List.not_mem_nil, or_false] at ha
  rcases ha with rfl | rfl | rfl | rfl | rfl <;> simp [agentStep, syncStep, h]

theorem agentStep_syncW {s : State} (k : QueueId) (h : s.cfg.queueView = .lagged) :
    agentStep (.syncW k) s = .next (s.setQueue k (s.queue k).syncW) := by
  simp [agentStep, syncStep, h]

theorem agentStep_syncR {s : State} (k : QueueId) (h : s.cfg.queueView = .lagged) :
    agentStep (.syncR k) s = .next (s.setQueue k (s.queue k).syncR) := by
  simp [agentStep, syncStep, h]

theorem agentStep_syncF {s : State} (h : s.cfg.queueView = .lagged) :
    agentStep .syncF s = .next { s with blk := s.blk.syncF } := by
  simp [agentStep, syncStep, h]

end Sys2Proof.Machine
end

