-- ==== Sys2Proof/Laws/Units.lean ====
section
/-! SUPPORT. The delay line, the decision and the framing decoder, entry by entry and bit by bit (spec/42_fsk_demod.md
R130 to R132, spec/43_framing.md R140 to R147), and the filter against the plain arithmetic of Safety.lean. -/

namespace Sys2Proof.Machine

theorem pushDelay_zero (d : Vector Half demodDepth) (x : Half) : (pushDelay d x)[0]? = some x := by
  simp [pushDelay]

theorem pushDelay_succ (d : Vector Half demodDepth) (x : Half) (k : Nat) (h : k < 21) :
    (pushDelay d x)[k + 1]? = d[k]? := by
  simp [pushDelay, show k + 1 < demodDepth by simp [demodDepth]; omega, show k < demodDepth by simp [demodDepth]; omega]

theorem partner_eq (c : Config) (d : Vector Half demodDepth) : d[c.demodLag - 1]? = some (partner c d) := by
  rw [partner, Vector.getElem?_eq_getElem (lag_lt c)]

theorem accWith_getLsbD (acc : Byte) (i j : Nat) (b : Bool) (hi : i < 8) (hj : j < 8) :
    (accWith acc i b).getLsbD j = if j = i then b else acc.getLsbD j := by
  have all : ∀ (i j : Fin 8) (b : Bool),
      ((~~~BitVec.ofNat 8 (2 ^ i.val)).getLsbD j.val = decide (j ≠ i)) ∧
      ((BitVec.ofNat 8 (operandBit b * 2 ^ i.val)).getLsbD j.val = (decide (j = i) && b)) := by decide
  obtain ⟨h1, h2⟩ := all ⟨i, hi⟩ ⟨j, hj⟩ b
  rw [accWith, BitVec.getLsbD_or, BitVec.getLsbD_and, h1, h2]
  simp only [Fin.mk.injEq, ne_eq]
  by_cases h : j = i <;> simp [h]

theorem ovf_eq_ovfSpec (c : Config) (v : Int) : ovf c v = ovfSpec c v := by
  unfold ovf ovfSpec
  split <;> simp only [*, wrap32_eq_bmod, sat32_eq_clamp]

theorem quantShift_eq_roundSpec (c : Config) (acc : Int) : quantShift c acc = roundSpec c acc := by
  unfold quantShift roundSpec asr
  by_cases h : c.iirF = 0
  · simp [h]
  · rw [if_neg h]
    cases hr : c.iirRound
    · simp
    · simp [show 1 ≤ c.iirF by omega]

theorem quant_eq_quantSpec (c : Config) (acc : Int) : quant c acc = quantSpec c acc := by
  unfold quant quantSpec
  split <;> simp only [*, wrap16_eq_bmod, sat16_eq_clamp, quantShift_eq_roundSpec]

theorem biquad_fst (c : Config) (k : Coef) (st : Biquad) (x : Int) : (biquad c k st x).1 = outputSpec c k st x := by
  simp only [biquad, biquadOut, outputSpec, quant_eq_quantSpec, ovf_eq_ovfSpec, int16_eq_toInt, int32_eq_toInt]

theorem biquad_snd (c : Config) (k : Coef) (st : Biquad) (x : Int) :
    FilterStepped c k st x (outputSpec c k st x) (biquad c k st x).2 := by
  rw [← biquad_fst]
  constructor
  · rw [← int32_eq_toInt]
    simp only [biquad, biquadState, int32_pat32_ovf]
    simp only [ovf_eq_ovfSpec, int16_eq_toInt, int32_eq_toInt]
  · rw [← int32_eq_toInt]
    simp only [biquad, biquadState, int32_pat32_ovf]
    simp only [ovf_eq_ovfSpec, int16_eq_toInt]

theorem scale_eq_scaleSpec (p : Int) : scale p = scaleSpec p := by
  rw [scale, scaleSpec, sat16_eq_clamp, asr]
  norm_num [demodShift]

theorem decision_toNat (c : Config) (y : Int) : (bitData (decision c y)).toNat = decideSpec c y := by
  unfold decision decideSpec bitData
  rw [int16_eq_toInt]
  cases c.demodPol <;> by_cases h : BitVec.toInt c.demodThresh < y <;> simp [h]

end Sys2Proof.Machine
end

