-- ==== Sys2Proof/Tests/Slice0.lean ====
section
/-! SUPPORT. The model's own tests. Expected values come from spec/95_test_vectors.md (the vector is named) or from the
rule named, never from the model. `witness_X` shows that the hypotheses of `Obligations.X` can be met. -/

namespace Sys2Proof.Tests

open Sys2Proof Sys2Proof.Machine

/-! ### Helpers -/

/-- CFG-T of spec/95_test_vectors.md section 0. -/
def paramsT : Params where
  ddsTb := 2
  ddsWave := [100, 200, 300, 400]
  iirF := 14
  iirCoef := ⟨16384, 0, 0, 0, 0⟩
  iirRound := .floor
  iirOut := .sat
  iirStateOvf := .wrap
  demodLag := 21
  demodThresh := 0
  demodPol := .gtIsOne
  demodCoef := ⟨16384, 0, 0, 0, 0⟩
  rbN := 8
  txqInitWr := 4
  txqInitRd := 0
  rxqInitWr := 0
  rxqInitRd := 0
  queueView := .lagged

def cfgT : Config := ⟨paramsT, by decide⟩

/-- The reset state under CFG-T, CORE active. -/
def atCore : State := State.resetWith cfgT

/-- The same with XPORT active. -/
def atXport : State := { atCore with active := .xport }

/-- The same under IMMEDIATE. -/
def now (s : State) : State := s.withView .immediate

/-- A CORE state under CFG-T with other coefficients and delay registers of the shaper. -/
def atIir (k : Coef) (s1 s2 : Wide) : State :=
  { State.resetWith ⟨{ paramsT with iirCoef := k }, by exact cfgT.legal⟩ with iir := ⟨s1, s2⟩ }

/-- A CORE state under CFG-T whose delay line holds `v` at entry 20 only. -/
def atDemod (v : Half) : State :=
  { atCore with demod := ⟨(Vector.replicate demodDepth 0).set 20 v (by decide), ⟨0, 0⟩⟩ }

/-- A CORE state with this framing decoder. -/
def atFrame (f : Frame) : State := { atCore with frame := f }

/-- The cursors of the queues: `wr rd wrSeen rdSeen`, as spec/95_test_vectors.md writes them. -/
def withTxq (s : State) (wr rd wrSeen rdSeen : Nat) : State := { s with txq := ⟨⟨[]⟩, wr, rd, rdSeen, wrSeen⟩ }

def withRxq (s : State) (wr rd wrSeen rdSeen : Nat) : State := { s with rxq := ⟨⟨[]⟩, wr, rd, rdSeen, wrSeen⟩ }

/-- The state with command words given on a port, and that port scheduled for each. -/
def give (s : State) (p : Port) (ws : List Word) : State :=
  { s.setIo p ⟨ws.map fun w => ⟨w, false⟩, []⟩ with sched := ws.map fun _ => .port p }

/-- The outcome is a next state that passes the check. -/
def next? (o : Host.Outcome State Fault Refusal) (check : State → Bool) : Bool :=
  match o with
  | .next t => check t
  | _ => false

/-- The command completes on the active port with this response word, in a state that passes the check. -/
def answers (i : Instr) (s : State) (w : Word) (check : State → Bool) : Bool :=
  next? (exec i s) fun t => (t.io s.active).responses == [w] && check t

/-- A port's step on this word answers this response word. -/
def portAnswers (s : State) (p : Port) (w r : Word) : Bool :=
  next? (agentStep (.port p) (give s p [w])) fun t => (t.io p).responses == [r]

def cursors (q : Queue) : Nat × Nat × Nat × Nat := (q.wr, q.rd, q.wrSeen, q.rdSeen)

theorem queue_inv {c : Config} {q : Queue}
    (h : (q.wr < c.rbN ∧ q.rd < c.rbN ∧ q.wrSeen < c.rbN ∧ q.rdSeen < c.rbN ∧ q.cell.cells = []) ∧
      (q.occC c.rbN ≤ q.occ c.rbN ∧ q.occ c.rbN ≤ q.occP c.rbN) ∧
      (c.queueView = .immediate → q.wrSeen = q.wr ∧ q.rdSeen = q.rd)) : q.Inv c := by
  obtain ⟨⟨h1, h2, h3, h4, h5⟩, ⟨h6, h7⟩, h8⟩ := h
  have wf : q.cell.wf = true := by simp [Memory.wf, h5]
  exact ⟨h1, h2, h3, h4, wf, by simp [h5], h6, h7, h8⟩

theorem core_inv : atCore.Inv :=
  ⟨queue_inv (by decide), queue_inv (by decide), ⟨by decide, by decide, by decide⟩, by decide⟩

theorem now_inv : (now atCore).Inv :=
  ⟨queue_inv (by decide), queue_inv (by decide), ⟨by decide, by decide, by decide⟩, by decide⟩

/-! ### Decoding: words written out from the fields of R80 and the rows of R82, or the rule's own example -/

/-- UNIT 1 OP 0 RSV 00 DATA 4000, R100's example. -/
theorem test_decode_ddsSetPhase : decode 0x10004000 = some (.ddsSetPhase 0x4000) := by decide
/-- UNIT 1 OP 1 RSV 00 DATA 0444, R101's example: 1092. -/
theorem test_decode_ddsSetInc : decode 0x11000444 = some (.ddsSetInc 1092) := by decide
/-- UNIT 1 OP 2. -/
theorem test_decode_ddsNext : decode 0x12000000 = some .ddsNext := by decide
/-- UNIT 2 OP 0. -/
theorem test_decode_iirReset : decode 0x20000000 = some .iirReset := by decide
/-- UNIT 2 OP 1 DATA 03E8, R114's example: 1000. -/
theorem test_decode_iirProcess : decode 0x210003E8 = some (.iirProcess 1000) := by decide
/-- UNIT 3 OP 0 DATA 4000, R130's example: 16384. -/
theorem test_decode_demodProcess : decode 0x30004000 = some (.demodProcess 16384) := by decide
/-- UNIT 4 OP 0 DATA 0001 and DATA 0000, R141's example. -/
theorem test_decode_frameProcess :
    decode 0x40000001 = some (.frameProcess true) ∧ decode 0x40000000 = some (.frameProcess false) := by decide
/-- UNIT 5 OP 0 DATA 03E8, R170's example: 1000. -/
theorem test_decode_txqPush : decode 0x500003E8 = some (.txqPush 1000) := by decide
/-- UNIT 5 OP 1. -/
theorem test_decode_txqPop : decode 0x51000000 = some .txqPop := by decide
/-- UNIT 5 OP 2. -/
theorem test_decode_txqIsEmpty : decode 0x52000000 = some .txqIsEmpty := by decide
/-- UNIT 5 OP 3. -/
theorem test_decode_txqIsFull : decode 0x53000000 = some .txqIsFull := by decide
/-- UNIT 6 OP 0 DATA FFFB, R174's example: -5. -/
theorem test_decode_rxqPush : decode 0x6000FFFB = some (.rxqPush (BitVec.ofInt 16 (-5))) := by decide
/-- UNIT 6 OP 1. -/
theorem test_decode_rxqPop : decode 0x61000000 = some .rxqPop := by decide
/-- UNIT 6 OP 2. -/
theorem test_decode_rxqIsEmpty : decode 0x62000000 = some .rxqIsEmpty := by decide
/-- UNIT 6 OP 3. -/
theorem test_decode_rxqIsFull : decode 0x63000000 = some .rxqIsFull := by decide
/-- UNIT 7 OP 0. -/
theorem test_decode_blkStatus : decode 0x70000000 = some .blkStatus := by decide

/-- The word encodes no command, for this reason. -/
def illegal (w : Word) (r : IllegalReason) : Bool := decode w == none && illegalReason w == some r

/-- V-L2-DEC-1, UNIT. -/
theorem test_illegal_unit :
    illegal 0x00000000 .reservedUnit = true ∧ illegal 0x00FFFFFF .reservedUnit = true ∧
    illegal 0x80000000 .reservedUnit = true ∧ illegal 0xF0000000 .reservedUnit = true ∧
    illegal 0xFFFFFFFF .reservedUnit = true := by decide

/-- V-L2-DEC-1, OP. -/
theorem test_illegal_op :
    illegal 0x13000000 .unlistedOp = true ∧ illegal 0x22000000 .unlistedOp = true ∧
    illegal 0x31000000 .unlistedOp = true ∧ illegal 0x41000000 .unlistedOp = true ∧
    illegal 0x54000000 .unlistedOp = true ∧ illegal 0x64000000 .unlistedOp = true ∧
    illegal 0x71000000 .unlistedOp = true := by decide

/-- V-L2-DEC-1, RSV and DATA. -/
theorem test_illegal_data :
    illegal 0x10010000 .reservedBits = true ∧ illegal 0x21800000 .reservedBits = true ∧
    illegal 0x12000001 .dataNotZero = true ∧ illegal 0x51000001 .dataNotZero = true ∧
    illegal 0x70000001 .dataNotZero = true ∧ illegal 0x40000002 .dataNotBit = true ∧
    illegal 0x4000FFFF .dataNotBit = true := by decide

/-- The opcode table gives every row 32 bits (R91). -/
theorem test_decodeTableWord :
    decodeTableWord 32 0x61000000 = some .rxqPop ∧ decodeTableWord 32 0 = none := by decide

/-! ### What is not well formed is refused -/

theorem test_wf_config : Config.ofParams paramsT = some cfgT := by decide
theorem test_wf_ddsTb_low : Config.ofParams { paramsT with ddsTb := 0, ddsWave := [7] } = none := by decide
theorem test_wf_ddsTb_high (p : Params) (h : p.ddsTb = 17) : Config.ofParams p = none :=
  dif_neg fun hl => by
    have := hl.1.2
    omega
theorem test_wf_ddsWave : Config.ofParams { paramsT with ddsWave := [100, 200, 300] } = none := by decide
theorem test_wf_iirF : Config.ofParams { paramsT with iirF := 16 } = none := by decide
theorem test_wf_demodLag_low : Config.ofParams { paramsT with demodLag := 0 } = none := by decide
theorem test_wf_demodLag_high : Config.ofParams { paramsT with demodLag := 23 } = none := by decide
theorem test_wf_rbN_low :
    Config.ofParams { paramsT with rbN := 1, txqInitWr := 0 } = none := by decide
theorem test_wf_rbN_high : Config.ofParams { paramsT with rbN := 65537 } = none := by decide
theorem test_wf_txqInitWr : Config.ofParams { paramsT with txqInitWr := 8 } = none := by decide
theorem test_wf_txqInitRd : Config.ofParams { paramsT with txqInitRd := 8 } = none := by decide
theorem test_wf_rxqInitWr : Config.ofParams { paramsT with rxqInitWr := 8 } = none := by decide
theorem test_wf_rxqInitRd : Config.ofParams { paramsT with rxqInitRd := 8 } = none := by decide

/-- R92: operands missing, superfluous or out of range, and a raw word of more than 32 bits. -/
theorem test_wf_assembler :
    ∀ l ∈ [AsmLine.command .ddsSetPhase .absent, .command .ddsSetPhase (.dec (-1)), .command .ddsSetInc (.dec 65536),
        .command .iirProcess .absent, .command .demodProcess (.dec 32768), .command .txqPush (.dec (-32769)),
        .command .rxqPush (.hex 0x10000), .command .frameProcess (.dec 2), .command .frameProcess .absent,
        .command .ddsNext (.dec 0), .command .blkStatus (.hex 0), .word (2 ^ 32)],
      l.wf = false ∧ assemble l = none := by decide

/-- R92, R174: `rxq.push -5` is 0x6000FFFB, and a reserved word can be written down. -/
theorem test_assembler_takes :
    assemble (.command .rxqPush (.dec (-5))) = some 0x6000FFFB ∧ assemble (.word 0x12000001) = some 0x12000001 := by
  decide

/-! ### Command words and ports -/

/-- A row and a word it matches (R100's example). -/
theorem witness_IllegalExactlyInTheFiveCases :
    ∃ r ∈ rows, (0x10004000 : Word) &&& r.mask = r.pattern := by decide

/-- Each form of operand at its bounds, both sides. -/
theorem witness_AssemblerRefusesOperandsOutOfRange :
    let line := fun (m : Mnemonic) (o : Operand) => assemble (.command m o)
    line .ddsSetPhase (.dec 65535) = some 0x1000FFFF ∧ line .ddsSetPhase (.dec 65536) = none ∧
    line .ddsSetInc (.dec (-1)) = none ∧ line .ddsSetInc (.hex 0x10000) = none ∧
    line .iirProcess (.dec (-32768)) = some 0x21008000 ∧ line .demodProcess (.dec 32767) = some 0x30007FFF ∧
    line .txqPush (.dec (-32769)) = none ∧ line .rxqPush (.dec 32768) = none ∧
    line .rxqPush (.hex 0xFFFF) = some 0x6000FFFF ∧ line .iirProcess (.hex 0x10000) = none ∧
    line .frameProcess (.dec 1) = some 0x40000001 ∧ line .frameProcess (.dec 2) = none ∧
    line .frameProcess (.hex 1) = none ∧ line .rxqIsFull .absent = some 0x63000000 ∧ line .rxqIsFull (.dec 0) = none :=
  by decide

theorem witness_StepRunsTheDecodedCommand :
    (give atCore .core [0x12000000]).sched = [.port .core] ∧
    ((give atCore .core [0x12000000]).io .core).pending = [⟨0x12000000, false⟩] ∧
    decode 0x12000000 = some .ddsNext := by decide

/-- V-L2-DEC-1: 0x12000001 on XPORT answers ILLEGAL. -/
theorem witness_IllegalWordAnswersIllegal :
    (give atCore .xport [0x12000001]).sched = [.port .xport] ∧
    ((give atCore .xport [0x12000001]).io .xport).pending = [⟨0x12000001, false⟩] ∧ decode 0x12000001 = none ∧
    next? (step (give atCore .xport [0x12000001])) (fun t => t.xport.responses == [0x30000000]) = true := by decide

/-- V-L2-DEC-2: the wrong-port table. -/
theorem witness_WrongPortAnswersWrongPort :
    atXport.active ∉ Instr.ports .ddsNext ∧ atCore.active ∉ Instr.ports .txqPop ∧
    portAnswers atCore .core 0x51000000 0x40000000 = true ∧ portAnswers atCore .xport 0x50000001 0x40000000 = true ∧
    portAnswers atCore .core 0x60000001 0x40000000 = true ∧ portAnswers atCore .xport 0x61000000 0x40000000 = true ∧
    portAnswers atCore .xport 0x12000000 0x40000000 = true := by decide

/-- Each clause: ILLEGAL, WRONG_PORT, FULL (R173's cursors), EMPTY and OK. -/
theorem witness_FirstFailingCheckIsReported :
    portAnswers atCore .core 0xFFFFFFFF 0x30000000 = true ∧ portAnswers atCore .core 0x51000000 0x40000000 = true ∧
    portAnswers (withTxq atCore 7 0 7 0) .core 0x50000001 0x10000000 = true ∧
    portAnswers atCore .core 0x61000000 0x20000000 = true ∧ portAnswers atCore .core 0x12000000 0x00000064 = true := by
  decide

/-- V-L1-5, the 10th call: the one response with VALID = 1. -/
theorem witness_OneWellFormedResponsePerCommand :
    portAnswers (atFrame ⟨.stop, 0x41, 0, false⟩) .core 0x40000001 0x00010041 = true := by decide

/-- R239, I16. -/
theorem witness_OverlappingCommandIsRefused :
    let s : State := { atCore with core := ⟨[⟨0x12000000, true⟩], []⟩, sched := [.port .core] }
    s.sched = [.port .core] ∧ (s.io .core).pending = [⟨0x12000000, true⟩] ∧
    (match step s with | .refused r => r == .overlappingCommands | _ => false) = true := by decide

/-! ### DDS -/

/-- R100's example; the field UNIT 1, OP 0 of LegalData is met by its word, and on XPORT the command is refused. -/
theorem witness_SetPhaseWritesThePhaseOnly :
    atCore.active = .core ∧ atXport.active = .xport ∧
    (0x10004000 : Word).toNat / 2 ^ 28 = 1 ∧ (0x10004000 : Word).toNat / 2 ^ 24 % 16 = 0 ∧
    answers (.ddsSetPhase 0x4000) atCore 0 (fun t => t.dds == ⟨0x4000, 0⟩) = true ∧
    answers (.ddsSetPhase 0x4000) atXport 0x40000000 (fun t => t.dds == ⟨0, 0⟩) = true := by decide

/-- V-L2-DDS-1 steps 7 and 8. -/
theorem witness_SetIncWritesTheIncrementOnly :
    (0x11000001 : Word).toNat / 2 ^ 28 = 1 ∧ (0x11000001 : Word).toNat / 2 ^ 24 % 16 = 1 ∧
    answers (.ddsSetInc 1) { atCore with dds := ⟨0xFFFF, 0x4000⟩ } 0 (fun t => t.dds == ⟨0xFFFF, 1⟩) = true ∧
    answers (.ddsSetInc 1) atXport 0x40000000 (fun t => t.dds == ⟨0, 0⟩) = true := by decide

/-- V-L2-DDS-1 steps 3 and 9: the phase advances first, and wraps. -/
theorem witness_NextAdvancesThenMaps :
    (0x12000000 : Word).toNat / 2 ^ 28 = 1 ∧ (0x12000000 : Word).toNat / 2 ^ 24 % 16 = 2 ∧
    answers .ddsNext { atCore with dds := ⟨0, 0x4000⟩ } 0x000000C8 (fun t => t.dds == ⟨0x4000, 0x4000⟩) = true ∧
    answers .ddsNext { atCore with dds := ⟨0xFFFF, 1⟩ } 0x00000064 (fun t => t.dds == ⟨0, 1⟩) = true := by decide

/-- V-L1-3 and V-L1-4: the operands of the last two clauses. -/
theorem witness_NextSequenceIsPeriodic :
    atCore.active = .core ∧ (0 : Half).toNat = 0 ∧ (0x8000 : Half).toNat = 2 ^ 15 ∧
    answers .ddsNext { atCore with dds := ⟨0, 0x8000⟩ } 0x0000012C (fun t => t.dds == ⟨0x8000, 0x8000⟩) = true := by
  decide

/-! ### IIR -/

/-- V-L2-IIR-12. -/
theorem witness_IirResetClearsTheShaperOnly :
    (0x20000000 : Word).toNat / 2 ^ 28 = 2 ∧ (0x20000000 : Word).toNat / 2 ^ 24 % 16 = 0 ∧
    answers .iirReset (atIir ⟨16384, 0, 0, 0, 0⟩ 5000 (-3)) 0 (fun t => t.iir == ⟨0, 0⟩) = true ∧
    answers .iirReset atXport 0x40000000 (fun t => t.iir == ⟨0, 0⟩) = true := by decide

/-- V-L2-IIR-2, call 2 (the feedback), and V-L2-IIR-10, call 2 (the accumulator wraps). -/
theorem witness_IirProcessStepsTheShaper :
    (0x210003E8 : Word).toNat / 2 ^ 28 = 2 ∧ (0x210003E8 : Word).toNat / 2 ^ 24 % 16 = 1 ∧
    answers (.iirProcess 100) (atIir ⟨16384, 0, 0, -8192, 0⟩ 819200 0) 150
      (fun t => t.iir == ⟨1228800, 0⟩) = true ∧
    answers (.iirProcess 0x8000) (atIir ⟨0x8000, 0x8000, 0, 0, 0⟩ 0x40000000 0) 0x00008000
      (fun t => t.iir == ⟨0x40000000, 0⟩) = true := by decide

/-- V-L2-IIR-4: NEAREST rounds half up, on both inputs. -/
theorem test_iir_nearest :
    quant ⟨{ paramsT with iirRound := .nearest }, by decide⟩ (8192 * -1) = 0 ∧
    quant ⟨{ paramsT with iirRound := .nearest }, by decide⟩ (8192 * -3) = -1 := by decide

/-- Two states that differ in the DDS only. -/
theorem witness_FilterOutputsAreDeterminedByTheirInstance :
    let s' : State := { atCore with dds := ⟨1, 2⟩ }
    atCore.active = .core ∧ s'.active = .core ∧ atCore.cfg = s'.cfg ∧ atCore.iir = s'.iir ∧ atCore.demod = s'.demod ∧
    next? (exec (.iirProcess 5) atCore) (fun _ => true) = true ∧
    next? (exec (.demodProcess 5) atCore) (fun _ => true) = true := by decide

/-! ### FSK demodulator -/

/-- V-L2-DEM-1, with the push, and V-L2-DEM-4: floor. -/
theorem witness_DemodProcessCorrelatesFiltersDecides :
    (0x30004000 : Word).toNat / 2 ^ 28 = 3 ∧ (0x30004000 : Word).toNat / 2 ^ 24 % 16 = 0 ∧
    atXport.active = .xport ∧ (atDemod 16384).active = .core ∧
    answers (.demodProcess 16384) (atDemod 16384) 1
      (fun t => t.demod.d[0] == 16384 && t.demod.d[21] == 16384 && t.demod.d[20] == 0) = true ∧
    answers (.demodProcess 0xFFFF) (atDemod 1) 0 (fun _ => true) = true := by decide

/-- V-L2-DEM-2 and V-L2-DEM-7: the one saturating product, and the strict comparison. -/
theorem test_demod_parts :
    scale (int16 0x8000 * int16 0x8000) = 32767 ∧
    decision ⟨{ paramsT with demodThresh := 8192 }, by decide⟩ 8192 = false ∧
    decision ⟨{ paramsT with demodThresh := 8191 }, by decide⟩ 8192 = true ∧
    decision ⟨{ paramsT with demodPol := .gtIsZero }, by decide⟩ 8192 = false := by decide

/-- A list of DEMOD_LAG inputs meets both length hypotheses. -/
theorem witness_DemodWarmUp : (List.replicate 21 (1000 : Half)).length = cfgT.demodLag := by decide

/-! ### Framing decoder -/

/-- V-L1-5 calls 1, 2, 9 and 10, the two IDLE cases, and V-L2-FRM-7 on XPORT: one state for each row of R140. -/
theorem witness_FrameProcessFollowsTheTable :
    (0x40000001 : Word).toNat / 2 ^ 28 = 4 ∧ (0x40000001 : Word).toNat / 2 ^ 24 % 16 = 0 ∧
    answers (.frameProcess false) atCore 0 (fun t => t.frame == ⟨.start, 0, 0, false⟩) = true ∧
    answers (.frameProcess true) atCore 0 (fun t => t.frame == ⟨.idle, 0, 0, true⟩) = true ∧
    answers (.frameProcess true) (atFrame ⟨.start, 0, 0, false⟩) 0
      (fun t => t.frame == ⟨.data 1, 1, 0, true⟩) = true ∧
    answers (.frameProcess false) (atFrame ⟨.data 7, 0x41, 0, true⟩) 0
      (fun t => t.frame == ⟨.stop, 0x41, 0, false⟩) = true ∧
    answers (.frameProcess true) (atFrame ⟨.stop, 0x41, 0, false⟩) 0x00010041
      (fun t => t.frame == ⟨.idle, 0x41, 0x41, true⟩) = true ∧
    answers (.frameProcess false) atXport 0x40000000 (fun t => t.frame.prev) = true := by decide

theorem witness_OnlyIdleReadsThePreviousBit :
    (atFrame ⟨.start, 0, 0, false⟩).active = .core ∧ (atFrame ⟨.start, 0, 0, false⟩).frame.st ≠ .idle ∧
    next? (exec (.frameProcess true) atCore) (fun t => t.frame.prev) = true := by decide

/-- The state before a frame, a list of ten bits, and a call that emits (V-L1-5, call 10). -/
theorem witness_FramingArithmetic :
    atCore.active = .core ∧ atCore.frame.st = .idle ∧ atCore.frame.prev = true ∧
    (List.replicate 10 true).length ≤ 10 ∧ (atFrame ⟨.stop, 0x41, 0, false⟩).active = .core ∧
    next? (exec (.frameProcess true) (atFrame ⟨.stop, 0x41, 0, false⟩))
      (fun t => (t.lastResponse .core).toNat / 2 ^ 16 % 2 == 1) = true := by decide

/-! ### Sample queues -/

/-- V-L2-Q-4 steps 5 and 11: FULL, and a push at the last slot that wraps the cursor. -/
theorem witness_TxqPushStoresOrAnswersFull :
    (0x500003E8 : Word).toNat / 2 ^ 28 = 5 ∧ (0x500003E8 : Word).toNat / 2 ^ 24 % 16 = 0 ∧
    (7 + 1) % cfgT.rbN = (withTxq atCore 7 0 4 0).txq.rdSeen ∧
    answers (.txqPush 4) (withTxq atCore 7 0 4 0) 0x10000000 (fun t => cursors t.txq == (7, 0, 4, 0)) = true ∧
    (7 + 1) % cfgT.rbN ≠ (withTxq atCore 7 2 4 2).txq.rdSeen ∧ (withTxq atCore 7 2 4 2).txq.cell.wf = true ∧
    answers (.txqPush 4) (withTxq atCore 7 2 4 2) 0
      (fun t => cursors t.txq == (0, 2, 4, 2) && t.txq.cell.read 7 == 4) = true := by decide

/-- V-L2-Q-1 step 5 (IMMEDIATE), V-L2-Q-2 step 5 (LAGGED) and V-L2-Q-3 step 8. -/
theorem witness_TxqPopTakesOrSignalsUnderrun :
    (0x51000000 : Word).toNat / 2 ^ 28 = 5 ∧ (0x51000000 : Word).toNat / 2 ^ 24 % 16 = 1 ∧
    answers .txqPop (now (withTxq atXport 4 4 4 4)) 0x20000000 (fun t => t.blk == ⟨true, false, true, false⟩) = true ∧
    answers .txqPop (withTxq atXport 4 4 4 0) 0x20000000 (fun t => t.blk == ⟨true, false, false, false⟩) = true ∧
    answers .txqPop { atXport with txq := ⟨⟨[(4, 1000)]⟩, 5, 4, 0, 5⟩ } 0x000003E8
      (fun t => cursors t.txq == (5, 5, 5, 0) && t.txq.cell.read 4 == 1000) = true := by decide

/-- V-L2-Q-3 steps 9 and 10. -/
theorem witness_TxqIsEmptyAnswersThePortsView :
    (0x52000000 : Word).toNat / 2 ^ 28 = 5 ∧ (0x52000000 : Word).toNat / 2 ^ 24 % 16 = 2 ∧
    answers .txqIsEmpty (withTxq atXport 5 5 5 0) 1 (fun _ => true) = true ∧
    answers .txqIsEmpty (withTxq atCore 5 5 5 0) 0 (fun _ => true) = true := by decide

/-- V-L2-Q-4 steps 4 and 12. -/
theorem witness_TxqIsFullAnswersThePortsView :
    (0x53000000 : Word).toNat / 2 ^ 28 = 5 ∧ (0x53000000 : Word).toNat / 2 ^ 24 % 16 = 3 ∧
    answers .txqIsFull (withTxq atCore 7 0 4 0) 1 (fun t => t.lastResponse .core == wordOf 0 0 1) = true ∧
    answers .txqIsFull (withTxq atXport 0 2 4 2) 0 (fun _ => true) = true := by decide

/-- V-L2-Q-5 steps 8 and 14 (IMMEDIATE), and step 8 under LAGGED. -/
theorem witness_RxqPushStoresOrSignalsOverrun :
    (0x60000007 : Word).toNat / 2 ^ 28 = 6 ∧ (0x60000007 : Word).toNat / 2 ^ 24 % 16 = 0 ∧
    answers (.rxqPush 8) (now (withRxq atXport 7 0 7 0)) 0x10000000
      (fun t => cursors t.rxq == (7, 0, 7, 0) && t.blk == ⟨false, true, false, true⟩) = true ∧
    answers (.rxqPush 8) (withRxq atXport 7 0 7 0) 0x10000000 (fun t => t.blk == ⟨false, true, false, false⟩) = true ∧
    answers (.rxqPush 9) (now (withRxq atXport 7 1 7 1)) 0
      (fun t => cursors t.rxq == (0, 1, 0, 1) && t.rxq.cell.read 7 == 9) = true := by decide

/-- V-L1-2 steps 7 and 4. -/
theorem witness_RxqPopTakesOrAnswersEmpty :
    (0x61000000 : Word).toNat / 2 ^ 28 = 6 ∧ (0x61000000 : Word).toNat / 2 ^ 24 % 16 = 1 ∧
    answers .rxqPop (now (withRxq atCore 3 3 3 3)) 0x20000000 (fun t => t.blk == atCore.blk) = true ∧
    answers .rxqPop (now { atCore with rxq := ⟨⟨[(0, 0xFFFB)]⟩, 3, 0, 0, 3⟩ }) 0x0000FFFB
      (fun t => cursors t.rxq == (3, 1, 3, 1)) = true := by decide

/-- V-L2-DEC-3, and the producer's side from R176. -/
theorem witness_RxqIsEmptyAnswersThePortsView :
    (0x62000000 : Word).toNat / 2 ^ 28 = 6 ∧ (0x62000000 : Word).toNat / 2 ^ 24 % 16 = 2 ∧
    answers .rxqIsEmpty atCore 1 (fun _ => true) = true ∧
    answers .rxqIsEmpty (withRxq atXport 1 0 0 0) 0 (fun _ => true) = true := by decide

/-- V-L2-Q-5 steps 11 and 12. -/
theorem witness_RxqIsFullAnswersThePortsView :
    (0x63000000 : Word).toNat / 2 ^ 28 = 6 ∧ (0x63000000 : Word).toNat / 2 ^ 24 % 16 = 3 ∧
    answers .rxqIsFull (withRxq atXport 7 0 7 0) 1 (fun t => t.lastResponse .xport == wordOf 0 0 1) = true ∧
    answers .rxqIsFull (withRxq atCore 7 0 7 0) 1 (fun _ => true) = true := by decide

/-- Each clause, with the first cell that does not exist. -/
theorem witness_MissingCellFaults :
    let fault := fun (i : Instr) (s : State) => match exec i s with | .fault f => f == .noSuchCell | _ => false
    (8 + 1) % cfgT.rbN ≠ 0 ∧ cfgT.rbN ≤ 8 ∧
    fault (.txqPush 1) (withTxq atCore 8 0 0 0) = true ∧ fault .txqPop (withTxq atXport 0 8 0 0) = true ∧
    fault (.rxqPush 1) (withRxq atXport 8 0 0 0) = true ∧ fault .rxqPop (withRxq atCore 0 8 0 0) = true := by decide

/-- Each clause; V-L2-Q-2 steps 8 and 10, V-L2-Q-3 step 7. -/
theorem witness_SynchronisersCopyAndWriteNothingElse :
    atCore.cfg.queueView = .lagged ∧
    next? (agentStep (.syncW .txq) (withTxq atCore 5 4 4 0)) (fun t => cursors t.txq == (5, 4, 5, 0)) = true ∧
    next? (agentStep (.syncR .txq) (withTxq atCore 4 4 4 0)) (fun t => cursors t.txq == (4, 4, 4, 4)) = true ∧
    next? (agentStep .syncF { atCore with blk := ⟨true, false, false, false⟩ })
      (fun t => t.blk == ⟨true, false, true, false⟩) = true ∧
    (now atXport).cfg.queueView = .immediate ∧ (now atXport).active = .xport ∧
    (now (withTxq atXport 4 4 4 4)).txq.emptyC = true ∧ (now (withRxq atXport 7 0 7 0)).rxq.fullP 8 = true := by
  decide

/-- A push and a pop that return OK, from a state that meets the invariant. -/
theorem witness_NoFalseSuccess :
    (give atCore .core [0x50000001]).Inv ∧ (give atCore .xport [0x51000000]).Inv ∧
    next? (agentStep (.port .core) (give atCore .core [0x50000001]))
      (fun t => pushedOk .txq (.port .core) (give atCore .core [0x50000001]) t == [1]) = true ∧
    next? (agentStep (.port .xport) (give atCore .xport [0x51000000]))
      (fun t => poppedOk .txq (.port .xport) (give atCore .xport [0x51000000]) t == [0]) = true :=
  ⟨⟨core_inv.txq, core_inv.rxq, core_inv.blk, core_inv.frame⟩, ⟨core_inv.txq, core_inv.rxq, core_inv.blk, core_inv.frame⟩,
    by decide, by decide⟩

/-- R42: the same two steps move one cursor each, and leave the other. -/
theorem witness_CursorsMoveOnlyBySuccess :
    next? (agentStep (.port .core) (give atCore .core [0x50000001])) (fun t =>
      poppedOk .txq (.port .core) (give atCore .core [0x50000001]) t == [] && cursors t.txq == (5, 0, 4, 0)) = true ∧
    next? (agentStep (.port .xport) (give atCore .xport [0x51000000])) (fun t =>
      pushedOk .txq (.port .xport) (give atCore .xport [0x51000000]) t == [] && cursors t.txq == (4, 1, 4, 0)) = true :=
  by decide

/-- V-L1-1 at RB_N = 2, the smallest capacity: from empty one push returns OK, and CORE is active after it. -/
theorem witness_QueueCapacity :
    let c : Config := ⟨{ paramsT with rbN := 2, txqInitWr := 0 }, by decide⟩
    let s := give (State.resetWith c) .core [0x50000007]
    s.Inv ∧ s.txq.wr = s.txq.rdSeen ∧
    (match runQueue .txq [.port .core] s with
      | some (offer, ok, _, t) => offer == [7] && ok == [7] && t.txq.rdSeen == 0 && t.active == .core &&
          answers (.txqPush 8) { t with core := ⟨[], []⟩ } 0x10000000 (fun _ => true)
      | none => false) = true :=
  ⟨⟨queue_inv (by decide), queue_inv (by decide), ⟨by decide, by decide, by decide⟩, by decide⟩, rfl, by decide⟩

/-- V-L1-2 with one sample, under IMMEDIATE. -/
theorem witness_QueueIsFifo :
    let s : State := { State.resetWith (cfgT.withView .immediate) with
      core := ⟨[⟨0x61000000, false⟩], []⟩, xport := ⟨[⟨0x6000FFFB, false⟩], []⟩ }
    s.Inv ∧
    (match runQueue .rxq [.port .xport, .port .core] s with
      | some (offer, ok, taken, _) => offer == [0xFFFB] && ok == [0xFFFB] && taken == [0xFFFB]
      | none => false) = true :=
  ⟨⟨now_inv.txq, now_inv.rxq, now_inv.blk, now_inv.frame⟩, by decide⟩

/-- The first clause: a queue that is truly full with exact views, one that is truly empty, both under IMMEDIATE. -/
theorem witness_ViewsArePessimistic :
    (withTxq (now atCore) 7 0 7 0).txq.Inv (now atCore).cfg ∧ (withTxq (now atCore) 7 0 7 0).txq.isFull 8 = true ∧
    (withTxq (now atCore) 3 3 3 3).txq.Inv (now atCore).cfg ∧ (withTxq (now atCore) 3 3 3 3).txq.isEmpty = true ∧
    (withTxq (now atCore) 3 3 3 3).txq.emptyP = true ∧ (withTxq (now atCore) 7 0 7 0).txq.fullC 8 = true ∧
    (now atCore).cfg.queueView = .immediate :=
  ⟨queue_inv (by decide), by decide, queue_inv (by decide), by decide, by decide, by decide, by decide⟩

/-- XPORT pops before CORE pushes. -/
theorem witness_NotFullOnCoreStaysNotFull :
    (give atCore .xport [0x51000000]).Inv ∧ atCore.txq.fullP atCore.cfg.rbN = false ∧
    (∀ a ∈ [Agent.port .xport, .syncR .txq], a ≠ .port .core) ∧
    next? (runAgents [.port .xport, .syncR .txq] (give atCore .xport [0x51000000])) (fun _ => true) = true :=
  ⟨⟨core_inv.txq, core_inv.rxq, core_inv.blk, core_inv.frame⟩, by decide, by decide, by decide⟩

/-- The five synchronisers in turn. -/
def roundRobin (n : Nat) : Agent := syncAgents.getD (n % 5) .syncF

theorem roundRobin_fair : FairSync roundRobin := by
  intro a ha n
  obtain ⟨j, hj, rfl⟩ := List.getElem_of_mem ha
  have hj5 : j < 5 := hj
  refine ⟨5 * n + j, by omega, ?_⟩
  rw [roundRobin, show (5 * n + j) % 5 = j by omega]
  exact List.getD_eq_getElem _ _ hj

theorem roundRobin_runs (s : State) (n : Nat) : ∃ t, runSchedule roundRobin n s = .next t := by
  induction n with
  | zero => exact ⟨s, rfl⟩
  | succ n ih =>
    obtain ⟨t, ht⟩ := ih
    have h : n % 5 < 5 := Nat.mod_lt _ (by decide)
    rw [runSchedule, ht, roundRobin]
    generalize n % 5 = j at h
    interval_cases j <;> exact ⟨_, rfl⟩

theorem witness_FairSchedulesShowEveryCursor :
    atCore.cfg.queueView = .lagged ∧ FairSync roundRobin ∧ ∀ n, ∃ t, runSchedule roundRobin n atCore = .next t :=
  ⟨rfl, roundRobin_fair, roundRobin_runs atCore⟩

/-- V-L2-Q-3 step 1, under IMMEDIATE. -/
theorem witness_LaggedAdmitsEveryImmediateStep :
    (give (now atCore) .core [0x500003E8]).Inv ∧
    (give (now atCore) .core [0x500003E8]).cfg.queueView = .immediate ∧
    next? (agentStep (.port .core) (give (now atCore) .core [0x500003E8]))
      (fun t => cursors t.txq == (5, 0, 5, 0)) = true :=
  ⟨⟨now_inv.txq, now_inv.rxq, now_inv.blk, now_inv.frame⟩, by decide, by decide⟩

/-! ### Block status and outputs -/

/-- V-L2-Q-2 steps 6 and 7, and a state for the last clause. -/
theorem witness_StatusReportsThePortsFlags :
    (0x70000000 : Word).toNat / 2 ^ 28 = 7 ∧ (0x70000000 : Word).toNat / 2 ^ 24 % 16 = 0 ∧ atCore.Inv ∧
    answers .blkStatus { withTxq atXport 4 4 4 0 with blk := ⟨true, false, false, false⟩ } 0x00000015
      (fun _ => true) = true ∧
    answers .blkStatus { withTxq atCore 4 4 4 0 with blk := ⟨true, false, false, false⟩ } 0x00000004
      (fun _ => true) = true :=
  ⟨by decide, by decide, core_inv, by decide, by decide⟩

/-- Each of the four commands completes from a state that meets the invariant; V-L2-Q-1: FATAL from step 5 on. -/
theorem witness_LevelOutputsTellTheNextAnswer :
    atCore.Inv ∧ atXport.Inv ∧ next? (exec (.txqPush 1) atCore) (fun _ => true) = true ∧
    next? (exec .rxqPop atCore) (fun _ => true) = true ∧ next? (exec .txqPop atXport) (fun _ => true) = true ∧
    next? (exec (.rxqPush 1) atXport) (fun _ => true) = true ∧ atCore.outFatal = false ∧
    next? (exec .txqPop (withTxq atXport 4 4 4 0)) (fun t => t.outFatal && t.outTxqEmpty) = true :=
  ⟨core_inv, ⟨core_inv.txq, core_inv.rxq, core_inv.blk, core_inv.frame⟩, by decide, by decide, by decide, by decide,
    by decide, by decide⟩

/-- Steps that set each bit, and one from a state where it is set. -/
theorem witness_StickyBitsAreSticky :
    next? (agentStep (.port .xport) (give (withTxq atCore 4 4 4 0) .xport [0x51000000]))
      (fun t => t.blk.txUnderrun) = true ∧
    next? (agentStep (.port .xport) (give (withRxq atCore 7 0 7 0) .xport [0x60000008]))
      (fun t => t.blk.rxOverrun) = true ∧
    next? (agentStep (.port .core) (give { atCore with blk := ⟨true, true, false, false⟩ } .core [0x12000000]))
      (fun t => t.blk.txUnderrun && t.blk.rxOverrun) = true := by decide

/-- Both visibility models, and the flag synchroniser. -/
theorem witness_StickyCopiesFollow :
    atCore.Inv ∧ (now atCore).Inv ∧ next? (agentStep .syncF atCore) (fun _ => true) = true ∧
    next? (agentStep .syncF (now atCore)) (fun _ => true) = true ∧
    ({ atCore with blk := ⟨true, true, true, true⟩ } : State).Inv :=
  ⟨core_inv, now_inv, by decide, by decide,
    ⟨core_inv.txq, core_inv.rxq, ⟨by decide, by decide, by decide⟩, core_inv.frame⟩⟩

theorem witness_StickyBitsStopNothing :
    Instr.ddsNext ≠ .blkStatus ∧ next? (exec .ddsNext atCore) (fun _ => true) = true := by decide

/-! ### The whole machine -/

theorem witness_EveryStepKeepsTheInvariant :
    (give atCore .core [0x50000001]).Inv ∧ next? (step (give atCore .core [0x50000001])) (fun t =>
      t.txq.wr == 5 && t.core.responses == [0]) = true :=
  ⟨⟨core_inv.txq, core_inv.rxq, core_inv.blk, core_inv.frame⟩, by decide⟩

theorem witness_TheBlockNeverStops :
    (give atCore .core [0x50000001]).Inv ∧ (give atCore .core [0x50000001]).NoOverlap :=
  ⟨⟨core_inv.txq, core_inv.rxq, core_inv.blk, core_inv.frame⟩, by unfold State.NoOverlap; decide⟩

theorem witness_ConfigurationIsFixed :
    next? (step (give atCore .core [0x12000000])) (fun _ => true) = true := by decide

theorem witness_OnlyCoreReachesTheCoreUnits :
    Agent.port .xport ≠ .port .core ∧
    next? (agentStep (.port .xport) (give atCore .xport [0x51000000])) (fun _ => true) = true ∧
    next? (agentStep (.port .core) (give atCore .core [0x12000000])) (fun _ => true) = true := by decide

/-- An XPORT command given where `txq` is empty and `rxq` is full. -/
def missed (s : State) (w : Word) : State := give (withRxq (withTxq s 4 4 4 4) 7 0 7 0) .xport [w]

/-- Each clause: a step that changes the element it names; the last clause's states meet the invariant. -/
theorem witness_OnlyTheNamedWritersWrite :
    let moves := fun (a : Agent) (s : State) (changed : State → Bool) => next? (agentStep a s) changed
    (moves (.port .core) (give atCore .core [0x10004000]) (fun t => t.dds.phase != 0) = true ∧
    moves (.port .core) (give atCore .core [0x11000001]) (fun t => t.dds.inc != 0) = true ∧
    moves (.port .core) (give (atIir ⟨0, 1, 0, 0, 0⟩ 0 0) .core [0x21000001]) (fun t => t.iir != ⟨0, 0⟩) = true ∧
    moves (.port .core) (give atCore .core [0x30000001]) (fun t => t.demod != atCore.demod) = true ∧
    moves (.port .core) (give atCore .core [0x40000000]) (fun t => t.frame != atCore.frame) = true ∧
    moves (.port .core) (give atCore .core [0x50000001]) (fun t => t.txq.cell != ⟨[]⟩ && t.txq.wr != 4) = true ∧
    moves (.port .xport) (give atCore .xport [0x51000000]) (fun t => t.txq.rd != 0) = true ∧
    moves (.port .xport) (give atCore .xport [0x60000001]) (fun t => t.rxq.cell != ⟨[]⟩ && t.rxq.wr != 0) = true ∧
    moves (.port .core) (give (withRxq atCore 1 0 1 0) .core [0x61000000]) (fun t => t.rxq.rd != 0) = true ∧
    moves (.syncW .txq) (withTxq atCore 5 4 4 0) (fun t => t.txq.wrSeen != 4) = true ∧
    moves (.syncR .txq) (withTxq atCore 5 4 4 0) (fun t => t.txq.rdSeen != 0) = true ∧
    moves (.port .xport) (missed atCore 0x51000000) (fun t => t.blk == ⟨true, false, false, false⟩) = true ∧
    moves (.port .xport) (missed atCore 0x60000001) (fun t => t.blk == ⟨false, true, false, false⟩) = true ∧
    moves .syncF { atCore with blk := ⟨true, true, false, false⟩ }
      (fun t => t.blk == ⟨true, true, true, true⟩) = true ∧
    moves (.port .core) (give (now atCore) .core [0x50000001]) (fun t => t.txq.wrSeen != 4) = true ∧
    moves (.port .xport) (give (now atCore) .xport [0x51000000]) (fun t => t.txq.rdSeen != 0) = true ∧
    moves (.port .xport) (missed (now atCore) 0x51000000) (fun t => t.blk == ⟨true, false, true, false⟩) = true ∧
    moves (.port .xport) (missed (now atCore) 0x60000001) (fun t => t.blk == ⟨false, true, false, true⟩) = true) ∧
    ∀ w, (missed (now atCore) w).Inv := by
  have full : (withRxq (withTxq (now atCore) 4 4 4 4) 7 0 7 0).Inv :=
    { txq := queue_inv (by decide), rxq := queue_inv (by decide), blk := now_inv.blk, frame := now_inv.frame }
  refine ⟨by decide, fun w => ?_⟩
  -- giving a command touches no unit
  exact { txq := full.txq, rxq := full.rxq, blk := full.blk, frame := full.frame }

/-- Two states that differ in every unit of CORE's own. -/
theorem witness_XportLearnsNothingOfTheCoreUnits :
    let s := give atCore .xport [0x51000000]
    let s' : State := { s with dds := ⟨1, 2⟩, iir := ⟨1, 2⟩, frame := ⟨.stop, 1, 2, false⟩, core := ⟨[], [7]⟩ }
    s'.cfg = s.cfg ∧ s'.txq = s.txq ∧ s'.rxq = s.rxq ∧ s'.blk = s.blk ∧ s'.xport = s.xport ∧
    next? (agentStep (.port .xport) s) (fun t => t.xport.responses == [0]) = true := by decide

theorem witness_CoreNeverReadsXportsCursors :
    next? (agentStep (.port .core) (give atCore .core [0x53000000])) (fun t => t.core.responses == [0]) = true := by
  decide

/-- Two canonical memories, one of them written at its last cell; writing 0 removes the entry. -/
theorem witness_StorageIsCanonical :
    (⟨[]⟩ : Memory).wf = true ∧ (⟨[(7, 1)]⟩ : Memory).wf = true ∧ (⟨[(7, 1)]⟩ : Memory).write 7 0 = ⟨[]⟩ ∧
    (⟨[(7, 0)]⟩ : Memory).wf = false ∧ (⟨[(7, 1), (3, 1)]⟩ : Memory).wf = false := by decide

/-- The legal clause; the illegal ones are met by the `test_wf_` parameters above. -/
theorem witness_IllegalConfigurationIsRefused : paramsT.Legal := cfgT.legal

theorem witness_EndedRunMovesOnlyViews :
    atCore.sched = [] ∧ atCore.ended ∧
    next? (agentStep (.syncW .txq) (withTxq atCore 5 4 4 0)) (fun t => t.core == ⟨[], []⟩) = true :=
  ⟨rfl, ⟨rfl, rfl⟩, by decide⟩

/-! ### A step from reset, whatever the OPEN parameters are -/

/-- The host's own question: step runs the word as the first command after reset (R170's example, V-L2-Q-1 step 1). -/
theorem test_step_from_reset :
    next? (step (State.reset.withFetchWord 32 0x500003E8))
      (fun t => t.core.responses == [0] && t.txq.wr == 5 && t.txq.cell.read 4 == 1000) = true ∧
    next? (step (State.reset.withFetchWord 32 0x51000000)) (fun t => t.xport.responses == [0] && t.txq.rd == 1) = true :=
  by decide

end Sys2Proof.Tests
end

section
/-! PROOFS. Family 10_state.md. What one step of an agent is (`AgentEffect`), what it does to one queue (`QueueStep`) and
to the sticky bits and their copies (`BlkStep`): each said once, and the obligations derived from it. -/

namespace Sys2Proof.Machine

/-! ### The command an agent executes -/

theorem commandOf_port_nil {p : Port} {s : State} (h : (s.io p).pending = []) : commandOf (.port p) s = none := by
  simp [commandOf, h]

theorem commandOf_port_cons {p : Port} {s : State} {c : Offer} {rest : List Offer} (h : (s.io p).pending = c :: rest)
    (he : c.early = false) : commandOf (.port p) s = (decode c.word).map fun i => (p, i) := by
  simp [commandOf, h, he]

theorem commandOf_sync {a : Agent} (ha : a ∈ syncAgents) (s : State) : commandOf a s = none := by
  cases a with
  | port p => simp [syncAgents] at ha
  | _ => rfl

/-! ### Everything one step of an agent does -/

/-- `AgentEffect s a t`: one step of agent `a` from `s` that ends in `t`. -/
inductive AgentEffect (s : State) : Agent → State → Prop where
  | noCommand (p : Port) (hp : (s.io p).pending = []) (hc : commandOf (.port p) s = none) : AgentEffect s (.port p) s
  | illegal (p : Port) (rest : List Offer) (hc : commandOf (.port p) s = none) :
      AgentEffect s (.port p) ((s.accept p rest).reply (responseWord .illegal false 0))
  | command (p : Port) (rest : List Offer) (i : Instr) (u : State) (st : Status) (v : Bool) (d : Half)
      (hc : commandOf (.port p) s = some (p, i)) (e : Effect i (s.accept p rest) u st v d) :
      AgentEffect s (.port p) (u.reply (responseWord st v d))
  | noSync (a : Agent) (ha : a ∈ syncAgents) (hv : s.cfg.queueView = .immediate) : AgentEffect s a s
  | syncW (k : QueueId) (hv : s.cfg.queueView = .lagged) :
      AgentEffect s (.syncW k) (s.setQueue k (s.queue k).syncW)
  | syncR (k : QueueId) (hv : s.cfg.queueView = .lagged) :
      AgentEffect s (.syncR k) (s.setQueue k (s.queue k).syncR)
  | syncF (hv : s.cfg.queueView = .lagged) : AgentEffect s .syncF { s with blk := s.blk.syncF }

theorem portStep_effect {p : Port} {s t : State} (h : portStep p s = .next t) : AgentEffect s (.port p) t := by
  rcases portStep_next h with ⟨hp, rfl⟩ | ⟨c, rest, hp, he, ⟨hd, rfl⟩ | ⟨i, u, st, v, d, hd, e, rfl⟩⟩
  · exact .noCommand p hp (commandOf_port_nil hp)
  · exact .illegal p rest (by rw [commandOf_port_cons hp he, hd]; rfl)
  · exact .command p rest i u st v d (by rw [commandOf_port_cons hp he, hd]; rfl) e

theorem mem_syncAgents {a : Agent} (ha : ∀ p, a ≠ .port p) : a ∈ syncAgents := by
  cases a with
  | port p => exact absurd rfl (ha p)
  | syncW k => cases k <;> decide
  | syncR k => cases k <;> decide
  | syncF => decide

theorem agentStep_effect {a : Agent} {s t : State} (h : agentStep a s = .next t) : AgentEffect s a t := by
  cases hv : s.cfg.queueView with
  | immediate =>
    by_cases hp : ∃ p, a = .port p
    · obtain ⟨p, rfl⟩ := hp
      exact portStep_effect h
    · have ha : a ∈ syncAgents := mem_syncAgents fun p e => hp ⟨p, e⟩
      obtain rfl := Host.Outcome.next.inj ((agentStep_sync_immediate ha hv).symm.trans h)
      exact .noSync a ha hv
  | lagged =>
    cases a with
    | port p => exact portStep_effect h
    | syncW k =>
      obtain rfl := Host.Outcome.next.inj ((agentStep_syncW k hv).symm.trans h)
      exact .syncW k hv
    | syncR k =>
      obtain rfl := Host.Outcome.next.inj ((agentStep_syncR k hv).symm.trans h)
      exact .syncR k hv
    | syncF =>
      obtain rfl := Host.Outcome.next.inj ((agentStep_syncF hv).symm.trans h)
      exact .syncF hv

/-- R235, for a step of any agent. -/
theorem agentStep_cfg {a : Agent} {s t : State} (h : agentStep a s = .next t) : t.cfg = s.cfg := by
  cases agentStep_effect h with
  | command p rest i u st v d hc e => simp [(effect_host e).1]
  | _ => simp

/-! ### The answer of a step -/

theorem responseWord_status (st : Status) (v : Bool) (d : Half) :
    (responseWord st v d >>> 28 == 0) = decide (st = .ok) := by
  have hd := d.isLt
  have high : (responseWord st v d).toNat / 2 ^ 28 = st.code.toNat := by
    simp only [responseWord, append_toNat_eq_add]
    cases v <;> simp <;> omega
  rw [Bool.eq_iff_iff, beq_iff_eq, decide_eq_true_iff, ← BitVec.toNat_inj, BitVec.toNat_ushiftRight,
    Nat.shiftRight_eq_div_pow, high]
  cases st <;> decide

theorem responseWord_data (st : Status) (v : Bool) (d : Half) : (responseWord st v d).setWidth 16 = d := by
  apply BitVec.eq_of_toNat_eq
  have hd := d.isLt
  simp only [responseWord, BitVec.toNat_setWidth, append_toNat_eq_add]
  omega

theorem reply_lastResponse {u : State} {p : Port} (hp : u.active = p) (w : Word) : (u.reply w).lastResponse p = w := by
  simp [State.lastResponse, hp]

theorem reply_lastOk {u : State} {p : Port} (hp : u.active = p) (st : Status) (v : Bool) (d : Half) :
    (u.reply (responseWord st v d)).lastOk p = decide (st = .ok) := by
  rw [State.lastOk, reply_lastResponse hp, responseWord_status]

theorem pushedOk_none {k : QueueId} {a : Agent} {s : State} (t : State) (hc : commandOf a s = none) :
    pushedOk k a s t = [] := by
  rw [pushedOk, hc]

theorem poppedOk_none {k : QueueId} {a : Agent} {s : State} (t : State) (hc : commandOf a s = none) :
    poppedOk k a s t = [] := by
  rw [poppedOk, hc]

theorem pushedOk_command (k : QueueId) {a : Agent} {s u : State} {p : Port} {i : Instr} (st : Status) (v : Bool)
    (d : Half) (hc : commandOf a s = some (p, i)) (hp : u.active = p) :
    pushedOk k a s (u.reply (responseWord st v d)) = if st = .ok then (pushOperand k i).toList else [] := by
  simp [pushedOk, hc, reply_lastOk hp]

theorem poppedOk_command (k : QueueId) {a : Agent} {s u : State} {p : Port} {i : Instr} (st : Status) (v : Bool)
    (d : Half) (hc : commandOf a s = some (p, i)) (hp : u.active = p) :
    poppedOk k a s (u.reply (responseWord st v d)) = if st = .ok ∧ popsQueue k i = true then [d] else [] := by
  simp [poppedOk, hc, reply_lastOk hp, reply_lastResponse hp, responseWord_data]

/-! ### One step and one queue (R42) -/

@[simp] theorem reply_queue (s : State) (w : Word) (k : QueueId) : (s.reply w).queue k = s.queue k := by
  cases k <;> simp

@[simp] theorem accept_queue (s : State) (p : Port) (rest : List Offer) (k : QueueId) :
    (s.accept p rest).queue k = s.queue k := by
  cases k <;> simp

/-- What a command did to queue `k`: it pushed, it popped, or it left the queue as it is and was no PUSH or POP on it
that returned OK. -/
theorem effect_queue {i : Instr} {s u : State} {st : Status} {v : Bool} {d : Half} (k : QueueId)
    (h : Effect i s u st v d) :
    (∃ x, i = k.pushInstr x ∧ st = .ok ∧ (s.queue k).fullP s.cfg.rbN = false ∧ u.queue k = (s.queue k).pushed s.cfg x) ∨
    (i = k.popInstr ∧ st = .ok ∧ (s.queue k).emptyC = false ∧ d = (s.queue k).cell.read (s.queue k).rd ∧
      u.queue k = (s.queue k).popped s.cfg) ∨
    (u.queue k = s.queue k ∧ (st = .ok → pushOperand k i = none ∧ popsQueue k i = false)) := by
  cases h with
  | txqPushOk x _ h hf =>
    cases k
    · exact .inl ⟨x, rfl, rfl, hf, rfl⟩
    · exact .inr (.inr ⟨rfl, fun _ => ⟨rfl, rfl⟩⟩)
  | rxqPushOk x _ h hf =>
    cases k
    · exact .inr (.inr ⟨rfl, fun _ => ⟨rfl, rfl⟩⟩)
    · exact .inl ⟨x, rfl, rfl, hf, rfl⟩
  | txqPopOk _ h he =>
    cases k
    · exact .inr (.inl ⟨rfl, rfl, he, rfl, rfl⟩)
    · exact .inr (.inr ⟨rfl, fun _ => ⟨rfl, rfl⟩⟩)
  | rxqPopOk _ h he =>
    cases k
    · exact .inr (.inr ⟨rfl, fun _ => ⟨rfl, rfl⟩⟩)
    · exact .inr (.inl ⟨rfl, rfl, he, rfl, rfl⟩)
  | wrongPort | txqPushFull | rxqPushFull | txqPopEmpty | rxqPopEmpty =>
    exact .inr (.inr ⟨by cases k <;> simp, nofun⟩)
  | _ => exact .inr (.inr ⟨by cases k <;> simp, fun _ => ⟨rfl, rfl⟩⟩)

@[simp] theorem pushOperand_pushInstr (k : QueueId) (x : Half) : pushOperand k (k.pushInstr x) = some x := by
  cases k <;> rfl

@[simp] theorem popsQueue_pushInstr (k : QueueId) (x : Half) : popsQueue k (k.pushInstr x) = false := by
  cases k <;> rfl

@[simp] theorem pushOperand_popInstr (k : QueueId) : pushOperand k k.popInstr = none := by
  cases k <;> rfl

@[simp] theorem popsQueue_popInstr (k : QueueId) : popsQueue k k.popInstr = true := by
  cases k <;> rfl

/-- What a step of agent `a` from `s` to `t` did to queue `k`. -/
inductive QueueStep (k : QueueId) (a : Agent) (s t : State) : Prop where
  | kept (hq : t.queue k = s.queue k) (hpush : pushedOk k a s t = []) (hpop : poppedOk k a s t = [])
  | synced (hv : s.cfg.queueView = .lagged)
      (hq : a = .syncW k ∧ t.queue k = (s.queue k).syncW ∨ a = .syncR k ∧ t.queue k = (s.queue k).syncR)
      (hpush : pushedOk k a s t = []) (hpop : poppedOk k a s t = [])
  | pushed (x : Half) (hf : (s.queue k).fullP s.cfg.rbN = false) (hq : t.queue k = (s.queue k).pushed s.cfg x)
      (hpush : pushedOk k a s t = [x]) (hpop : poppedOk k a s t = [])
  | popped (he : (s.queue k).emptyC = false) (hq : t.queue k = (s.queue k).popped s.cfg)
      (hpush : pushedOk k a s t = []) (hpop : poppedOk k a s t = [(s.queue k).cell.read (s.queue k).rd])

theorem agentStep_queue {a : Agent} {s t : State} (k : QueueId) (h : agentStep a s = .next t) :
    QueueStep k a s t := by
  cases agentStep_effect h with
  | noCommand p hp hc => exact .kept rfl (pushedOk_none _ hc) (poppedOk_none _ hc)
  | illegal p rest hc => exact .kept (by simp) (pushedOk_none _ hc) (poppedOk_none _ hc)
  | noSync _ ha hv => exact .kept rfl (pushedOk_none _ (commandOf_sync ha s)) (poppedOk_none _ (commandOf_sync ha s))
  | syncF hv => exact .kept (by cases k <;> rfl) rfl rfl
  | syncW j hv =>
    by_cases hk : k = j
    · subst hk
      exact .synced hv (.inl ⟨rfl, by simp⟩) rfl rfl
    · exact .kept (setQueue_queue_ne _ _ _ _ hk) rfl rfl
  | syncR j hv =>
    by_cases hk : k = j
    · subst hk
      exact .synced hv (.inr ⟨rfl, by simp⟩) rfl rfl
    · exact .kept (setQueue_queue_ne _ _ _ _ hk) rfl rfl
  | command p rest i u st v d hc e =>
    obtain ⟨-, -, -, hp, -⟩ := effect_host e
    rw [accept_active] at hp
    have push := pushedOk_command k st v d hc hp
    have pop := poppedOk_command k st v d hc hp
    rcases effect_queue k e with ⟨x, rfl, rfl, hf, hq⟩ | ⟨rfl, rfl, he, rfl, hq⟩ | ⟨hq, other⟩
    · rw [pushOperand_pushInstr] at push
      rw [popsQueue_pushInstr] at pop
      exact .pushed x (by simpa using hf) (by simpa using hq) push pop
    · rw [pushOperand_popInstr] at push
      rw [popsQueue_popInstr] at pop
      exact .popped (by simpa using he) (by simpa using hq) push (by simpa using pop)
    · refine .kept (by simpa using hq) ?_ ?_
      · rw [push]
        split
        · rename_i ok
          rw [(other ok).1]
          rfl
        · rfl
      · rw [pop, if_neg]
        rintro ⟨ok, hpops⟩
        simp [(other ok).2] at hpops

theorem agentStep_wr {a : Agent} {s t : State} (k : QueueId) (h : agentStep a s = .next t) :
    (t.queue k).wr = if pushedOk k a s t = [] then (s.queue k).wr else nextSlot s.cfg.rbN (s.queue k).wr := by
  cases agentStep_queue k h with
  | kept hq hpush => rw [hpush, hq, if_pos rfl]
  | synced hv hq hpush => rcases hq with ⟨-, hq⟩ | ⟨-, hq⟩ <;> rw [hpush, hq, if_pos rfl] <;> rfl
  | pushed x hf hq hpush => rw [hpush, hq, if_neg (by simp)]; rfl
  | popped he hq hpush => rw [hpush, hq, if_pos rfl]; rfl

theorem agentStep_rd {a : Agent} {s t : State} (k : QueueId) (h : agentStep a s = .next t) :
    (t.queue k).rd = if poppedOk k a s t = [] then (s.queue k).rd else nextSlot s.cfg.rbN (s.queue k).rd := by
  cases agentStep_queue k h with
  | kept hq _ hpop => rw [hpop, hq, if_pos rfl]
  | synced hv hq _ hpop => rcases hq with ⟨-, hq⟩ | ⟨-, hq⟩ <;> rw [hpop, hq, if_pos rfl] <;> rfl
  | pushed x hf hq _ hpop => rw [hpop, hq, if_pos rfl]; rfl
  | popped he hq _ hpop => rw [hpop, hq, if_neg (by simp)]; rfl

theorem State.Inv.queue {s : State} (h : s.Inv) (k : QueueId) : (s.queue k).Inv s.cfg := by
  cases k
  · exact h.txq
  · exact h.rxq

/-- Settles O38: a step moves a cursor by `nextSlot` or not at all, and both keep it in range. -/
theorem cursorsMoveOnlyBySuccess : Obligations.CursorsMoveOnlyBySuccess := by
  intro s t a k inv h
  have hwr := agentStep_wr k h
  have hrd := agentStep_rd k h
  refine ⟨⟨?_, ?_⟩, fun no => ?_, fun ok => ?_, fun no => ?_, fun ok => ?_⟩
  · rw [agentStep_cfg h, hwr]
    split
    · exact (inv.queue k).wr_lt
    · exact nextSlot_lt (inv.queue k).wr_lt
  · rw [agentStep_cfg h, hrd]
    split
    · exact (inv.queue k).rd_lt
    · exact nextSlot_lt (inv.queue k).rd_lt
  · rw [hwr, if_pos no]
  · rw [hwr, if_neg ok, nextSlot]
  · rw [hrd, if_pos no]
  · rw [hrd, if_neg ok, nextSlot]

/-! ### One step and the sticky bits (R47, R48) -/

@[simp] theorem syncF_txUnderrun (b : Blk) : b.syncF.txUnderrun = b.txUnderrun := rfl
@[simp] theorem syncF_rxOverrun (b : Blk) : b.syncF.rxOverrun = b.rxOverrun := rfl
@[simp] theorem syncF_txUnderrunSeen (b : Blk) : b.syncF.txUnderrunSeen = b.txUnderrun := rfl
@[simp] theorem syncF_rxOverrunSeen (b : Blk) : b.syncF.rxOverrunSeen = b.rxOverrun := rfl

theorem settle_immediate {c : Config} (b : Blk) (hv : c.queueView = .immediate) : b.settle c = b.syncF := if_pos hv
theorem settle_lagged {c : Config} (b : Blk) (hv : c.queueView = .lagged) : b.settle c = b := if_neg (by simp [hv])

@[simp] theorem settle_txUnderrun (c : Config) (b : Blk) : (b.settle c).txUnderrun = b.txUnderrun := by
  cases hv : c.queueView
  · rw [settle_immediate b hv, syncF_txUnderrun]
  · rw [settle_lagged b hv]

@[simp] theorem settle_rxOverrun (c : Config) (b : Blk) : (b.settle c).rxOverrun = b.rxOverrun := by
  cases hv : c.queueView
  · rw [settle_immediate b hv, syncF_rxOverrun]
  · rw [settle_lagged b hv]

/-- What a command did to the sticky bits: nothing, or it signalled a transport underrun or overrun (R207, R208). -/
theorem effect_blk {i : Instr} {s u : State} {st : Status} {v : Bool} {d : Half} (h : Effect i s u st v d) :
    u.blk = s.blk ∨
    (i = .txqPop ∧ s.active = .xport ∧ s.txq.emptyC = true ∧
      u.blk = ({ s.blk with txUnderrun := true } : Blk).settle s.cfg) ∨
    ∃ x, i = .rxqPush x ∧ s.active = .xport ∧ s.rxq.fullP s.cfg.rbN = true ∧
      u.blk = ({ s.blk with rxOverrun := true } : Blk).settle s.cfg := by
  cases h with
  | txqPopEmpty _ hp he => exact .inr (.inl ⟨rfl, hp, he, rfl⟩)
  | rxqPushFull x _ hp hf => exact .inr (.inr ⟨x, rfl, hp, hf, rfl⟩)
  | _ => exact .inl rfl

/-- What a step of agent `a` from `s` to `t` did to the sticky bits and their copies. -/
inductive BlkStep (a : Agent) (s t : State) : Prop where
  | kept (hb : t.blk = s.blk)
  | synced (ha : a = .syncF) (hv : s.cfg.queueView = .lagged) (hb : t.blk = s.blk.syncF)
  | underrun (hc : commandOf a s = some (.xport, .txqPop)) (he : s.txq.emptyC = true)
      (hb : t.blk = ({ s.blk with txUnderrun := true } : Blk).settle s.cfg)
  | overrun (x : Half) (hc : commandOf a s = some (.xport, .rxqPush x)) (hf : s.rxq.fullP s.cfg.rbN = true)
      (hb : t.blk = ({ s.blk with rxOverrun := true } : Blk).settle s.cfg)

theorem agentStep_blk {a : Agent} {s t : State} (h : agentStep a s = .next t) : BlkStep a s t := by
  cases agentStep_effect h with
  | noCommand | noSync => exact .kept rfl
  | illegal => exact .kept (by simp)
  | syncW | syncR => exact .kept (by simp)
  | syncF hv => exact .synced rfl hv rfl
  | command p rest i u st v d hc e =>
    rcases effect_blk e with hb | ⟨rfl, hp, he, hb⟩ | ⟨x, rfl, hp, hf, hb⟩
    · exact .kept (by simpa using hb)
    · obtain rfl : p = .xport := hp
      exact .underrun hc (by simpa using he) (by simpa using hb)
    · obtain rfl : p = .xport := hp
      exact .overrun x hc (by simpa using hf) (by simpa using hb)

/-- Settles O44: by the four ways of `BlkStep`, none of which clears a bit. -/
theorem stickyBitsAreSticky : Obligations.StickyBitsAreSticky := by
  refine ⟨fun _ => ⟨rfl, rfl⟩, fun s t a h => ?_⟩
  cases agentStep_blk h with
  | kept hb | synced _ _ hb =>
    rw [hb]
    exact ⟨id, id, fun clear set => by simp [clear] at set, fun clear set => by simp [clear] at set⟩
  | underrun hc he hb =>
    rw [hb]
    exact ⟨by simp, by simp, fun _ _ => ⟨hc, he⟩, fun clear set => by simp [clear] at set⟩
  | overrun x hc hf hb =>
    rw [hb]
    exact ⟨by simp, by simp, fun clear set => by simp [clear] at set, fun _ _ => ⟨⟨x, hc⟩, hf⟩⟩

theorem syncF_inv (c : Config) (b : Blk) : b.syncF.Inv c := ⟨id, id, fun _ => ⟨rfl, rfl⟩⟩

/-- `settle` makes the copies exact where R168 asks for it, so it needs only that no copy is ahead of its bit. -/
theorem settle_inv (c : Config) (b : Blk) (htx : b.txUnderrunSeen = true → b.txUnderrun = true)
    (hrx : b.rxOverrunSeen = true → b.rxOverrun = true) : (b.settle c).Inv c := by
  cases hv : c.queueView with
  | immediate => rw [settle_immediate b hv]; exact syncF_inv c b
  | lagged => rw [settle_lagged b hv]; exact ⟨htx, hrx, fun e => by simp [hv] at e⟩

/-- No copy of `b` is cleared on the way to `b'`. -/
def Blk.KeepsCopies (b b' : Blk) : Prop :=
  (b.txUnderrunSeen = true → b'.txUnderrunSeen = true) ∧ (b.rxOverrunSeen = true → b'.rxOverrunSeen = true)

theorem settle_keepsCopies (c : Config) (b : Blk) (htx : b.txUnderrunSeen = true → b.txUnderrun = true)
    (hrx : b.rxOverrunSeen = true → b.rxOverrun = true) : b.KeepsCopies (b.settle c) := by
  cases hv : c.queueView with
  | immediate => rw [settle_immediate b hv]; exact ⟨htx, hrx⟩
  | lagged => rw [settle_lagged b hv]; exact ⟨id, id⟩

/-- R48 as a step lemma: a step keeps the copies' invariant and clears none of them. -/
theorem agentStep_copies {a : Agent} {s t : State} (inv : s.blk.Inv s.cfg) (h : agentStep a s = .next t) :
    t.blk.Inv s.cfg ∧ s.blk.KeepsCopies t.blk := by
  cases agentStep_blk h with
  | kept hb => rw [hb]; exact ⟨inv, id, id⟩
  | synced _ _ hb => rw [hb]; exact ⟨syncF_inv _ _, inv.txCopy, inv.rxCopy⟩
  | underrun _ _ hb =>
    rw [hb]
    exact ⟨settle_inv _ _ (fun _ => rfl) inv.rxCopy,
      settle_keepsCopies _ { s.blk with txUnderrun := true } (fun _ => rfl) inv.rxCopy⟩
  | overrun _ _ _ hb =>
    rw [hb]
    exact ⟨settle_inv _ _ inv.txCopy (fun _ => rfl),
      settle_keepsCopies _ { s.blk with rxOverrun := true } inv.txCopy (fun _ => rfl)⟩

/-- Settles O45: `agentStep_copies` from a state of the invariant, and SYNC_F's own step under LAGGED. -/
theorem stickyCopiesFollow : Obligations.StickyCopiesFollow := by
  refine ⟨fun _ => ⟨rfl, rfl⟩, fun s t a inv h => ?_⟩
  obtain ⟨copies, txKept, rxKept⟩ := agentStep_copies inv.blk h
  refine ⟨copies.exact_copies, fun hv ha => ?_, copies.txCopy, copies.rxCopy, txKept, rxKept⟩
  subst ha
  obtain rfl := Host.Outcome.next.inj ((agentStep_syncF hv).symm.trans h)
  exact ⟨rfl, rfl⟩

end Sys2Proof.Machine
end

section
/-! PROOFS. Family 30_encoding.md. Which words encode a command, by the fields of R80; the ports a command may be issued
on; the STATUS it answers with. Each said once, and the obligations derived from it. -/

namespace Sys2Proof

/-! ### At most one row admits a word (R82) -/

/-- Any two rows differ in a bit that both masks fix. -/
theorem rows_patterns_clash : rows.Pairwise fun r q => r.pattern &&& q.mask ≠ q.pattern &&& r.mask := by decide

theorem rows_pairwise_disjoint (w : Word) :
    rows.Pairwise fun r q => ¬ (r.admits w = true ∧ q.admits w = true) := by
  refine rows_patterns_clash.imp fun {r q} clash => ?_
  rintro ⟨hr, hq⟩
  rw [Row.admits, beq_iff_eq] at hr hq
  exact clash (by rw [← hr, ← hq, BitVec.and_assoc, BitVec.and_assoc, BitVec.and_comm r.mask])

theorem eq_of_admits {w : Word} {r q : Row} (hr : r ∈ rows) (hq : q ∈ rows) (ar : r.admits w = true)
    (aq : q.admits w = true) : r = q := by
  by_contra ne
  have symm : Std.Symm fun r q : Row => ¬ (r.admits w = true ∧ q.admits w = true) := ⟨fun _ _ h both => h both.symm⟩
  exact (rows_pairwise_disjoint w).forall hr hq ne ⟨ar, aq⟩

/-- R87: the row that admits a word gives its command. -/
theorem decode_of_admits {w : Word} {r : Row} (hr : r ∈ rows) (ar : r.admits w = true) :
    decode w = some (r.build (dataOf w)) := by
  cases hd : decode w with
  | none => simp [(decode_none_iff w).mp hd r hr] at ar
  | some i =>
    obtain ⟨q, hq, aq, rfl⟩ := decode_some_row hd
    rw [eq_of_admits hr hq ar aq]

/-! ### Which words encode a command, by the fields of R80 -/

theorem word_eq_iff (n k : Nat) : n = k ↔ n / 2 ^ 16 = k / 2 ^ 16 ∧ n % 2 ^ 16 = k % 2 ^ 16 := by omega

theorem half_eq_iff (n k : Nat) : n / 2 = k ↔ n / 2 ^ 16 = k / 2 ^ 15 ∧ n % 2 ^ 16 / 2 = k % 2 ^ 15 := by omega

/-- The upper half of a word is its UNIT, OP and RSV. -/
theorem upper_eq_iff (n k : Nat) : n / 2 ^ 16 = k ↔
    n / 2 ^ 28 = k / 2 ^ 12 ∧ n / 2 ^ 24 % 16 = k / 2 ^ 8 % 16 ∧ n / 2 ^ 16 % 256 = k % 256 := by omega

theorem ite_some_ne_none_iff {α : Type} (c : Prop) [Decidable c] (a : α) (o : Option α) :
    (if c then some a else o) ≠ none ↔ c ∨ o ≠ none := by
  by_cases h : c <;> simp [h]

/-- UNIT and OP of the commands with a 16-bit operand (R83). -/
def halfOperandOps : List (Nat × Nat) := [(1, 0), (1, 1), (2, 1), (3, 0), (5, 0), (6, 0)]

/-- UNIT and OP of the commands without an operand (R87). -/
def noOperandOps : List (Nat × Nat) := [(1, 2), (2, 0), (5, 1), (5, 2), (5, 3), (6, 1), (6, 2), (6, 3), (7, 0)]

/-- R87 from the other side: a word encodes a command exactly when RSV is 0, UNIT and OP are listed, and DATA is one
that the command takes. -/
theorem decode_ne_none_iff (w : Word) : decode w ≠ none ↔
    w.toNat / 2 ^ 16 % 256 = 0 ∧
      ((w.toNat / 2 ^ 28, w.toNat / 2 ^ 24 % 16) ∈ halfOperandOps ∨
        ((w.toNat / 2 ^ 28, w.toNat / 2 ^ 24 % 16) ∈ noOperandOps ∧ w.toNat % 2 ^ 16 = 0) ∨
        (w.toNat / 2 ^ 28 = 4 ∧ w.toNat / 2 ^ 24 % 16 = 0 ∧ w.toNat % 2 ^ 16 / 2 = 0)) := by
  rw [decode_eq]
  simp only [ite_some_ne_none_iff, word_eq_iff w.toNat, half_eq_iff w.toNat, ne_eq, not_true_eq_false, or_false]
  simp only [upper_eq_iff w.toNat]
  simp only [halfOperandOps, noOperandOps, List.mem_cons, List.not_mem_nil, or_false, Prod.mk.injEq, Nat.reducePow,
    Nat.reduceDiv, Nat.reduceMod]
  generalize w.toNat / 268435456 = unit, w.toNat / 16777216 % 16 = op, w.toNat / 65536 % 256 = rsv,
    w.toNat % 65536 = data
  grind

/-- Settles O4: at most one row admits a word, and the five cases are the complement of `decode_ne_none_iff`. -/
theorem illegalExactlyInTheFiveCases : Obligations.IllegalExactlyInTheFiveCases := by
  refine ⟨fun r hr w hw => decode_of_admits hr (beq_iff_eq.mpr hw), fun w => ?_⟩
  have unit_lt : w.toNat / 2 ^ 28 < 16 := by have := w.isLt; omega
  have op_lt : w.toNat / 2 ^ 24 % 16 < 16 := Nat.mod_lt _ (by decide)
  rw [← not_iff_not, ← ne_eq, decode_ne_none_iff]
  generalize w.toNat / 2 ^ 28 = unit, w.toNat / 2 ^ 24 % 16 = op at *
  generalize w.toNat / 2 ^ 16 % 256 = rsv, w.toNat % 2 ^ 16 = data
  simp only [halfOperandOps, noOperandOps, List.mem_cons, List.not_mem_nil, or_false, Prod.mk.injEq]
  -- UNIT by UNIT, `simp` leaves the rows of that unit only
  interval_cases unit <;> simp <;> omega

end Sys2Proof

namespace Sys2Proof.Machine

/-! ### Port rights (R88) -/

theorem core_notMem_ports_iff (i : Instr) : Port.core ∉ i.ports ↔ i = .txqPop ∨ ∃ x, i = .rxqPush x := by
  cases i <;> simp [Instr.ports]

theorem xport_mem_ports_iff (i : Instr) : Port.xport ∈ i.ports ↔ i = .txqPop ∨ (∃ x, i = .rxqPush x) ∨
    i = .txqIsEmpty ∨ i = .txqIsFull ∨ i = .rxqIsEmpty ∨ i = .rxqIsFull ∨ i = .blkStatus := by
  cases i <;> simp [Instr.ports]

theorem onlyChanges_reply (s : State) (w : Word) : OnlyChanges [] s (s.reply w) := by
  refine ⟨reply_cfg s w, fun part _ => ?_⟩
  cases part <;> simp [SamePart]

/-- A command whose effect leaves the units as they are answers only. -/
theorem effect_answersOnly {i : Instr} {s : State} {st : Status} {v : Bool} {d : Half} (e : Effect i s s st v d) :
    AnswersOnly i s (wordOf st.code.toNat v.toNat d.toNat) := by
  rw [← responseWord_eq_wordOf]
  exact ⟨_, effect_exec e, onlyChanges_reply s _, effect_answered e⟩

/-- Settles O8: the port rights command by command, and `Effect.wrongPort` as an answer only. -/
theorem wrongPortAnswersWrongPort : Obligations.WrongPortAnswersWrongPort :=
  ⟨core_notMem_ports_iff, xport_mem_ports_iff, fun i s h => by
    simpa [Status.code] using effect_answersOnly (.wrongPort i s h)⟩

/-! ### The STATUS of an answer (R85, R89) -/

theorem responseWord_statusCode (st : Status) (v : Bool) (d : Half) :
    (responseWord st v d).toNat / 2 ^ 28 = st.code.toNat := by
  have hd := d.isLt
  simp only [responseWord, append_toNat_eq_add]
  cases v <;> simp <;> omega

theorem reply_lastStatus {u : State} {p : Port} (hp : u.active = p) (st : Status) (v : Bool) (d : Half) :
    ((u.reply (responseWord st v d)).lastResponse p).toNat / 2 ^ 28 = st.code.toNat := by
  rw [reply_lastResponse hp, responseWord_statusCode]

theorem exists_queueId_iff (P : QueueId → Prop) : (∃ k, P k) ↔ P .txq ∨ P .rxq :=
  ⟨fun ⟨k, h⟩ => by cases k <;> simp [h], fun h => h.elim (⟨_, ·⟩) (⟨_, ·⟩)⟩

/-- R88 is checked before a command's own conditions. -/
theorem effect_wrongPort_iff {i : Instr} {s u : State} {st : Status} {v : Bool} {d : Half} (e : Effect i s u st v d) :
    st = .wrongPort ↔ s.active ∉ i.ports := by
  cases e with
  | wrongPort _ _ h => simp [h]
  | txqIsEmpty | txqIsFull | rxqIsEmpty | rxqIsFull | blkStatus =>
    exact iff_of_false nofun (not_not.mpr (mem_both _))
  | _ => simp [Instr.ports, *]

theorem effect_ne_illegal {i : Instr} {s u : State} {st : Status} {v : Bool} {d : Half} (e : Effect i s u st v d) :
    st ≠ .illegal := by
  cases e <;> nofun

/-- R161: on a port that may issue it, a command answers FULL exactly for a PUSH whose producer's view is full. -/
theorem effect_full_iff {i : Instr} {s u : State} {st : Status} {v : Bool} {d : Half} (e : Effect i s u st v d)
    (hp : s.active ∈ i.ports) :
    st = .full ↔ ∃ k x, i = QueueId.pushInstr k x ∧ (s.queue k).fullP s.cfg.rbN = true := by
  cases e with
  | wrongPort _ _ h => exact absurd hp h
  | _ => simp [exists_queueId_iff, QueueId.pushInstr, *]

/-- R162: on a port that may issue it, a command answers EMPTY exactly for a POP whose consumer's view is empty. -/
theorem effect_empty_iff {i : Instr} {s u : State} {st : Status} {v : Bool} {d : Half} (e : Effect i s u st v d)
    (hp : s.active ∈ i.ports) : st = .empty ↔ ∃ k, popsQueue k i = true ∧ (s.queue k).emptyC = true := by
  cases e with
  | wrongPort _ _ h => exact absurd hp h
  | _ => simp [popsQueue, *]

theorem code_eq_one_iff (st : Status) : st.code.toNat = 1 ↔ st = .full := by cases st <;> decide

theorem code_eq_two_iff (st : Status) : st.code.toNat = 2 ↔ st = .empty := by cases st <;> decide

theorem code_le_two_iff (st : Status) : st.code.toNat ≤ 2 ↔ st ≠ .illegal ∧ st ≠ .wrongPort := by
  cases st <;> decide

/-- Settles O9: a step is an ILLEGAL answer or a command's effect, and the effect's STATUS tells which check failed. -/
theorem firstFailingCheckIsReported : Obligations.FirstFailingCheckIsReported := by
  intro s t p w rest hp h
  rcases portStep_next h with ⟨hnil, -⟩ | ⟨c, rest', hcons, -, answer⟩
  · simp [hp] at hnil
  obtain ⟨rfl, rfl⟩ := List.cons.inj (hp.symm.trans hcons)
  rcases answer with ⟨hd, rfl⟩ | ⟨i, u, st, v, d, hd, e, rfl⟩
  · exact ⟨fun _ => reply_lastStatus (accept_active s p rest) _ _ _, fun i hi => by simp [hd] at hi⟩
  · obtain ⟨-, -, -, active, -⟩ := effect_host e
    rw [accept_active] at active
    dsimp only
    rw [reply_lastStatus active]
    refine ⟨fun hn => by simp [hd] at hn, fun j hj => ?_⟩
    obtain rfl : i = j := Option.some.inj (hd.symm.trans hj)
    refine ⟨fun hport => ?_, fun hport => ⟨?_, ?_, ?_⟩⟩
    · rw [(effect_wrongPort_iff e).mpr hport]
      rfl
    · simpa [code_eq_one_iff] using effect_full_iff e hport
    · simpa [code_eq_two_iff] using effect_empty_iff e hport
    · exact (code_le_two_iff st).mpr ⟨effect_ne_illegal e, fun hw => (effect_wrongPort_iff e).mp hw hport⟩

end Sys2Proof.Machine
end

section
/-! PROOFS. Family 40_dds.md. What each DDS command makes of a state (`State.ddsAnswered`), where repeated DDS.NEXTs
lead, and the arithmetic of their phases (`phaseAfter`). -/

namespace Sys2Proof.Machine

/-! ### Legal words of one UNIT and OP (R87) -/

theorem legalData_halfOperand {unit op : Nat} (h : (unit, op) ∈ halfOperandOps) :
    LegalData unit op fun _ => True := by
  rintro w rfl rfl
  rw [decode_ne_none_iff]
  simp only [h, true_or]

theorem legalData_noOperand {unit op : Nat} (h : (unit, op) ∈ noOperandOps) : LegalData unit op fun d => d = 0 := by
  have notHalf : ∀ e ∈ noOperandOps, e ∉ halfOperandOps ∧ e ≠ (4, 0) := by decide
  obtain ⟨hhalf, hbit⟩ := notHalf _ h
  rintro w rfl rfl
  rw [ne_eq, Prod.mk.injEq] at hbit
  rw [decode_ne_none_iff]
  tauto

/-! ### What a DDS command makes of a state -/

/-- A command that only CORE may issue answers WRONG_PORT on XPORT (R88). -/
theorem coreOnly_answersOnly_xport {i : Instr} (hi : i.ports = [.core]) {s : State} (h : s.active = .xport) :
    AnswersOnly i s (wordOf 4 0 0) :=
  wrongPortAnswersWrongPort.2.2 i s (by simp [hi, h])

/-- The state with its DDS replaced and a response given on the active port. -/
def State.ddsAnswered (s : State) (d : Dds) (w : Word) : State := { s with dds := d }.reply w

@[simp] theorem ddsAnswered_dds (s : State) (d : Dds) (w : Word) : (s.ddsAnswered d w).dds = d := by
  simp [State.ddsAnswered]
@[simp] theorem ddsAnswered_cfg (s : State) (d : Dds) (w : Word) : (s.ddsAnswered d w).cfg = s.cfg := by
  simp [State.ddsAnswered]
@[simp] theorem ddsAnswered_active (s : State) (d : Dds) (w : Word) : (s.ddsAnswered d w).active = s.active := by
  simp [State.ddsAnswered]
theorem ddsAnswered_core_responses {s : State} (h : s.active = .core) (d : Dds) (w : Word) :
    (s.ddsAnswered d w).core.responses = s.core.responses ++ [w] := by
  simp [State.ddsAnswered, h]

theorem ddsAnswered_onlyChanges (s : State) (d : Dds) (w : Word) : OnlyChanges [.dds] s (s.ddsAnswered d w) := by
  refine ⟨ddsAnswered_cfg s d w, fun part hp => ?_⟩
  cases part with
  | dds => simp at hp
  | _ => simp [SamePart, State.ddsAnswered]

theorem ddsAnswered_answered (s : State) (d : Dds) (w : Word) : Answered s (s.ddsAnswered d w) w := by
  refine ⟨?_, ?_, ?_, ?_, ?_, ?_⟩ <;> simp [State.ddsAnswered]

theorem exec_ddsSetPhase {s : State} (v : Half) (h : s.active = .core) :
    exec (.ddsSetPhase v) s = .next (s.ddsAnswered ⟨v, s.dds.inc⟩ (wordOf 0 0 0)) := by
  rw [effect_exec (.ddsSetPhase v s h), responseWord_eq_wordOf]
  rfl

theorem exec_ddsSetInc {s : State} (v : Half) (h : s.active = .core) :
    exec (.ddsSetInc v) s = .next (s.ddsAnswered ⟨s.dds.phase, v⟩ (wordOf 0 0 0)) := by
  rw [effect_exec (.ddsSetInc v s h), responseWord_eq_wordOf]
  rfl

/-- R102: the sample is the one at the advanced phase. -/
theorem exec_ddsNext {s : State} (h : s.active = .core) :
    exec .ddsNext s = .next (s.ddsAnswered ⟨nextPhase s.dds, s.dds.inc⟩
      (wordOf 0 0 (sampleAt s.cfg (nextPhase s.dds).toNat))) := by
  rw [effect_exec (.ddsNext s h), responseWord_eq_wordOf, wave_toNat]
  rfl

/-! ### Repeated DDS.NEXT -/

/-- The phase `k` increments of `v` after `p`. -/
def phaseAfter (p v : Half) (k : Nat) : Nat := (p.toNat + k * v.toNat) % 2 ^ 16

theorem phaseAfter_zero (p v : Half) : phaseAfter p v 0 = p.toNat := by
  have hp := p.isLt
  rw [phaseAfter]
  omega

/-- Starting one increment later is going one increment further. -/
theorem phaseAfter_nextPhase (d : Dds) (k : Nat) :
    phaseAfter (nextPhase d) d.inc k = phaseAfter d.phase d.inc (k + 1) := by
  rw [phaseAfter, phaseAfter, nextPhase_toNat, Nat.mod_add_mod]
  ring_nf

/-- Where `k` DDS.NEXTs lead. -/
theorem runCommands_ddsNext (k : Nat) {s : State} (h : s.active = .core) :
    ∃ u, runCommands (List.replicate k .ddsNext) s = .next u ∧ u.active = .core ∧ u.cfg = s.cfg ∧
      u.dds.inc = s.dds.inc ∧ u.dds.phase.toNat = phaseAfter s.dds.phase s.dds.inc k := by
  induction k generalizing s with
  | zero => exact ⟨s, rfl, h, rfl, rfl, (phaseAfter_zero _ _).symm⟩
  | succ k ih =>
    simpa [List.replicate_succ, runCommands, exec_ddsNext h, phaseAfter_nextPhase] using
      ih (s := s.ddsAnswered ⟨nextPhase s.dds, s.dds.inc⟩ _) (by simpa using h)

/-- After `k` DDS.NEXTs from phase `p` and increment `v`, the phase, and what one more does. -/
theorem ddsNext_after_ddsNexts (k : Nat) {p v : Half} {s : State} (h : s.active = .core) (hd : s.dds = ⟨p, v⟩) :
    ∃ u w, runCommands (List.replicate k .ddsNext) s = .next u ∧ u.dds.phase.toNat = phaseAfter p v k ∧
      exec .ddsNext u = .next w ∧ w.dds.phase.toNat = phaseAfter p v (k + 1) ∧
      w.core.responses = u.core.responses ++ [wordOf 0 0 (sampleAt s.cfg (phaseAfter p v (k + 1)))] := by
  obtain ⟨u, run, active, cfg, inc, phase⟩ := runCommands_ddsNext k h
  rw [hd] at inc phase
  have next : (nextPhase u.dds).toNat = phaseAfter p v (k + 1) := by
    rw [nextPhase_toNat, phase, inc, phaseAfter, phaseAfter, Nat.mod_add_mod, add_mul, one_mul, add_assoc]
  refine ⟨u, _, run, phase, exec_ddsNext active, by rw [ddsAnswered_dds, next], ?_⟩
  rw [ddsAnswered_core_responses active, next, cfg]

/-- Settles O12: the effect of SETPHASE, then that of one NEXT. -/
theorem setPhaseWritesThePhaseOnly : Obligations.SetPhaseWritesThePhaseOnly := by
  refine ⟨legalData_halfOperand (by decide), fun v => encode_toNat _, fun v s => coreOnly_answersOnly_xport rfl,
    fun v s h => ⟨_, exec_ddsSetPhase v h, by simp, by simp, ddsAnswered_onlyChanges _ _ _,
      ddsAnswered_answered _ _ _, _, exec_ddsNext (by simpa using h), ?_⟩⟩
  rw [ddsAnswered_core_responses (by simpa using h)]
  simp [nextPhase_toNat]

/-- Settles O13: the effect of SETINC, then `ddsNext_after_ddsNexts` from the state it leaves. -/
theorem setIncWritesTheIncrementOnly : Obligations.SetIncWritesTheIncrementOnly := by
  refine ⟨legalData_halfOperand (by decide), fun v => encode_toNat _, fun v s => coreOnly_answersOnly_xport rfl,
    fun v s h => ⟨_, exec_ddsSetInc v h, by simp, by simp, ddsAnswered_onlyChanges _ _ _,
      ddsAnswered_answered _ _ _, fun k => ?_⟩⟩
  obtain ⟨u, w, run, phase, next, -, response⟩ :=
    ddsNext_after_ddsNexts k ((ddsAnswered_active _ _ _).trans h) (ddsAnswered_dds s ⟨s.dds.phase, v⟩ (wordOf 0 0 0))
  rw [ddsAnswered_cfg] at response
  exact ⟨u, w, run, phase, next, response⟩

/-- Settles O14: the effect of NEXT; the index is inside the table as `waveIndex_lt` says. -/
theorem nextAdvancesThenMaps : Obligations.NextAdvancesThenMaps := by
  refine ⟨legalData_noOperand (by decide), encode_toNat _, fun s => coreOnly_answersOnly_xport rfl,
    fun s h => ⟨_, exec_ddsNext h, ?_, by simp, ddsAnswered_onlyChanges _ _ _, ?_, ?_⟩⟩
  · rw [ddsAnswered_dds, nextPhase_toNat]
  · rw [ddsAnswered_dds, ← waveIndex_eq]
    exact waveIndex_lt s.cfg _
  · rw [ddsAnswered_dds]
    exact ddsAnswered_answered _ _ _

/-! ### The period of the phases (R105) -/

theorem dvd_mul_iff_div_gcd_dvd {n : Nat} (hn : n ≠ 0) (j v : Nat) : n ∣ j * v ↔ n / Nat.gcd v n ∣ j := by
  rw [Nat.gcd_comm, ← ZMod.addOrderOf_coe v hn, addOrderOf_dvd_iff_nsmul_eq_zero, nsmul_eq_mul,
    ← ZMod.natCast_eq_zero_iff, Nat.cast_mul]

theorem phaseAfter_eq_iff (p v : Half) (k j : Nat) :
    phaseAfter p v k = phaseAfter p v (k + j) ↔ 2 ^ 16 / Nat.gcd v.toNat (2 ^ 16) ∣ j := by
  rw [phaseAfter, phaseAfter, add_mul, ← add_assoc, ← dvd_mul_iff_div_gcd_dvd (by decide)]
  exact Nat.left_modEq_add_iff

theorem phaseAfter_inc_zero {p v : Half} (hv : v.toNat = 0) (k : Nat) : phaseAfter p v k = p.toNat := by
  rw [phaseAfter, hv, mul_zero, add_zero, Nat.mod_eq_of_lt p.isLt]

theorem phaseAfter_inc_half {p v : Half} (hv : v.toNat = 2 ^ 15) (k : Nat) :
    phaseAfter p v (2 * k) = p.toNat ∧ phaseAfter p v (2 * k + 1) = (p.toNat + 2 ^ 15) % 2 ^ 16 := by
  have hp := p.isLt
  rw [phaseAfter, phaseAfter, hv]
  omega

/-- Half a turn of the phase is half the waveform table. -/
theorem index_add_half_turn (c : Config) (a : Nat) :
    (a + 2 ^ 15) / 2 ^ (16 - c.ddsTb) = a / 2 ^ (16 - c.ddsTb) + 2 ^ (c.ddsTb - 1) := by
  have htb := c.legal.1
  have half : 2 ^ 15 = 2 ^ (c.ddsTb - 1) * 2 ^ (16 - c.ddsTb) := by
    rw [← pow_add]
    congr 1
    omega
  rw [half, Nat.add_mul_div_right _ _ (by positivity)]

/-- Two phases half a turn apart index entries half the table apart. -/
theorem index_half_turn_apart (c : Config) {a : Nat} (ha : a < 2 ^ 16) :
    a / 2 ^ (16 - c.ddsTb) = (a + 2 ^ 15) % 2 ^ 16 / 2 ^ (16 - c.ddsTb) + 2 ^ (c.ddsTb - 1) ∨
      (a + 2 ^ 15) % 2 ^ 16 / 2 ^ (16 - c.ddsTb) = a / 2 ^ (16 - c.ddsTb) + 2 ^ (c.ddsTb - 1) := by
  rcases Nat.lt_or_ge a (2 ^ 15) with low | high
  · right
    rw [Nat.mod_eq_of_lt (by omega), index_add_half_turn]
  · left
    rw [← index_add_half_turn]
    congr 1
    omega

/-- A sequence of period 2 is constant exactly when its first two values are equal. -/
theorem constant_iff_of_period_two {α : Type} {f : Nat → α} (period : ∀ k, f (k + 2) = f k) :
    (∀ k, f (k + 1) = f k) ↔ f 0 = f 1 := by
  refine ⟨fun h => (h 0).symm, fun h k => ?_⟩
  induction k with
  | zero => exact h.symm
  | succ k ih => rw [period, ih]

/-- Settles O15: `ddsNext_after_ddsNexts` from the state the two settings leave, and the arithmetic of `phaseAfter`. -/
theorem nextSequenceIsPeriodic : Obligations.NextSequenceIsPeriodic := by
  intro p v s h phase
  refine ⟨fun k => ?_, phaseAfter_eq_iff p v, phaseAfter_inc_zero, fun hv => ?_⟩
  · obtain ⟨t, u, run, next⟩ := ddsNext_after_ddsNexts k (by simpa using h)
      (ddsAnswered_dds (s.ddsAnswered ⟨p, s.dds.inc⟩ (wordOf 0 0 0)) ⟨p, v⟩ (wordOf 0 0 0))
    rw [ddsAnswered_cfg, ddsAnswered_cfg] at next
    exact ⟨t, u, by simpa [runCommands, exec_ddsSetPhase p h, exec_ddsSetInc, h] using run, next⟩
  · intro index sample
    have alternate := phaseAfter_inc_half (p := p) hv
    have period (k : Nat) : sample (k + 2) = sample k := by
      have two : 2 ^ 16 / Nat.gcd v.toNat (2 ^ 16) ∣ 2 := by rw [hv]; decide
      exact congrArg (sampleAt s.cfg) ((phaseAfter_eq_iff p v k 2).mpr two).symm
    refine ⟨alternate, ?_, period, constant_iff_of_period_two period⟩
    obtain ⟨zero, one⟩ := alternate 0
    have apart := index_half_turn_apart s.cfg p.isLt
    rwa [← one, ← zero] at apart

end Sys2Proof.Machine
end

section
/-! PROOFS. Family 41_iir.md. What IIR.RESET and IIR.PROCESS make of a state, and the parameters the two filters read. -/

namespace Sys2Proof.Machine

/-! ### The frame and the answer of a command that writes the shaper -/

/-- Answering changes no unit. -/
theorem OnlyChanges.reply {parts : List Part} {s u : State} (h : OnlyChanges parts s u) (w : Word) :
    OnlyChanges parts s (u.reply w) := by
  obtain ⟨cfg, same⟩ := h
  refine ⟨(reply_cfg u w).trans cfg, fun part hp => ?_⟩
  have unit := same part hp
  cases part <;> simpa [SamePart] using unit

/-- A command that writes units only gives its one response on the active port. -/
theorem answered_reply {s u : State} (core : u.core = s.core) (xport : u.xport = s.xport)
    (active : u.active = s.active) (sched : u.sched = s.sched) (w : Word) : Answered s (u.reply w) w := by
  refine ⟨?_, ?_, ?_, ?_, ?_, ?_⟩ <;> simp [core, xport, active, sched]

theorem onlyChanges_iir (s : State) (b : Biquad) : OnlyChanges [.iir] s { s with iir := b } := by
  refine ⟨rfl, fun part hp => ?_⟩
  cases part with
  | iir => simp at hp
  | _ => rfl

/-! ### What a shaper command makes of a state -/

theorem exec_iirReset {s : State} (h : s.active = .core) :
    exec .iirReset s = .next ({ s with iir := ⟨0, 0⟩ }.reply (wordOf 0 0 0)) := by
  rw [effect_exec (.iirReset s h), responseWord_eq_wordOf]
  rfl

/-- R114: the answer is the section's output, R110's with the shaper's coefficients. -/
theorem exec_iirProcess {s : State} (x : Half) (h : s.active = .core) :
    exec (.iirProcess x) s = .next ({ s with iir := (biquad s.cfg s.cfg.iirCoef s.iir x.toInt).2 }.reply
      (wordOf 0 0 (outputSpec s.cfg s.cfg.iirCoef s.iir x.toInt % 2 ^ 16).toNat)) := by
  rw [effect_exec (.iirProcess x s h), responseWord_eq_wordOf, pat16_toNat, operandSample_eq_toInt, biquad_fst]
  rfl

theorem outputSpec_range (c : Config) (k : Coef) (st : Biquad) (x : Int) :
    -2 ^ 15 ≤ outputSpec c k st x ∧ outputSpec c k st x < 2 ^ 15 := by
  rw [outputSpec, ← quant_eq_quantSpec]
  exact quant_range c _

/-- With both delay registers 0 only the `b0` term is left of the accumulator. -/
theorem outputSpec_zero_state (c : Config) (k : Coef) (x : Int) :
    outputSpec c k ⟨0, 0⟩ x = quantSpec c (ovfSpec c (k.b0.toInt * x)) := by
  simp [outputSpec]

/-- Settles O16: the effect of RESET, then that of a second RESET and of a PROCESS from the zero registers it leaves. -/
theorem iirResetClearsTheShaperOnly : Obligations.IirResetClearsTheShaperOnly := by
  refine ⟨legalData_noOperand (by decide), encode_toNat _, fun s => coreOnly_answersOnly_xport rfl, fun s h => ?_⟩
  have active : ({ s with iir := ⟨0, 0⟩ }.reply (wordOf 0 0 0)).active = .core := by simpa using h
  refine ⟨_, exec_iirReset h, by simp, by simp, (onlyChanges_iir s _).reply _, answered_reply rfl rfl rfl rfl _,
    ⟨_, exec_iirReset active, by simp⟩, fun x => ⟨_, exec_iirProcess x active, ?_⟩⟩
  rw [reply_core_responses, if_pos active, reply_cfg, reply_iir, outputSpec_zero_state]

/-- Settles O17: the effect of PROCESS, with `biquad_snd` for the delay registers. -/
theorem iirProcessStepsTheShaper : Obligations.IirProcessStepsTheShaper := by
  refine ⟨legalData_halfOperand (by decide), fun x => encode_toNat _, fun x s => coreOnly_answersOnly_xport rfl,
    fun x s h => ⟨outputSpec_range .., _, exec_iirProcess x h, ?_, (onlyChanges_iir s _).reply _,
      answered_reply rfl rfl rfl rfl _⟩⟩
  rw [reply_iir]
  exact biquad_snd ..

/-! ### What the filters read of the configuration (R116) -/

/-- Two configurations agree on the parameters that R111 and R112 name. -/
structure SameFilter (c c' : Config) : Prop where
  frac : c.iirF = c'.iirF
  round : c.iirRound = c'.iirRound
  out : c.iirOut = c'.iirOut
  stateOvf : c.iirStateOvf = c'.iirStateOvf

theorem SameFilter.biquad_eq {c c' : Config} (h : SameFilter c c') (k : Coef) (st : Biquad) (x : Int) :
    biquad c k st x = biquad c' k st x := by
  obtain ⟨frac, round, out, stateOvf⟩ := h
  have hovf (v : Int) : ovf c v = ovf c' v := by rw [ovf, ovf, stateOvf]
  have hquant (v : Int) : quant c v = quant c' v := by rw [quant, quant, quantShift, quantShift, frac, round, out]
  simp only [biquad, biquadOut, biquadState, hovf, hquant]

theorem partner_congr {c c' : Config} (h : c.demodLag = c'.demodLag) (d : Vector Half demodDepth) :
    partner c d = partner c' d := by
  simp only [partner, h]

theorem SameFilter.demodFilter_eq {c c' : Config} (h : SameFilter c c') (coef : c.demodCoef = c'.demodCoef)
    (lag : c.demodLag = c'.demodLag) (m : Demod) (x : Half) : demodFilter c m x = demodFilter c' m x := by
  rw [demodFilter, demodFilter, h.biquad_eq, coef, partner_congr lag]

theorem decision_congr {c c' : Config} (thresh : c.demodThresh = c'.demodThresh) (pol : c.demodPol = c'.demodPol)
    (y : Int) : decision c y = decision c' y := by
  rw [decision, decision, thresh, pol]

/-- Settles O18: both commands read the configuration through `biquad`, `demodFilter` and `decision` only. -/
theorem filterOutputsAreDeterminedByTheirInstance : Obligations.FilterOutputsAreDeterminedByTheirInstance := by
  intro s s' t x h h' frac round out stateOvf
  have same : SameFilter s.cfg s'.cfg := ⟨frac, round, out, stateOvf⟩
  constructor
  · intro coef iir run
    obtain rfl := Host.Outcome.next.inj ((effect_exec (.iirProcess x s h)).symm.trans run)
    refine ⟨_, effect_exec (.iirProcess x s' h'), ?_, ?_⟩
    · simp [same.biquad_eq, coef, iir]
    · simp [reply_lastResponse, h, h', same.biquad_eq, coef, iir]
  · intro coef lag thresh pol demod run
    obtain rfl := Host.Outcome.next.inj ((effect_exec (.demodProcess x s h)).symm.trans run)
    refine ⟨_, effect_exec (.demodProcess x s' h'), ?_, ?_⟩
    · simp [same.demodFilter_eq coef lag, demod]
    · simp [reply_lastResponse, h, h', same.demodFilter_eq coef lag, decision_congr thresh pol, demod]

end Sys2Proof.Machine
end

section
/-! PROOFS. Family 42_fsk_demod.md. What DEMOD.PROCESS makes of a state, and the delay line and the filter after any
number of calls from reset. -/

namespace Sys2Proof.Machine

/-! ### The scaled product (R131) -/

/-- A product of two int16 is at most 2^30, so clamping its quotient changes nothing below 2^30. -/
theorem scaleSpec_mul_ne_iff (a b : Half) :
    scaleSpec (a.toInt * b.toInt) ≠ a.toInt * b.toInt / 2 ^ 15 ↔ 2 ^ 30 ≤ a.toInt * b.toInt := by
  have lo := BitVec.le_toInt_mul_toInt (x := a) (y := b)
  have hi := BitVec.toInt_mul_toInt_le (x := a) (y := b)
  rw [scaleSpec]
  omega

/-- Only -32768 has absolute value 2^15 among the int16. -/
theorem abs_toInt_le_of_ne {a : Half} (ha : a ≠ 0x8000) : |a.toInt| ≤ 2 ^ 15 - 1 := by
  have lo := a.le_toInt
  have hi := a.toInt_lt
  have ne : a.toInt ≠ -2 ^ 15 := fun e => ha (BitVec.eq_of_toInt_eq e)
  rw [abs_le]
  omega

theorem abs_toInt_le (a : Half) : |a.toInt| ≤ 2 ^ 15 := by
  have lo := a.le_toInt
  have hi := a.toInt_lt
  rw [abs_le]
  omega

theorem mul_toInt_lt_of_ne {a : Half} (ha : a ≠ 0x8000) (b : Half) : a.toInt * b.toInt < 2 ^ 30 :=
  calc a.toInt * b.toInt
    _ ≤ |a.toInt| * |b.toInt| := by rw [← abs_mul]; exact le_abs_self _
    _ ≤ (2 ^ 15 - 1) * 2 ^ 15 := mul_le_mul (abs_toInt_le_of_ne ha) (abs_toInt_le b) (abs_nonneg _) (by norm_num)
    _ < 2 ^ 30 := by norm_num

/-- One product alone reaches 2^30, so one product alone saturates. -/
theorem scaleSpec_saturates_iff (a b : Half) :
    scaleSpec (a.toInt * b.toInt) ≠ a.toInt * b.toInt / 2 ^ 15 ↔ a = 0x8000 ∧ b = 0x8000 := by
  rw [scaleSpec_mul_ne_iff]
  constructor
  · intro h
    by_contra hn
    rcases not_and_or.mp hn with ha | hb
    · exact absurd (mul_toInt_lt_of_ne ha b) (not_lt.mpr h)
    · exact absurd (mul_toInt_lt_of_ne hb a) (not_lt.mpr (by rwa [mul_comm]))
  · rintro ⟨rfl, rfl⟩
    decide

/-! ### What DEMOD.PROCESS makes of a state (R130, R132) -/

theorem demodFilter_eq_biquad (c : Config) (m : Demod) (x : Half) :
    demodFilter c m x = biquad c c.demodCoef m.f (scaleSpec (x.toInt * (partner c m.d).toInt)) := by
  rw [demodFilter, scale_eq_scaleSpec, operandSample_eq_toInt, int16_eq_toInt]

theorem exec_demodProcess {s : State} (x : Half) (h : s.active = .core) :
    exec (.demodProcess x) s =
      .next ({ s with demod := ⟨pushDelay s.demod.d x, (demodFilter s.cfg s.demod x).2⟩ }.reply
        (wordOf 0 0 (decideSpec s.cfg (demodFilter s.cfg s.demod x).1))) := by
  rw [effect_exec (.demodProcess x s h), responseWord_eq_wordOf, decision_toNat]
  rfl

theorem onlyChanges_demod (s : State) (m : Demod) : OnlyChanges [.demod] s { s with demod := m } := by
  refine ⟨rfl, fun part hp => ?_⟩
  cases part with
  | demod => simp at hp
  | _ => rfl

theorem answered_demod (s : State) (m : Demod) (w : Word) : Answered s ({ s with demod := m }.reply w) w :=
  answered_reply rfl rfl rfl rfl w

/-- Settles O19: the effect of PROCESS, with `biquad_fst` and `biquad_snd` for the filter and the entries of
`pushDelay` for the line. -/
theorem demodProcessCorrelatesFiltersDecides : Obligations.DemodProcessCorrelatesFiltersDecides := by
  refine ⟨legalData_halfOperand (by decide), fun x => encode_toNat _, fun x s => coreOnly_answersOnly_xport rfl,
    scaleSpec_saturates_iff, fun x s h => ⟨partner s.cfg s.demod.d, partner_eq s.cfg s.demod.d, _,
      exec_demodProcess x h, ?_, ?_, fun k hk => ?_, (onlyChanges_demod s _).reply _, ?_⟩⟩
  · rw [reply_demod, demodFilter_eq_biquad]
    exact biquad_snd ..
  · rw [reply_demod, pushDelay_zero]
  · rw [reply_demod, pushDelay_succ s.demod.d x k hk]
  · rw [← biquad_fst, ← demodFilter_eq_biquad]
    exact answered_demod s _ _

/-! ### The delay line after a list of inputs (R130, R133) -/

/-- The line holds the last of these inputs, newest first, and 0 where there was none. -/
def LineHolds (d : Vector Half demodDepth) (xs : List Half) : Prop :=
  ∀ k, k < 22 → d[k]? = some (xs.reverse.getD k 0)

theorem lineHolds_reset : LineHolds (Vector.replicate demodDepth 0) [] := by
  intro k hk
  simp [hk]

theorem LineHolds.push {d : Vector Half demodDepth} {xs : List Half} (h : LineHolds d xs) (x : Half) :
    LineHolds (pushDelay d x) (xs ++ [x]) := by
  intro k hk
  rw [List.reverse_concat]
  cases k with
  | zero => exact pushDelay_zero d x
  | succ k => rw [pushDelay_succ d x k (by omega), h k (by omega), List.getD_cons_succ]

theorem LineHolds.partner_eq {d : Vector Half demodDepth} {xs : List Half} (h : LineHolds d xs) (c : Config) :
    partner c d = xs.reverse.getD (c.demodLag - 1) 0 :=
  Option.some.inj ((Machine.partner_eq c d).symm.trans (h _ (lag_lt c)))

/-- Before call DEMOD_LAG + 1 the partner is an entry that no input has reached. -/
theorem LineHolds.partner_eq_zero {d : Vector Half demodDepth} {xs : List Half} (h : LineHolds d xs) {c : Config}
    (early : xs.length < c.demodLag) : partner c d = 0 := by
  rw [h.partner_eq, List.getD_eq_default]
  simpa using Nat.le_sub_one_of_lt early

/-- From call DEMOD_LAG + 1 on the partner is the input DEMOD_LAG calls before it. -/
theorem reverse_getD_lag (c : Config) {xs : List Half} (late : c.demodLag ≤ xs.length) :
    some (xs.reverse.getD (c.demodLag - 1) 0) = xs[xs.length - c.demodLag]? := by
  obtain ⟨-, -, -, ⟨pos, -⟩, -⟩ := c.legal
  rw [List.getD_reverse _ (by omega), List.getD_eq_getElem _ _ (by omega), ← List.getElem?_eq_getElem]
  congr 1
  omega

/-! ### The run of DEMOD.PROCESS commands from reset (R133) -/

/-- A filter at 0 stays at 0 while the partner is 0. -/
theorem demodFilter_of_partner_zero {c : Config} {m : Demod} (hf : m.f = ⟨0, 0⟩) (hp : partner c m.d = 0) (x : Half) :
    demodFilter c m x = (0, ⟨0, 0⟩) := by
  have product : scaleSpec (x.toInt * (0 : Half).toInt) = 0 := by simp [scaleSpec]
  rw [demodFilter_eq_biquad, hf, hp, product, biquad_zero]

theorem runCommands_append {is : List Instr} {s t : State} (h : runCommands is s = .next t) (js : List Instr) :
    runCommands (is ++ js) s = runCommands js t := by
  induction is generalizing s with
  | nil => rw [List.nil_append, Host.Outcome.next.inj h]
  | cons i is ih =>
    rw [List.cons_append, runCommands]
    rw [runCommands] at h
    cases e : exec i s with
    | next u => rw [e] at h; exact ih h
    | _ => rw [e] at h; cases h

/-- What holds after DEMOD.PROCESS commands with the operands `xs` from reset under `c`. -/
structure Demodulated (c : Config) (xs : List Half) (t : State) : Prop where
  cfg : t.cfg = c
  active : t.active = .core
  line : LineHolds t.demod.d xs
  warmUp : xs.length ≤ c.demodLag →
    t.demod.f = ⟨0, 0⟩ ∧ t.core.responses = List.replicate xs.length (wordOf 0 0 (decideSpec c 0))

theorem demodulated_reset (c : Config) : Demodulated c [] (State.resetWith c) :=
  ⟨rfl, rfl, lineHolds_reset, fun _ => ⟨rfl, rfl⟩⟩

theorem Demodulated.process {c : Config} {xs : List Half} {t : State} (h : Demodulated c xs t) (x : Half) :
    ∃ u, exec (.demodProcess x) t = .next u ∧ Demodulated c (xs ++ [x]) u := by
  obtain ⟨rfl, active, line, warmUp⟩ := h
  refine ⟨_, exec_demodProcess x active, reply_cfg .., by simpa using active, ?_, fun early => ?_⟩
  · rw [reply_demod]
    exact line.push x
  · rw [List.length_append, List.length_singleton] at early
    obtain ⟨filter, responses⟩ := warmUp (by omega)
    rw [demodFilter_of_partner_zero filter (line.partner_eq_zero early)]
    simp [active, responses, List.replicate_succ']

theorem runCommands_demodProcess (c : Config) (xs : List Half) :
    ∃ t, runCommands (xs.map .demodProcess) (State.resetWith c) = .next t ∧ Demodulated c xs t := by
  induction xs using List.reverseRecOn with
  | nil => exact ⟨_, rfl, demodulated_reset c⟩
  | append_singleton xs x ih =>
    obtain ⟨t, run, ht⟩ := ih
    obtain ⟨u, next, hu⟩ := ht.process x
    refine ⟨u, ?_, hu⟩
    rw [List.map_append, runCommands_append run, List.map_singleton, runCommands, next]
    rfl

/-- Settles O20: `runCommands_demodProcess`, and `reverse_getD_lag` for the partner of the next call. -/
theorem demodWarmUp : Obligations.DemodWarmUp := by
  intro c xs
  obtain ⟨t, run, -, active, line, warmUp⟩ := runCommands_demodProcess c xs
  refine ⟨t, run, active, warmUp, line, fun late => ?_⟩
  rw [line _ (lag_lt c), reverse_getD_lag c late]

end Sys2Proof.Machine
end

section
/-! PROOFS. Family 43_framing.md. What one FRAME.PROCESS makes of the decoder and of a state, what a list of them
answers (`Frame.answers`), and where in the ten calls of a frame the decoder stands (`FrameState.callsIn`). -/

namespace Sys2Proof.Machine

/-! ### The decoder after one bit, state by state (R142 to R145) -/

theorem process_idle_falling {f : Frame} (h : f.st = .idle) (hp : f.prev = true) :
    f.process false = ⟨.start, 0, f.out, false⟩ := by
  simp [Frame.process, Frame.advance, h, hp]

theorem process_idle_stays {f : Frame} {b : Bool} (h : f.st = .idle) (hb : ¬ (f.prev = true ∧ b = false)) :
    f.process b = ⟨.idle, f.acc, f.out, b⟩ := by
  rw [Frame.process, Frame.advance, h]
  simp only [if_neg hb, h]

theorem process_idle_cases {f : Frame} (h : f.st = .idle) (b : Bool) :
    f.process b = ⟨.start, 0, f.out, b⟩ ∨ f.process b = ⟨.idle, f.acc, f.out, b⟩ := by
  by_cases falling : f.prev = true ∧ b = false
  · obtain ⟨hp, rfl⟩ := falling
    exact .inl (process_idle_falling h hp)
  · exact .inr (process_idle_stays h falling)

theorem process_start {f : Frame} (h : f.st = .start) (b : Bool) :
    f.process b = ⟨.data 1, accWith f.acc 0 b, f.out, b⟩ := by
  simp [Frame.process, Frame.advance, h]

theorem process_data {f : Frame} {i : Fin 8} (h : f.st = .data i) (b : Bool) :
    f.process b = ⟨afterData i, accWith f.acc i b, f.out, b⟩ := by
  simp [Frame.process, Frame.advance, h]

theorem process_stop {f : Frame} (h : f.st = .stop) (b : Bool) : f.process b = ⟨.idle, f.acc, f.acc, b⟩ := by
  simp [Frame.process, Frame.advance, h]

@[simp] theorem process_prev (f : Frame) (b : Bool) : (f.process b).prev = b := rfl

theorem process_out_of_ne_stop {f : Frame} (h : f.st ≠ .stop) (b : Bool) : (f.process b).out = f.out := by
  cases hs : f.st with
  | idle => rcases process_idle_cases hs b with e | e <;> rw [e]
  | start => rw [process_start hs]
  | data i => rw [process_data hs]
  | stop => exact absurd hs h

/-- R146: outside IDLE the previous bit is not read. -/
theorem process_withPrev {f : Frame} (h : f.st ≠ .idle) (p b : Bool) :
    ({ f with prev := p } : Frame).process b = f.process b := by
  obtain ⟨st, acc, out, prev⟩ := f
  cases st with
  | idle => exact absurd rfl h
  | _ => rfl

/-! ### The answer and the effect of one FRAME.PROCESS (R141, R147) -/

theorem emits_eq (f : Frame) : f.emits = decide (f.st = .stop) := rfl

theorem emits_iff (f : Frame) : f.emits = true ↔ f.st = .stop := beq_iff_eq

/-- What a FRAME.PROCESS of the decoder `f` answers, whatever its bit. -/
def Frame.answer (f : Frame) : Word := if f.emits then wordOf 0 1 f.acc.toNat else wordOf 0 0 0

theorem answer_of_stop {f : Frame} (h : f.st = .stop) : f.answer = wordOf 0 1 f.acc.toNat :=
  if_pos ((emits_iff f).mpr h)

theorem answer_of_ne_stop {f : Frame} (h : f.st ≠ .stop) : f.answer = wordOf 0 0 0 :=
  if_neg (mt (emits_iff f).mp h)

theorem answer_valid (f : Frame) : f.answer.toNat / 2 ^ 16 % 2 = f.emits.toNat := by
  have hacc := f.acc.isLt
  cases he : f.emits
  · simp [Frame.answer, he, wordOf]
  · simp only [Frame.answer, he, if_true, wordOf, BitVec.toNat_ofNat, Bool.toNat_true]
    omega

/-- The state after a FRAME.PROCESS on CORE. -/
def State.framed (s : State) (b : Bool) : State := { s with frame := s.frame.process b }.reply s.frame.answer

@[simp] theorem framed_frame (s : State) (b : Bool) : (s.framed b).frame = s.frame.process b := reply_frame ..
@[simp] theorem framed_active (s : State) (b : Bool) : (s.framed b).active = s.active := reply_active ..
theorem framed_lastResponse {s : State} (h : s.active = .core) (b : Bool) :
    (s.framed b).lastResponse .core = s.frame.answer :=
  reply_lastResponse (by exact h) _

theorem framed_core_responses {s : State} (h : s.active = .core) (b : Bool) :
    (s.framed b).core.responses = s.core.responses ++ [s.frame.answer] := by
  simp [State.framed, h]

theorem onlyChanges_frame (s : State) (f : Frame) : OnlyChanges [.frame] s { s with frame := f } := by
  refine ⟨rfl, fun part hp => ?_⟩
  cases part with
  | frame => simp at hp
  | _ => rfl

theorem framed_onlyChanges (s : State) (b : Bool) : OnlyChanges [.frame] s (s.framed b) :=
  (onlyChanges_frame s _).reply _

theorem framed_answered (s : State) (b : Bool) : Answered s (s.framed b) s.frame.answer :=
  answered_reply rfl rfl rfl rfl _

theorem exec_frameProcess {s : State} (b : Bool) (h : s.active = .core) :
    exec (.frameProcess b) s = .next (s.framed b) := by
  rw [effect_exec (.frameProcess b s h), responseWord_eq_wordOf, State.framed]
  by_cases stop : s.frame.st = .stop
  · rw [answer_of_stop stop, (emits_iff _).mpr stop, if_pos rfl, process_stop stop,
      BitVec.toNat_setWidth_of_le (by decide)]
    rfl
  · rw [answer_of_ne_stop stop, Bool.eq_false_iff.mpr (mt (emits_iff _).mp stop)]
    rfl

/-- R87: the bit operand. -/
theorem legalData_bitOperand : LegalData 4 0 fun d => d < 2 := by
  intro w unit op
  rw [decode_ne_none_iff, unit, op]
  simp [halfOperandOps, noOperandOps]

/-- Settles O21: the equation of `Frame.process` for each state, with `accWith_getLsbD` for the accumulator's bits. -/
theorem frameProcessFollowsTheTable : Obligations.FrameProcessFollowsTheTable := by
  refine ⟨legalData_bitOperand, fun b => encode_toNat _, fun b s => coreOnly_answersOnly_xport rfl,
    fun b s h => ⟨_, exec_frameProcess b h, framed_onlyChanges s b, ?_⟩⟩
  have answered := framed_answered s b
  rw [framed_frame]
  refine ⟨process_prev .., fun hs => ?_, fun hs hp hb => ?_, fun hs stays => ?_, fun hs => ?_, fun i hs => ?_,
    fun hs => ?_⟩
  · rw [answer_of_ne_stop hs] at answered
    exact ⟨process_out_of_ne_stop hs b, answered⟩
  · rw [hb, process_idle_falling hs hp]
    exact ⟨rfl, rfl⟩
  · rw [process_idle_stays hs stays]
    exact ⟨rfl, rfl⟩
  · rw [process_start hs]
    exact ⟨rfl, fun j hj => accWith_getLsbD _ 0 j b (by decide) hj⟩
  · rw [process_data hs]
    exact ⟨rfl, fun j hj => accWith_getLsbD _ i j b i.isLt hj⟩
  · rw [answer_of_stop hs] at answered
    rw [process_stop hs]
    exact ⟨rfl, rfl, rfl, answered⟩

/-- Settles O22: `process_withPrev`; the answer does not read the previous bit in any state. -/
theorem onlyIdleReadsThePreviousBit : Obligations.OnlyIdleReadsThePreviousBit := by
  refine ⟨fun c => rfl, fun b s t h run => ?_, fun b prev s h hs => ?_⟩
  · obtain rfl := Host.Outcome.next.inj ((exec_frameProcess b h).symm.trans run)
    rw [framed_frame, process_prev]
  · rw [exec_frameProcess b h, exec_frameProcess b (by exact h), State.framed, State.framed, process_withPrev hs]
    rfl

/-! ### A list of bits -/

/-- What FRAME.PROCESS answers to a list of bits, from the decoder `f`. -/
def Frame.answers (f : Frame) : List Bool → List Word
  | [] => []
  | b :: bits => f.answer :: (f.process b).answers bits

theorem answers_append (f : Frame) (bits bits' : List Bool) :
    f.answers (bits ++ bits') = f.answers bits ++ (bits.foldl Frame.process f).answers bits' := by
  induction bits generalizing f with
  | nil => rfl
  | cons b bits ih => simp [Frame.answers, ih]

theorem OnlyChanges.trans {parts : List Part} {s t u : State} (h : OnlyChanges parts s t)
    (h' : OnlyChanges parts t u) : OnlyChanges parts s u := by
  obtain ⟨cfg, same⟩ := h
  obtain ⟨cfg', same'⟩ := h'
  refine ⟨cfg'.trans cfg, fun part hp => ?_⟩
  have first := same part hp
  have second := same' part hp
  cases part <;> exact Eq.trans second first

/-- Where a list of FRAME.PROCESS commands on CORE leads, and what they answer. -/
theorem runCommands_frameProcess (bits : List Bool) {s : State} (h : s.active = .core) :
    ∃ t, runCommands (bits.map .frameProcess) s = .next t ∧ t.active = .core ∧ OnlyChanges [.frame] s t ∧
      t.frame = bits.foldl Frame.process s.frame ∧
      t.core.responses = s.core.responses ++ s.frame.answers bits := by
  induction bits generalizing s with
  | nil => exact ⟨s, rfl, h, ⟨rfl, fun part _ => by cases part <;> rfl⟩, rfl, (List.append_nil _).symm⟩
  | cons b bits ih =>
    obtain ⟨t, run, active, changes, frame, responses⟩ := ih (s := s.framed b) (by simpa using h)
    refine ⟨t, ?_, active, (framed_onlyChanges s b).trans changes, by simpa using frame, ?_⟩
    · rw [List.map_cons, runCommands, exec_frameProcess b h]
      exact run
    · rw [responses, framed_core_responses h, framed_frame, List.append_assoc]
      rfl

/-! ### The ten calls of a frame (R149) -/

/-- How many of a frame's ten calls the decoder has taken. -/
def FrameState.callsIn : FrameState → Nat
  | .idle => 0
  | .start => 1
  | .data i => i.val + 1
  | .stop => 9

theorem callsIn_le (st : FrameState) : st.callsIn ≤ 9 := by
  cases st with
  | data i => exact Nat.le_trans i.isLt (by decide)
  | _ => decide

theorem callsIn_afterData (i : Fin 8) : (afterData i).callsIn = i.val + 2 := by
  have hi := i.isLt
  rw [afterData]
  split
  · rfl
  · rw [FrameState.callsIn]
    omega

/-- A call moves on by at most one, and an emission goes back by nine. -/
theorem process_callsIn (f : Frame) (b : Bool) :
    (f.process b).st.callsIn + 10 * f.emits.toNat ≤ f.st.callsIn + 1 := by
  rw [emits_eq]
  cases hs : f.st with
  | idle => rcases process_idle_cases hs b with e | e <;> simp [e, FrameState.callsIn]
  | start => simp [process_start hs, FrameState.callsIn]
  | data i =>
    rw [process_data hs, callsIn_afterData]
    simp [FrameState.callsIn]
  | stop => simp [process_stop hs, FrameState.callsIn]

/-- R149 item 4, for any number of calls: ten calls for each byte, but for those of the frame already begun. -/
theorem emitted_le (f : Frame) (bits : List Bool) :
    10 * ((f.answers bits).filter fun r => r.toNat / 2 ^ 16 % 2 == 1).length ≤ f.st.callsIn + bits.length := by
  induction bits generalizing f with
  | nil => exact Nat.zero_le _
  | cons b bits ih =>
    have step := process_callsIn f b
    have rest := ih (f.process b)
    rw [Frame.answers, List.filter_cons, answer_valid, List.length_cons]
    cases he : f.emits with
    | false =>
      rw [he, Bool.toNat_false] at step
      rw [Bool.toNat_false, if_neg (by decide)]
      omega
    | true =>
      rw [he, Bool.toNat_true] at step
      rw [Bool.toNat_true, if_pos (by decide), List.length_cons]
      omega

/-- Until a frame's tenth call nothing is emitted. -/
theorem answers_before_tenth {f : Frame} {bits : List Bool} (h : f.st.callsIn + bits.length ≤ 9) :
    f.answers bits = List.replicate bits.length (wordOf 0 0 0) := by
  induction bits generalizing f with
  | nil => rfl
  | cons b bits ih =>
    rw [List.length_cons] at h
    have notStop : f.st ≠ .stop := fun stop => by
      rw [stop, FrameState.callsIn] at h
      omega
    have step := process_callsIn f b
    rw [Frame.answers, answer_of_ne_stop notStop, ih (by omega), List.length_cons, List.replicate_succ]

/-! ### The byte of a frame (R149) -/

/-- The accumulator after the first `n` data bits of `v`, least significant first. -/
def accOfBits (v : Byte) (n : Nat) : Byte := (List.range n).foldl (fun acc i => accWith acc i (v.getLsbD i)) 0

theorem accOfBits_succ (v : Byte) (n : Nat) : accOfBits v (n + 1) = accWith (accOfBits v n) n (v.getLsbD n) := by
  simp [accOfBits, List.range_succ]

theorem accOfBits_getLsbD (v : Byte) {n : Nat} (hn : n ≤ 8) {j : Nat} (hj : j < n) :
    (accOfBits v n).getLsbD j = v.getLsbD j := by
  induction n with
  | zero => exact absurd hj (Nat.not_lt_zero j)
  | succ n ih =>
    rw [accOfBits_succ, accWith_getLsbD _ _ _ _ hn (by omega)]
    split_ifs with e
    · rw [e]
    · exact ih (by omega) (by omega)

theorem accOfBits_eight (v : Byte) : accOfBits v 8 = v :=
  BitVec.eq_of_getLsbD_eq fun _ hj => accOfBits_getLsbD v (Nat.le_refl 8) hj

/-- Eight data bits lead from START through DATA(1) to DATA(7) to STOP. -/
theorem foldl_process_dataBits (v out : Byte) (p : Bool) :
    ((List.range 8).map v.getLsbD).foldl Frame.process ⟨.start, 0, out, p⟩ = ⟨.stop, v, out, v.getLsbD 7⟩ :=
  calc ((List.range 8).map v.getLsbD).foldl Frame.process ⟨.start, 0, out, p⟩
    _ = ⟨.stop, accOfBits v 8, out, v.getLsbD 7⟩ := rfl
    _ = ⟨.stop, v, out, v.getLsbD 7⟩ := by rw [accOfBits_eight]

/-- A frame up to its stop bit: the start bit, then the data bits of `v`, least significant first. -/
def startAndData (v : Byte) : List Bool := false :: (List.range 8).map v.getLsbD

theorem foldl_process_startAndData {f : Frame} (h : f.st = .idle) (hp : f.prev = true) (v : Byte) :
    (startAndData v).foldl Frame.process f = ⟨.stop, v, f.out, v.getLsbD 7⟩ := by
  rw [startAndData, List.foldl_cons, process_idle_falling h hp, foldl_process_dataBits]

theorem foldl_process_frame {f : Frame} (h : f.st = .idle) (hp : f.prev = true) (v : Byte) (stop : Bool) :
    (startAndData v ++ [stop]).foldl Frame.process f = ⟨.idle, v, v, stop⟩ := by
  rw [List.foldl_append, foldl_process_startAndData h hp]
  exact process_stop rfl stop

theorem answers_frame {f : Frame} (h : f.st = .idle) (hp : f.prev = true) (v : Byte) (stop : Bool) :
    f.answers (startAndData v ++ [stop]) = List.replicate 9 (wordOf 0 0 0) ++ [wordOf 0 1 v.toNat] := by
  have nine : (startAndData v).length = 9 := by simp [startAndData]
  rw [answers_append, foldl_process_startAndData h hp, answers_before_tenth (by rw [h, nine]; decide), nine,
    Frame.answers, Frame.answers, answer_of_stop rfl]

/-! ### A line that does not change (R149) -/

/-- In IDLE a bit equal to the previous one changes nothing, however often it comes. -/
theorem foldl_process_steady {f : Frame} (h : f.st = .idle) (n : Nat) :
    (List.replicate n f.prev).foldl Frame.process f = f := by
  have steady : f.process f.prev = f := by
    rw [process_idle_stays h (by simp), ← h]
  induction n with
  | zero => rfl
  | succ n ih => rw [List.replicate_succ, List.foldl_cons, steady, ih]

theorem foldl_process_zeros_ones (v : Byte) (zeros ones : Nat) :
    (List.replicate zeros false ++ List.replicate (ones + 1) true).foldl Frame.process ⟨.idle, v, v, false⟩ =
      ⟨.idle, v, v, true⟩ := by
  rw [List.foldl_append, foldl_process_steady (f := ⟨.idle, v, v, false⟩) rfl, List.replicate_succ, List.foldl_cons,
    process_idle_stays rfl (by simp)]
  exact foldl_process_steady (f := ⟨.idle, v, v, true⟩) rfl ones

theorem exec_falling {s : State} (h : s.active = .core) (hs : s.frame.st = .idle) (hp : s.frame.prev = true) :
    ∃ t, exec (.frameProcess false) s = .next t ∧ t.frame.st = .start :=
  ⟨_, exec_frameProcess false h, by rw [framed_frame, process_idle_falling hs hp]⟩

/-- R149 items 1 to 3: the byte on the tenth call, and what starts the next frame. -/
theorem frame_emitsItsByte {s : State} (v : Byte) (stop : Bool) (h : s.active = .core) (hs : s.frame.st = .idle)
    (hp : s.frame.prev = true) :
    ∃ t, runCommands ((startAndData v ++ [stop]).map .frameProcess) s = .next t ∧ t.active = .core ∧
      t.core.responses = s.core.responses ++ (List.replicate 9 (wordOf 0 0 0) ++ [wordOf 0 1 v.toNat]) ∧
      t.frame = ⟨.idle, v, v, stop⟩ ∧ OnlyChanges [.frame] s t := by
  obtain ⟨t, run, active, changes, frame, responses⟩ := runCommands_frameProcess (startAndData v ++ [stop]) h
  rw [foldl_process_frame hs hp] at frame
  rw [answers_frame hs hp] at responses
  exact ⟨t, run, active, responses, frame, changes⟩

/-- Settles O23: `frame_emitsItsByte` and `foldl_process_steady` for items 1 to 3; ten calls from at most nine into a
frame are fewer than `emitted_le` asks for two bytes; only STOP answers VALID, and it goes to IDLE. -/
theorem framingArithmetic : Obligations.FramingArithmetic := by
  refine ⟨fun s v stop h hs hp => ?_, fun s bits h len => ?_, fun b s t h run valid => ?_⟩
  · obtain ⟨t, run, active, responses, frame, changes⟩ := frame_emitsItsByte v stop h hs hp
    refine ⟨t, run, responses, frame, changes, fun one => ?_, fun zero zeros ones => ⟨?_, ?_⟩⟩
    · exact exec_falling active (by rw [frame]) (by rw [frame, one])
    · obtain ⟨u, run', -, -, frame', -⟩ := runCommands_frameProcess (List.replicate zeros false) active
      rw [frame, zero, foldl_process_steady (f := ⟨.idle, v, v, false⟩) rfl] at frame'
      rw [List.map_replicate] at run'
      exact ⟨u, run', by rw [frame']⟩
    · obtain ⟨u, run', active', -, frame', -⟩ :=
        runCommands_frameProcess (List.replicate zeros false ++ List.replicate (ones + 1) true) active
      rw [frame, zero, foldl_process_zeros_ones] at frame'
      rw [List.map_append, List.map_replicate, List.map_replicate] at run'
      obtain ⟨r, next, started⟩ := exec_falling active' (by rw [frame']) (by rw [frame'])
      exact ⟨u, r, run', by rw [frame'], next, started⟩
  · obtain ⟨t, run, -, -, -, responses⟩ := runCommands_frameProcess bits h
    have tenth := emitted_le s.frame bits
    have begun := callsIn_le s.frame.st
    exact ⟨t, _, run, responses, by omega⟩
  · obtain rfl := Host.Outcome.next.inj ((exec_frameProcess b h).symm.trans run)
    rw [framed_lastResponse h, answer_valid, Bool.toNat_eq_one, emits_iff] at valid
    rw [framed_frame, process_stop valid]

end Sys2Proof.Machine
end

section
/-! PROOFS. Family 44_queue.md. What a step and a run of any agents do to one queue: its invariant, the samples it holds
(R180), the PUSHes it can still take (R179), and the views (R182). Then each queue command, stated for both queues at
once where they agree, and the synchronisers. -/

namespace Sys2Proof.Machine

/-! ### A run and one queue -/

/-- A step of any agent keeps the invariant of a queue. -/
theorem agentStep_queueInv {a : Agent} {s t : State} {k : QueueId} (inv : (s.queue k).Inv s.cfg)
    (h : agentStep a s = .next t) : (t.queue k).Inv t.cfg := by
  rw [agentStep_cfg h]
  cases agentStep_queue k h with
  | kept hq => rwa [hq]
  | synced hv hq =>
    rcases hq with ⟨-, hq⟩ | ⟨-, hq⟩ <;> rw [hq]
    · exact inv.syncW
    · exact inv.syncR
  | pushed x hf hq => rw [hq]; exact inv.pushed x hf
  | popped he hq => rw [hq]; exact inv.popped he

/-- The first step of a run of at least one agent, and the run after it. -/
theorem runQueue_cons {k : QueueId} {a : Agent} {as : List Agent} {s t : State} {offer ok taken : List Half}
    (h : runQueue k (a :: as) s = some (offer, ok, taken, t)) :
    ∃ u offer' ok' taken', agentStep a s = .next u ∧ runQueue k as u = some (offer', ok', taken', t) ∧
      offer = offered k a s ++ offer' ∧ ok = pushedOk k a s u ++ ok' ∧ taken = poppedOk k a s u ++ taken' := by
  rw [runQueue] at h
  cases step : agentStep a s with
  | next u =>
    rw [step] at h
    obtain ⟨⟨offer', ok', taken', t'⟩, run, e⟩ := Option.map_eq_some_iff.mp h
    simp only [Prod.mk.injEq] at e
    obtain ⟨rfl, rfl, rfl, rfl⟩ := e
    exact ⟨u, offer', ok', taken', rfl, run, rfl, rfl, rfl⟩
  | fault | refused => simp [step] at h

/-- R235, for a run. -/
theorem runQueue_cfg {k : QueueId} {as : List Agent} {s t : State} {offer ok taken : List Half}
    (h : runQueue k as s = some (offer, ok, taken, t)) : t.cfg = s.cfg := by
  induction as generalizing s offer ok taken with
  | nil => cases h; rfl
  | cons a as ih =>
    obtain ⟨u, _, _, _, step, run, -⟩ := runQueue_cons h
    rw [ih run, agentStep_cfg step]

/-! ### First in, first out (R180) -/

/-- One step appends what was pushed and takes what was popped from the front. -/
theorem agentStep_contents {a : Agent} {s t : State} {k : QueueId} (inv : (s.queue k).Inv s.cfg)
    (h : agentStep a s = .next t) :
    (s.queue k).contents s.cfg.rbN ++ pushedOk k a s t = poppedOk k a s t ++ (t.queue k).contents s.cfg.rbN := by
  cases agentStep_queue k h with
  | kept hq hpush hpop => simp [hq, hpush, hpop]
  | synced hv hq hpush hpop => rcases hq with ⟨-, hq⟩ | ⟨-, hq⟩ <;> simp [hq, hpush, hpop]
  | pushed x hf hq hpush hpop => simp [hq, hpush, hpop, contents_pushed x inv hf]
  | popped he hq hpush hpop => simp [hq, hpush, hpop, contents_popped inv he]

/-- R180 for a run from any state in which the queue meets its invariant. -/
theorem runQueue_contents {k : QueueId} {as : List Agent} {s t : State} {offer ok taken : List Half}
    (inv : (s.queue k).Inv s.cfg) (h : runQueue k as s = some (offer, ok, taken, t)) :
    (s.queue k).contents s.cfg.rbN ++ ok = taken ++ (t.queue k).contents s.cfg.rbN := by
  induction as generalizing s offer ok taken with
  | nil => cases h; simp
  | cons a as ih =>
    obtain ⟨u, offer', ok', taken', step, run, rfl, rfl, rfl⟩ := runQueue_cons h
    have rest := ih (agentStep_queueInv inv step) run
    rw [agentStep_cfg step] at rest
    rw [← List.append_assoc, agentStep_contents inv step, List.append_assoc, rest, List.append_assoc]

/-- A queue of zeros only, with these cursors and views. -/
def Queue.zeros (wr rd wrSeen rdSeen : Nat) : Queue := ⟨⟨[]⟩, wr, rd, rdSeen, wrSeen⟩

/-- Such a queue meets the invariant when its views are in range, pessimistic, and exact under IMMEDIATE. -/
theorem zeros_inv {c : Config} {wr rd wrSeen rdSeen : Nat}
    (range : wr < c.rbN ∧ rd < c.rbN ∧ wrSeen < c.rbN ∧ rdSeen < c.rbN)
    (views : distance c.rbN wrSeen rd ≤ distance c.rbN wr rd ∧ distance c.rbN wr rd ≤ distance c.rbN wr rdSeen)
    (exact_views : c.queueView = .immediate → wrSeen = wr ∧ rdSeen = rd) :
    (Queue.zeros wr rd wrSeen rdSeen).Inv c := by
  obtain ⟨hwr, hrd, hwrSeen, hrdSeen⟩ := range
  exact ⟨hwr, hrd, hwrSeen, hrdSeen, rfl, nofun, views.1, views.2, exact_views⟩

theorem resetWith_queueInv (c : Config) (k : QueueId) : ((State.resetWith c).queue k).Inv c := by
  obtain ⟨-, -, -, -, -, ⟨txWr, txRd⟩, rxWr, rxRd⟩ := c.legal
  cases k
  · exact zeros_inv ⟨txWr, txRd, txWr, txRd⟩ ⟨Nat.le_refl _, Nat.le_refl _⟩ fun _ => ⟨rfl, rfl⟩
  · exact zeros_inv ⟨rxWr, rxRd, rxWr, rxRd⟩ ⟨Nat.le_refl _, Nat.le_refl _⟩ fun _ => ⟨rfl, rfl⟩

/-- The hosts' lists are no part of a queue. -/
theorem queue_withHosts (s : State) (core xport : PortIo) (k : QueueId) :
    ({ s with core := core, xport := xport } : State).queue k = s.queue k := by
  cases k <;> rfl

/-- Settles O36: `runQueue_contents`, from a state of the invariant and from reset. -/
theorem queueIsFifo : Obligations.QueueIsFifo := by
  refine ⟨fun k as s t offer ok taken inv h => ?_, fun c coreList xportList k as t offer ok taken h => ?_, by decide,
    by decide⟩
  · rw [runQueue_cfg h]
    exact runQueue_contents (inv.queue k) h
  · have fifo := runQueue_contents (by rw [queue_withHosts]; exact resetWith_queueInv c k) h
    rw [queue_withHosts] at fifo
    exact ⟨_, fifo.symm⟩

/-! ### No false success (R178) -/

theorem Queue.Inv.occ_lt_of_not_fullP {c : Config} {q : Queue} (h : q.Inv c) (hf : q.fullP c.rbN = false) :
    q.occ c.rbN < c.rbN - 1 := by
  have notFull : q.occP c.rbN ≠ c.rbN - 1 := fun e => by simp [h.fullP_iff.mpr e] at hf
  have lt := h.occP_lt
  have le := h.occ_le
  omega

theorem Queue.Inv.occ_pos_of_not_emptyC {c : Config} {q : Queue} (h : q.Inv c) (he : q.emptyC = false) :
    0 < q.occ c.rbN := by
  have notEmpty : q.occC c.rbN ≠ 0 := fun e => by simp [h.emptyC_iff.mpr e] at he
  have le := h.occC_le
  omega

/-- Settles O34: a PUSH that returned OK found the producer's view not full, a POP the consumer's view not empty. -/
theorem noFalseSuccess : Obligations.NoFalseSuccess := by
  intro s t a k inv h
  cases agentStep_queue k h with
  | kept _ hpush hpop | synced _ _ hpush hpop => exact ⟨absurd hpush, absurd hpop⟩
  | pushed x hf _ _ hpop => exact ⟨fun _ => (inv.queue k).occ_lt_of_not_fullP hf, absurd hpop⟩
  | popped he _ hpush => exact ⟨absurd hpush, fun _ => (inv.queue k).occ_pos_of_not_emptyC he⟩

/-! ### Capacity (R179) -/

theorem offered_none {k : QueueId} {a : Agent} {s : State} (hc : commandOf a s = none) : offered k a s = [] := by
  rw [offered, hc]

theorem offered_command (k : QueueId) {a : Agent} {s : State} {p : Port} {i : Instr}
    (hc : commandOf a s = some (p, i)) :
    offered k a s = if p = k.producer then (pushOperand k i).toList else [] := by
  rw [offered, hc]

theorem eq_pushInstr_of_pushOperand {k : QueueId} {i : Instr} {x : Half} (h : pushOperand k i = some x) :
    i = k.pushInstr x := by
  cases i with
  | txqPush y | rxqPush y =>
    cases k <;> simp [pushOperand] at h
    rw [h]
    rfl
  | _ => simp [pushOperand] at h

theorem pushInstr_ports (k : QueueId) (x : Half) : (k.pushInstr x).ports = [k.producer] := by
  cases k <;> rfl

/-- R161: a PUSH returns OK exactly on its producer's port with the producer's view not full. -/
theorem effect_push_ok_iff {k : QueueId} {x : Half} {s u : State} {st : Status} {v : Bool} {d : Half}
    (e : Effect (k.pushInstr x) s u st v d) :
    st = .ok ↔ s.active = k.producer ∧ (s.queue k).fullP s.cfg.rbN = false := by
  cases k with
  | txq =>
    cases e with
    | wrongPort _ _ h =>
      rw [pushInstr_ports, List.mem_singleton] at h
      simp [h]
    | txqPushFull _ _ h hf => simp [hf]
    | txqPushOk _ _ h hf => simp [h, hf, QueueId.producer]
  | rxq =>
    cases e with
    | wrongPort _ _ h =>
      rw [pushInstr_ports, List.mem_singleton] at h
      simp [h]
    | rxqPushFull _ _ h hf => simp [hf]
    | rxqPushOk _ _ h hf => simp [h, hf, QueueId.producer]

/-- The PUSHes offered in a step return OK unless the producer's view is full. -/
theorem pushedOk_eq_offered {a : Agent} {s t : State} (k : QueueId) (h : agentStep a s = .next t) :
    pushedOk k a s t = if (s.queue k).fullP s.cfg.rbN = true then [] else offered k a s := by
  cases agentStep_effect h with
  | noCommand _ _ hc | illegal _ _ hc => rw [pushedOk_none _ hc, offered_none hc, ite_self]
  | noSync _ ha => rw [pushedOk_none _ (commandOf_sync ha s), offered_none (commandOf_sync ha s), ite_self]
  | syncW | syncR | syncF => rw [pushedOk_none _ rfl, offered_none rfl, ite_self]
  | command p rest i u st v d hc e =>
    obtain ⟨-, -, -, active, -⟩ := effect_host e
    rw [pushedOk_command k st v d hc active, offered_command k hc]
    cases operand : pushOperand k i with
    | none => simp
    | some x =>
      obtain rfl := eq_pushInstr_of_pushOperand operand
      simp only [effect_push_ok_iff e, accept_active, accept_queue, accept_cfg]
      cases (s.queue k).fullP s.cfg.rbN <;> simp

/-- A step adds at most what it pushed to the occupancy the producer sees. -/
theorem agentStep_occP_le {a : Agent} {s t : State} {k : QueueId} (inv : (s.queue k).Inv s.cfg)
    (h : agentStep a s = .next t) :
    (t.queue k).occP s.cfg.rbN ≤ (s.queue k).occP s.cfg.rbN + (pushedOk k a s t).length := by
  have le := inv.occ_le
  cases agentStep_queue k h with
  | kept hq => rw [hq]; omega
  | synced hv hq =>
    rcases hq with ⟨-, hq⟩ | ⟨-, hq⟩ <;> rw [hq]
    · exact Nat.le_add_right _ _
    · exact Nat.le_add_right_of_le le
  | pushed x hf hq hpush => rw [hq, hpush, occP_pushed x inv hf, List.length_singleton]
  | popped he hq =>
    have less := occ_popped inv he
    rw [hq]
    cases hv : s.cfg.queueView with
    | lagged => simp [Queue.occP, Queue.popped, hv]
    | immediate =>
      have exact_view : ((s.queue k).popped s.cfg).occP s.cfg.rbN = ((s.queue k).popped s.cfg).occ s.cfg.rbN := by
        simp [Queue.occP, Queue.occ, Queue.popped, hv]
      omega

/-- R179 with the room that the producer sees: PUSHes that fit all return OK. -/
theorem runQueue_all_ok {k : QueueId} {as : List Agent} {s t : State} {offer ok taken : List Half}
    (inv : (s.queue k).Inv s.cfg) (h : runQueue k as s = some (offer, ok, taken, t))
    (room : (s.queue k).occP s.cfg.rbN + offer.length ≤ s.cfg.rbN - 1) : ok = offer := by
  induction as generalizing s offer ok taken with
  | nil => cases h; rfl
  | cons a as ih =>
    obtain ⟨u, offer', ok', taken', step, run, rfl, rfl, rfl⟩ := runQueue_cons h
    rw [List.length_append] at room
    have first : pushedOk k a s u = offered k a s := by
      rw [pushedOk_eq_offered k step]
      split
      · rename_i full
        have length : (offered k a s).length = 0 := by
          have := inv.fullP_iff.mp full
          omega
        exact (List.length_eq_zero_iff.mp length).symm
      · rfl
    have grown := agentStep_occP_le inv step
    rw [first] at grown ⊢
    rw [ih (agentStep_queueInv inv step) run (by rw [agentStep_cfg step]; omega)]

/-- The write cursor moves by one slot for each PUSH that returned OK. -/
theorem runQueue_wr {k : QueueId} {as : List Agent} {s t : State} {offer ok taken : List Half}
    (inv : (s.queue k).Inv s.cfg) (h : runQueue k as s = some (offer, ok, taken, t)) :
    (t.queue k).wr = ((s.queue k).wr + ok.length) % s.cfg.rbN := by
  induction as generalizing s offer ok taken with
  | nil => cases h; exact (Nat.mod_eq_of_lt inv.wr_lt).symm
  | cons a as ih =>
    obtain ⟨u, offer', ok', taken', step, run, rfl, rfl, rfl⟩ := runQueue_cons h
    rw [ih (agentStep_queueInv inv step) run, agentStep_cfg step, List.length_append]
    cases agentStep_queue k step with
    | kept hq hpush => simp [hq, hpush]
    | synced hv hq hpush => rcases hq with ⟨-, hq⟩ | ⟨-, hq⟩ <;> simp [hq, hpush, Queue.syncW, Queue.syncR]
    | pushed x hf hq hpush =>
      rw [hq, hpush, List.length_singleton, Nat.add_comm 1]
      exact nextSlot_add_mod
    | popped he hq hpush => simp [hq, hpush, Queue.popped]

/-- R161: on its producer's port, a PUSH on a queue its producer sees full answers FULL. -/
theorem push_answersFull {k : QueueId} {s : State} (x : Half) (h : s.active = k.producer)
    (hf : (s.queue k).fullP s.cfg.rbN = true) :
    ∃ u, exec (k.pushInstr x) s = .next u ∧ Answered s u (wordOf 1 0 0) := by
  cases k with
  | txq =>
    have e := Effect.txqPushFull x s h hf
    exact ⟨_, effect_exec e, effect_answered e⟩
  | rxq =>
    have e := Effect.rxqPushFull x s h hf
    exact ⟨_, effect_exec e, effect_answered e⟩

/-- Settles O35: a producer that sees its queue empty sees room for RB_N - 1 samples, and after as many PUSHes the write
cursor is one slot before where it was. -/
theorem queueCapacity : Obligations.QueueCapacity := by
  intro k as s t offer ok taken inv empty h
  have queueInv := inv.queue k
  have all_ok (fits : offer.length ≤ s.cfg.rbN - 1) : ok = offer := by
    have noneSeen : (s.queue k).occP s.cfg.rbN = 0 := queueInv.emptyP_iff.mp (beq_iff_eq.mpr empty)
    exact runQueue_all_ok queueInv h (by omega)
  refine ⟨all_ok, fun length seen active x => push_answersFull x active ?_⟩
  have wr := runQueue_wr queueInv h
  rw [all_ok length.le, length] at wr
  have size := rbN_ge s.cfg
  rw [runQueue_cfg h, Queue.fullP, beq_iff_eq, nextSlot, wr, seen, ← empty, Nat.mod_add_mod, Nat.add_assoc,
    Nat.sub_add_cancel (by omega), Nat.add_mod_right]
  exact Nat.mod_eq_of_lt queueInv.wr_lt

/-! ### The views (R182) -/

/-- Settles O37: the six predicates as occupancies, which the invariant orders; the queues that differ have the default
8 cells. -/
theorem viewsArePessimistic : Obligations.ViewsArePessimistic := by
  refine ⟨fun c q inv => ?_, ?_, ?_, ?_, ?_⟩
  · have leC := inv.occC_le
    have leP := inv.occ_le
    have ltP := inv.occP_lt
    have ltO : q.occ c.rbN < c.rbN := distance_lt inv.wr_lt
    rw [inv.isFull_iff, inv.fullP_iff, inv.isEmpty_iff, inv.emptyC_iff, inv.emptyP_iff, inv.fullC_iff]
    refine ⟨by omega, by omega, by omega, by omega, fun hv => ?_⟩
    obtain ⟨hwr, hrd⟩ := inv.exact_views hv
    simp only [Queue.fullP, Queue.isFull, Queue.emptyC, Queue.isEmpty, Queue.emptyP, Queue.fullC, hwr, hrd, and_self]
  · exact ⟨Config.default, Queue.zeros 7 1 7 0, rfl, zeros_inv (by decide) (by decide) nofun, rfl, rfl⟩
  · exact ⟨Config.default, Queue.zeros 1 0 0 0, rfl, zeros_inv (by decide) (by decide) nofun, rfl, rfl⟩
  · exact ⟨Config.default, Queue.zeros 1 1 1 0, rfl, zeros_inv (by decide) (by decide) nofun, rfl, rfl⟩
  · exact ⟨Config.default, Queue.zeros 7 0 0 0, rfl, zeros_inv (by decide) (by decide) nofun, rfl, rfl⟩

/-! ### What a PUSH or a POP that returns OK makes of a state (R161, R162) -/

/-- A command that only XPORT may issue answers WRONG_PORT on CORE (R88). -/
theorem xportOnly_answersOnly_core {i : Instr} (hi : i.ports = [.xport]) {s : State} (h : s.active = .core) :
    AnswersOnly i s (wordOf 4 0 0) :=
  wrongPortAnswersWrongPort.2.2 i s (by simp [hi, h])

theorem onlyChanges_setQueue (s : State) (k : QueueId) (q : Queue) : OnlyChanges [k.part] s (s.setQueue k q) := by
  refine ⟨setQueue_cfg s k q, fun part hp => ?_⟩
  cases k with
  | txq =>
    cases part with
    | txq => simp [QueueId.part] at hp
    | _ => rfl
  | rxq =>
    cases part with
    | rxq => simp [QueueId.part] at hp
    | _ => rfl

theorem answered_setQueue (s : State) (k : QueueId) (q : Queue) (w : Word) : Answered s ((s.setQueue k q).reply w) w :=
  answered_reply (setQueue_core ..) (setQueue_xport ..) (setQueue_active ..) (setQueue_sched ..) w

theorem exec_push_ok {k : QueueId} {s : State} (x : Half) (h : s.active = k.producer)
    (hf : (s.queue k).fullP s.cfg.rbN = false) (hw : (s.queue k).wr < s.cfg.rbN) :
    exec (k.pushInstr x) s = .next ((s.setQueue k ((s.queue k).pushed s.cfg x)).reply (wordOf 0 0 0)) := by
  have e : Effect (k.pushInstr x) s (s.setQueue k ((s.queue k).pushed s.cfg x)) .ok false 0 := by
    cases k
    · exact .txqPushOk x s h hf hw
    · exact .rxqPushOk x s h hf hw
  rw [effect_exec e, responseWord_eq_wordOf]
  rfl

theorem exec_pop_ok {k : QueueId} {s : State} (h : s.active = k.consumer) (he : (s.queue k).emptyC = false)
    (hr : (s.queue k).rd < s.cfg.rbN) :
    exec k.popInstr s = .next ((s.setQueue k ((s.queue k).popped s.cfg)).reply
      (wordOf 0 0 ((s.queue k).cell.read (s.queue k).rd).toNat)) := by
  have e : Effect k.popInstr s (s.setQueue k ((s.queue k).popped s.cfg)) .ok false
      ((s.queue k).cell.read (s.queue k).rd) := by
    cases k
    · exact .txqPopOk s h he hr
    · exact .rxqPopOk s h he hr
  rw [effect_exec e, responseWord_eq_wordOf]
  rfl

/-- R161, R163: a PUSH that finds room stores its sample and advances the write cursor. -/
theorem push_stores {k : QueueId} {s : State} (x : Half) (h : s.active = k.producer)
    (room : ((s.queue k).wr + 1) % s.cfg.rbN ≠ (s.queue k).rdSeen) (hw : (s.queue k).wr < s.cfg.rbN)
    (wf : (s.queue k).cell.wf = true) :
    ∃ t, exec (k.pushInstr x) s = .next t ∧ OnlyChanges [k.part] s t ∧ Answered s t (wordOf 0 0 0) ∧
      (t.queue k).wr = ((s.queue k).wr + 1) % s.cfg.rbN ∧ (t.queue k).rd = (s.queue k).rd ∧
      (t.queue k).rdSeen = (s.queue k).rdSeen ∧
      (t.queue k).wrSeen = (if s.cfg.queueView = .immediate then (t.queue k).wr else (s.queue k).wrSeen) ∧
      (t.queue k).cell.read (s.queue k).wr = x ∧
      ∀ a, a ≠ (s.queue k).wr → (t.queue k).cell.read a = (s.queue k).cell.read a := by
  refine ⟨_, exec_push_ok x h (beq_eq_false_iff_ne.mpr room) hw, (onlyChanges_setQueue s k _).reply _,
    answered_setQueue s k _ _, ?_⟩
  rw [reply_queue, setQueue_queue]
  refine ⟨rfl, rfl, rfl, rfl, ?_, fun a ha => ?_⟩
  · rw [Queue.pushed, Memory.read_write _ _ _ _ wf, if_pos rfl]
  · rw [Queue.pushed, Memory.read_write _ _ _ _ wf, if_neg ha]

/-- R162, R163: a POP that finds a sample answers it and advances the read cursor. -/
theorem pop_takes {k : QueueId} {s : State} (h : s.active = k.consumer)
    (some_seen : (s.queue k).wrSeen ≠ (s.queue k).rd) (hr : (s.queue k).rd < s.cfg.rbN) :
    ∃ t, exec k.popInstr s = .next t ∧ OnlyChanges [k.part] s t ∧
      Answered s t (wordOf 0 0 ((s.queue k).cell.read (s.queue k).rd).toNat) ∧
      (t.queue k).rd = ((s.queue k).rd + 1) % s.cfg.rbN ∧ (t.queue k).wr = (s.queue k).wr ∧
      (t.queue k).wrSeen = (s.queue k).wrSeen ∧
      (t.queue k).rdSeen = (if s.cfg.queueView = .immediate then (t.queue k).rd else (s.queue k).rdSeen) ∧
      ∀ a, (t.queue k).cell.read a = (s.queue k).cell.read a := by
  refine ⟨_, exec_pop_ok h (beq_eq_false_iff_ne.mpr some_seen) hr, (onlyChanges_setQueue s k _).reply _,
    answered_setQueue s k _ _, ?_⟩
  rw [reply_queue, setQueue_queue]
  exact ⟨rfl, rfl, rfl, rfl, fun _ => rfl⟩

/-! ### What an escalation makes of a state (R204, R205, R207, R208) -/

theorem settle_txUnderrunSeen (c : Config) (b : Blk) :
    (b.settle c).txUnderrunSeen = if c.queueView = .immediate then b.txUnderrun else b.txUnderrunSeen := by
  cases hv : c.queueView
  · rw [settle_immediate b hv, if_pos rfl, syncF_txUnderrunSeen]
  · rw [settle_lagged b hv, if_neg nofun]

theorem settle_rxOverrunSeen (c : Config) (b : Blk) :
    (b.settle c).rxOverrunSeen = if c.queueView = .immediate then b.rxOverrun else b.rxOverrunSeen := by
  cases hv : c.queueView
  · rw [settle_immediate b hv, if_pos rfl, syncF_rxOverrunSeen]
  · rw [settle_lagged b hv, if_neg nofun]

theorem onlyChanges_blk (s : State) (b : Blk) : OnlyChanges [.blk] s { s with blk := b } := by
  refine ⟨rfl, fun part hp => ?_⟩
  cases part with
  | blk => simp at hp
  | _ => rfl

theorem exec_txqPop_empty {s : State} (h : s.active = .xport) (he : s.txq.emptyC = true) :
    exec .txqPop s = .next ((signalUnderrun s).reply (wordOf 2 0 0)) := by
  rw [effect_exec (.txqPopEmpty s h he), responseWord_eq_wordOf]
  rfl

theorem exec_rxqPush_full {s : State} (x : Half) (h : s.active = .xport) (hf : s.rxq.fullP s.cfg.rbN = true) :
    exec (.rxqPush x) s = .next ((signalOverrun s).reply (wordOf 1 0 0)) := by
  rw [effect_exec (.rxqPushFull x s h hf), responseWord_eq_wordOf]
  rfl

/-! ### TXQ.PUSH, TXQ.POP, RXQ.PUSH and RXQ.POP -/

/-- Settles O24: FULL leaves the units as they are, OK is `push_stores`. -/
theorem txqPushStoresOrAnswersFull : Obligations.TxqPushStoresOrAnswersFull :=
  ⟨legalData_halfOperand (by decide), fun x => encode_toNat _, fun x s => coreOnly_answersOnly_xport rfl,
    fun x s h => ⟨fun full => (effect_answersOnly (.txqPushFull x s h (beq_iff_eq.mpr full)) :),
      push_stores (k := .txq) x h⟩⟩

/-- Settles O25: EMPTY signals the underrun, OK is `pop_takes`. -/
theorem txqPopTakesOrSignalsUnderrun : Obligations.TxqPopTakesOrSignalsUnderrun := by
  refine ⟨legalData_noOperand (by decide), encode_toNat _, fun s => xportOnly_answersOnly_core rfl,
    fun s h => ⟨fun empty => ?_, pop_takes (k := .txq) h⟩⟩
  refine ⟨_, exec_txqPop_empty h (beq_iff_eq.mpr empty), (onlyChanges_blk s _).reply _,
    answered_reply rfl rfl rfl rfl _, ?_⟩
  rw [reply_blk, signalUnderrun]
  refine ⟨settle_txUnderrun .., settle_rxOverrun .., fun hv => ?_, fun hv => ?_, fun inv => ?_⟩
  · rw [settle_txUnderrunSeen, if_pos hv]
  · rw [settle_txUnderrunSeen, if_neg (by simp [hv])]
  · rw [settle_rxOverrunSeen]
    split
    · rename_i hv
      exact (inv.exact_copies hv).2.symm
    · rfl

/-- Settles O28: FULL signals the overrun, OK is `push_stores`. -/
theorem rxqPushStoresOrSignalsOverrun : Obligations.RxqPushStoresOrSignalsOverrun := by
  refine ⟨legalData_halfOperand (by decide), fun x => encode_toNat _, fun x s => xportOnly_answersOnly_core rfl,
    fun x s h => ⟨fun full => ?_, push_stores (k := .rxq) x h⟩⟩
  refine ⟨_, exec_rxqPush_full x h (beq_iff_eq.mpr full), (onlyChanges_blk s _).reply _,
    answered_reply rfl rfl rfl rfl _, ?_⟩
  rw [reply_blk, signalOverrun]
  refine ⟨settle_rxOverrun .., settle_txUnderrun .., fun hv => ?_, fun hv => ?_, fun inv => ?_⟩
  · rw [settle_rxOverrunSeen, if_pos hv]
  · rw [settle_rxOverrunSeen, if_neg (by simp [hv])]
  · rw [settle_txUnderrunSeen]
    split
    · rename_i hv
      exact (inv.exact_copies hv).1.symm
    · rfl

/-- Settles O29: EMPTY leaves the units as they are, OK is `pop_takes`. -/
theorem rxqPopTakesOrAnswersEmpty : Obligations.RxqPopTakesOrAnswersEmpty :=
  ⟨legalData_noOperand (by decide), encode_toNat _, fun s => coreOnly_answersOnly_xport rfl,
    fun s h => ⟨fun empty => (effect_answersOnly (.rxqPopEmpty s h (beq_iff_eq.mpr empty)) :),
      pop_takes (k := .rxq) h⟩⟩

/-! ### The queries (R172, R173, R176, R177) -/

/-- On port `p` a query whose view is a comparison of two cursors answers 1 exactly when they are equal. -/
theorem query_answersBit {i : Instr} {s : State} {p : Port} {view : Port → Bool} {a b : Nat}
    (e : Effect i s s .ok false (bitData (view s.active))) (h : s.active = p) (hview : view p = (a == b)) :
    AnswersOnly i s (wordOf 0 0 (if a = b then 1 else 0)) := by
  have bit : (bitData (a == b)).toNat = if a = b then 1 else 0 := by
    by_cases hab : a = b <;> simp [bitData, hab]
  rw [h, hview] at e
  rw [← bit]
  exact (effect_answersOnly e :)

/-- Settles O26: each port's view by R165. -/
theorem txqIsEmptyAnswersThePortsView : Obligations.TxqIsEmptyAnswersThePortsView :=
  ⟨legalData_noOperand (by decide), encode_toNat _, fun s =>
    ⟨fun h => query_answersBit (.txqIsEmpty s) h rfl, fun h => query_answersBit (.txqIsEmpty s) h rfl⟩⟩

/-- Settles O30: the same views with the sides exchanged. -/
theorem rxqIsEmptyAnswersThePortsView : Obligations.RxqIsEmptyAnswersThePortsView :=
  ⟨legalData_noOperand (by decide), encode_toNat _, fun s =>
    ⟨fun h => query_answersBit (.rxqIsEmpty s) h rfl, fun h => query_answersBit (.rxqIsEmpty s) h rfl⟩⟩

theorem Answered.lastResponse {s t : State} {w : Word} {p : Port} (h : Answered s t w) (hp : s.active = p) :
    t.lastResponse p = w := by
  obtain ⟨-, -, -, -, core, xport⟩ := h
  cases p
  · simp [State.lastResponse, core, hp]
  · simp [State.lastResponse, xport, hp]

theorem OnlyChanges.queue_eq {parts : List Part} {s t : State} (h : OnlyChanges parts s t) {k : QueueId}
    (hk : k.part ∉ parts) : t.queue k = s.queue k := by
  cases k
  · exact h.2 .txq hk
  · exact h.2 .rxq hk

/-- When a query on the producer's port answered 1 to FULL, the producer sees the queue full afterwards. -/
theorem fullP_of_answered_one {k : QueueId} {s t : State} (h : s.active = k.producer) (only : OnlyChanges [] s t)
    (answered : Answered s t
      (wordOf 0 0 (if ((s.queue k).wr + 1) % s.cfg.rbN = (s.queue k).rdSeen then 1 else 0)))
    (one : t.lastResponse k.producer = wordOf 0 0 1) :
    t.active = k.producer ∧ (t.queue k).fullP t.cfg.rbN = true := by
  rw [answered.lastResponse h] at one
  refine ⟨answered.1.trans h, ?_⟩
  rw [only.1, only.queue_eq (by simp), Queue.fullP, beq_iff_eq, nextSlot]
  by_contra room
  rw [if_neg room] at one
  exact absurd one (by decide)

/-- Settles O27: the views, and the producer's view is the one TXQ.PUSH looks at. -/
theorem txqIsFullAnswersThePortsView : Obligations.TxqIsFullAnswersThePortsView := by
  refine ⟨legalData_noOperand (by decide), encode_toNat _, fun s =>
    ⟨fun h => ?_, fun h => query_answersBit (.txqIsFull s) h rfl⟩⟩
  obtain ⟨t, run, only, answered⟩ := query_answersBit (.txqIsFull s) h rfl
  refine ⟨t, run, only, answered, fun one x => ?_⟩
  obtain ⟨active, full⟩ := fullP_of_answered_one (k := .txq) h only answered one
  exact (effect_answersOnly (.txqPushFull x t active full) :)

/-- Settles O31: the views, and the producer's view is the one RXQ.PUSH looks at. -/
theorem rxqIsFullAnswersThePortsView : Obligations.RxqIsFullAnswersThePortsView := by
  refine ⟨legalData_noOperand (by decide), encode_toNat _, fun s =>
    ⟨fun h => query_answersBit (.rxqIsFull s) h rfl, fun h => ?_⟩⟩
  obtain ⟨t, run, only, answered⟩ := query_answersBit (.rxqIsFull s) h rfl
  refine ⟨t, run, only, answered, fun one x => ?_⟩
  obtain ⟨active, full⟩ := fullP_of_answered_one (k := .rxq) h only answered one
  refine ⟨_, exec_rxqPush_full x active full, answered_reply rfl rfl rfl rfl _, ?_⟩
  rw [reply_blk, signalOverrun, settle_rxOverrun]

/-! ### The synchronisers (R166 to R168) -/

/-- R168: under IMMEDIATE both copies are exact after the step of SYNC_F inside a command. -/
theorem settle_copies_immediate {c : Config} (b : Blk) (hv : c.queueView = .immediate) :
    (b.settle c).txUnderrunSeen = (b.settle c).txUnderrun ∧ (b.settle c).rxOverrunSeen = (b.settle c).rxOverrun := by
  rw [settle_immediate b hv]
  exact ⟨rfl, rfl⟩

/-- Settles O33: each synchroniser's step under LAGGED, and `settle_copies_immediate` in the two escalations. -/
theorem synchronisersCopyAndWriteNothingElse : Obligations.SynchronisersCopyAndWriteNothingElse := by
  refine ⟨fun s k hv => ?_, fun s k hv => ?_, fun s hv => ?_, fun s t i hv active sets run => ?_⟩
  · exact ⟨_, agentStep_syncW k hv, onlyChanges_setQueue s k _, setQueue_core .., setQueue_xport ..,
      setQueue_queue ..⟩
  · exact ⟨_, agentStep_syncR k hv, onlyChanges_setQueue s k _, setQueue_core .., setQueue_xport ..,
      setQueue_queue ..⟩
  · exact ⟨_, agentStep_syncF hv, onlyChanges_blk s _, rfl, rfl, rfl⟩
  · rcases sets with ⟨rfl, empty⟩ | ⟨x, rfl, full⟩
    · obtain rfl := Host.Outcome.next.inj ((exec_txqPop_empty active empty).symm.trans run)
      rw [reply_blk, signalUnderrun]
      exact settle_copies_immediate _ hv
    · obtain rfl := Host.Outcome.next.inj ((exec_rxqPush_full x active full).symm.trans run)
      rw [reply_blk, signalOverrun]
      exact settle_copies_immediate _ hv

end Sys2Proof.Machine
end

section
/-! PROOFS. Family 45_block.md. The RDATA of BLK.STATUS in numbers and what the invariant says of the six flags (R190);
then the level outputs and the answers of the next PUSH or POP (R191). -/

namespace Sys2Proof.Machine

/-! ### BLK.STATUS (R190) -/

theorem statusData_toNat (s : State) (p : Port) : (s.statusData p).toNat =
    (s.txqEmptyAt p).toNat * 2 ^ 0 + (s.txqFullAt p).toNat * 2 ^ 1 + (s.rxqEmptyAt p).toNat * 2 ^ 2 +
      (s.rxqFullAt p).toNat * 2 ^ 3 + (s.txUnderrunAt p).toNat * 2 ^ 4 + (s.rxOverrunAt p).toNat * 2 ^ 5 := by
  simp only [State.statusData, append_toNat_eq_add, BitVec.toNat_ofBool, BitVec.ofNat_eq_ofNat, BitVec.toNat_ofNat]
  omega

/-- R190 from the other side: each flag as a bit of the RDATA. -/
theorem statusData_bits (s : State) (p : Port) :
    ((s.statusData p).toNat % 2 = 1 ↔ s.txqEmptyAt p = true) ∧
    ((s.statusData p).toNat / 2 % 2 = 1 ↔ s.txqFullAt p = true) ∧
    ((s.statusData p).toNat / 4 % 2 = 1 ↔ s.rxqEmptyAt p = true) ∧
    ((s.statusData p).toNat / 8 % 2 = 1 ↔ s.rxqFullAt p = true) ∧
    ((s.statusData p).toNat / 16 % 2 = 1 ↔ s.txUnderrunAt p = true) ∧
    ((s.statusData p).toNat / 32 % 2 = 1 ↔ s.rxOverrunAt p = true) := by
  have f0 := (s.txqEmptyAt p).toNat_lt
  have f1 := (s.txqFullAt p).toNat_lt
  have f2 := (s.rxqEmptyAt p).toNat_lt
  have f3 := (s.rxqFullAt p).toNat_lt
  have f4 := (s.txUnderrunAt p).toNat_lt
  have f5 := (s.rxOverrunAt p).toNat_lt
  simp only [statusData_toNat, ← Bool.toNat_eq_one]
  omega

theorem toNat_mul_eq_ite (b : Bool) (n : Nat) : b.toNat * n = if b = true then n else 0 := by
  cases b <;> simp

theorem blkStatus_answersOnly (s : State) :
    AnswersOnly .blkStatus s (wordOf 0 0 (s.statusData s.active).toNat) :=
  (effect_answersOnly (.blkStatus s) :)

theorem Queue.Inv.not_emptyP_and_fullP {c : Config} {q : Queue} (h : q.Inv c) :
    ¬ (q.emptyP = true ∧ q.fullP c.rbN = true) := by
  have size := rbN_ge c
  rw [h.emptyP_iff, h.fullP_iff]
  omega

theorem Queue.Inv.not_emptyC_and_fullC {c : Config} {q : Queue} (h : q.Inv c) :
    ¬ (q.emptyC = true ∧ q.fullC c.rbN = true) := by
  have size := rbN_ge c
  rw [h.emptyC_iff, h.fullC_iff]
  omega

theorem State.Inv.not_txqEmptyAt_and_txqFullAt {s : State} (h : s.Inv) (p : Port) :
    ¬ (s.txqEmptyAt p = true ∧ s.txqFullAt p = true) := by
  cases p
  · exact h.txq.not_emptyP_and_fullP
  · exact h.txq.not_emptyC_and_fullC

theorem State.Inv.not_rxqEmptyAt_and_rxqFullAt {s : State} (h : s.Inv) (p : Port) :
    ¬ (s.rxqEmptyAt p = true ∧ s.rxqFullAt p = true) := by
  cases p
  · exact h.rxq.not_emptyC_and_fullC
  · exact h.rxq.not_emptyP_and_fullP

/-- R48: CORE sees a copy of the bit, XPORT the bit itself. -/
theorem State.Inv.txUnderrun_of_seen {s : State} (h : s.Inv) {p : Port} (seen : s.txUnderrunAt p = true) :
    s.blk.txUnderrun = true := by
  cases p
  · exact h.blk.txCopy seen
  · exact seen

theorem State.Inv.rxOverrun_of_seen {s : State} (h : s.Inv) {p : Port} (seen : s.rxOverrunAt p = true) :
    s.blk.rxOverrun = true := by
  cases p
  · exact h.blk.rxCopy seen
  · exact seen

theorem wordOf_data_toNat (d : Half) : (wordOf 0 0 d.toNat).toNat = d.toNat := by
  have hd := d.isLt
  rw [wordOf, BitVec.toNat_ofNat]
  omega

/-- Settles O42: the RDATA by `statusData_toNat` with each port's views written out, and `statusData_bits` with what the
invariant says of the flags. -/
theorem statusReportsThePortsFlags : Obligations.StatusReportsThePortsFlags := by
  refine ⟨legalData_noOperand (by decide), encode_toNat _,
    fun s => ⟨fun h => ?core, fun h => ?xport, fun inv t run => ?_⟩⟩
  case core | xport =>
    have answer := blkStatus_answersOnly s
    rw [h, statusData_toNat] at answer
    simpa only [toNat_mul_eq_ite, State.txqEmptyAt, State.txqFullAt, State.rxqEmptyAt, State.rxqFullAt,
      State.txUnderrunAt, State.rxOverrunAt, Queue.emptyP, Queue.fullP, Queue.emptyC, Queue.fullC, nextSlot,
      beq_iff_eq] using answer
  · obtain ⟨u, run', -, answered⟩ := blkStatus_answersOnly s
    obtain rfl := Host.Outcome.next.inj (run'.symm.trans run)
    obtain ⟨f0, f1, f2, f3, f4, f5⟩ := statusData_bits s s.active
    dsimp only
    rw [answered.1, answered.lastResponse rfl, wordOf_data_toNat, f0, f1, f2, f3, f4, f5]
    exact ⟨inv.not_txqEmptyAt_and_txqFullAt _, inv.not_rxqEmptyAt_and_rxqFullAt _, inv.txUnderrun_of_seen,
      inv.rxOverrun_of_seen⟩

/-! ### The level outputs (R191) -/

/-- R161: on its producer's port a PUSH answers FULL exactly when the producer sees the queue full. -/
theorem fullP_iff_push_answersFull {k : QueueId} {s t : State} {x : Half} (inv : (s.queue k).Inv s.cfg)
    (h : s.active = k.producer) (run : exec (k.pushInstr x) s = .next t) :
    (s.queue k).fullP s.cfg.rbN = true ↔ t.lastResponse k.producer = wordOf 1 0 0 := by
  cases hf : (s.queue k).fullP s.cfg.rbN with
  | true =>
    obtain ⟨u, run', answered⟩ := push_answersFull x h hf
    obtain rfl := Host.Outcome.next.inj (run'.symm.trans run)
    exact iff_of_true rfl (answered.lastResponse h)
  | false =>
    obtain rfl := Host.Outcome.next.inj ((exec_push_ok x h hf inv.wr_lt).symm.trans run)
    rw [(answered_setQueue s k _ _).lastResponse h]
    exact iff_of_false nofun (by decide)

theorem pop_answersEmpty {k : QueueId} {s : State} (h : s.active = k.consumer) (he : (s.queue k).emptyC = true) :
    ∃ u, exec k.popInstr s = .next u ∧ Answered s u (wordOf 2 0 0) := by
  cases k with
  | txq =>
    have e := Effect.txqPopEmpty s h he
    exact ⟨_, effect_exec e, effect_answered e⟩
  | rxq =>
    have e := Effect.rxqPopEmpty s h he
    exact ⟨_, effect_exec e, effect_answered e⟩

/-- R162: on its consumer's port a POP answers EMPTY exactly when the consumer sees the queue empty. A sample is no
such answer: its STATUS is 0. -/
theorem emptyC_iff_pop_answersEmpty {k : QueueId} {s t : State} (inv : (s.queue k).Inv s.cfg)
    (h : s.active = k.consumer) (run : exec k.popInstr s = .next t) :
    (s.queue k).emptyC = true ↔ t.lastResponse k.consumer = wordOf 2 0 0 := by
  cases he : (s.queue k).emptyC with
  | true =>
    obtain ⟨u, run', answered⟩ := pop_answersEmpty h he
    obtain rfl := Host.Outcome.next.inj (run'.symm.trans run)
    exact iff_of_true rfl (answered.lastResponse h)
  | false =>
    obtain rfl := Host.Outcome.next.inj ((exec_pop_ok h he inv.rd_lt).symm.trans run)
    rw [(answered_setQueue s k _ _).lastResponse h, ← BitVec.toNat_inj, wordOf_data_toNat]
    have sample_lt := ((s.queue k).cell.read (s.queue k).rd).isLt
    have empty_toNat : (wordOf 2 0 0).toNat = 2 ^ 29 := by decide
    exact iff_of_false nofun (by omega)

/-- Settles O43: the outputs are the views of R165, which the next PUSH or POP looks at. -/
theorem levelOutputsTellTheNextAnswer : Obligations.LevelOutputsTellTheNextAnswer := fun _ =>
  ⟨beq_iff_eq, beq_iff_eq, beq_iff_eq, beq_iff_eq, Bool.or_eq_true_iff, fun inv _ _ =>
    ⟨fullP_iff_push_answersFull (k := .txq) inv.txq, emptyC_iff_pop_answersEmpty (k := .rxq) inv.rxq,
      emptyC_iff_pop_answersEmpty (k := .txq) inv.txq, fullP_iff_push_answersFull (k := .rxq) inv.rxq⟩⟩

end Sys2Proof.Machine
end

section
/-! PROOFS. Family 60_exceptions.md. What a step makes of an ILLEGAL word (R202), and that no command but BLK.STATUS
reads the sticky bits or their copies (R209). -/

namespace Sys2Proof.Machine

/-! ### An ILLEGAL word (R90, R202) -/

@[simp] theorem withSched_io (s : State) (later : List Agent) (p : Port) :
    ({ s with sched := later } : State).io p = s.io p := by
  cases p <;> rfl

theorem onlyChanges_accept (s : State) (p : Port) (rest : List Offer) : OnlyChanges [] s (s.accept p rest) := by
  refine ⟨accept_cfg s p rest, fun part _ => ?_⟩
  cases part <;> simp [SamePart]

theorem reply_io_ne (s : State) (w : Word) {p : Port} (h : p ≠ s.active) : (s.reply w).io p = s.io p :=
  setIo_io_ne _ _ _ _ h

theorem raiseIllegal_eq_next (s : State) : raiseIllegal s = .next (s.reply (wordOf 3 0 0)) :=
  congrArg (Host.Outcome.next ∘ s.reply) (responseWord_eq_wordOf .illegal false 0)

/-- The step on an ILLEGAL word is the reply STATUS 3 in the state that took the word. -/
theorem step_illegal {s : State} {p : Port} {later : List Agent} {w : Word} {rest : List Offer}
    (hs : s.sched = .port p :: later) (hp : (s.io p).pending = ⟨w, false⟩ :: rest) (hd : decode w = none) :
    step s = .next (({ s with sched := later }.accept p rest).reply (wordOf 3 0 0)) := by
  have taken : (({ s with sched := later } : State).io p).pending = ⟨w, false⟩ :: rest := by rw [withSched_io, hp]
  rw [step_agent hs, agentStep, portStep_command taken rfl, execute_illegal hd, raiseIllegal_eq_next]

/-- Settles O7: neither taking the word nor the reply writes a unit, and both stay on the port of the word. -/
theorem illegalWordAnswersIllegal : Obligations.IllegalWordAnswersIllegal := by
  intro s p later w rest hs hp hd
  refine ⟨_, step_illegal hs hp hd, (onlyChanges_accept { s with sched := later } p rest).reply _, ?_, ?_, ?_, ?_⟩
  · rw [reply_sched, accept_sched]
  · rw [reply_io_pending, accept_io_pending]
  · simp
  · intro q hq
    rw [reply_io_ne _ _ hq, accept_io_ne _ _ _ _ hq, withSched_io]

/-! ### Commands and the sticky bits (R209) -/

/-- The state with other sticky bits and copies. -/
def State.withBlk (s : State) (b : Blk) : State := { s with blk := b }

theorem reply_withBlk (s : State) (b : Blk) (w : Word) : (s.withBlk b).reply w = (s.reply w).withBlk b := by
  unfold State.reply State.setIo State.withBlk
  cases s.active <;> rfl

/-- No command but BLK.STATUS reads the sticky bits: under any other bits it completes in the same way (TXQ.POP
at EMPTY and RXQ.PUSH at FULL write those bits, and do so whatever stands there). -/
theorem effect_withBlk {i : Instr} {s u : State} {st : Status} {v : Bool} {d : Half} (h : Effect i s u st v d)
    (hi : i ≠ .blkStatus) (b : Blk) : ∃ b', Effect i (s.withBlk b) (u.withBlk b') st v d := by
  cases h with
  | blkStatus => exact absurd rfl hi
  | txqPopEmpty _ hp he => exact ⟨(signalUnderrun (s.withBlk b)).blk, .txqPopEmpty (s.withBlk b) hp he⟩
  | rxqPushFull x _ hp hf => exact ⟨(signalOverrun (s.withBlk b)).blk, .rxqPushFull x (s.withBlk b) hp hf⟩
  | wrongPort _ _ hp => exact ⟨b, .wrongPort i (s.withBlk b) hp⟩
  | ddsSetPhase x _ hp => exact ⟨b, .ddsSetPhase x (s.withBlk b) hp⟩
  | ddsSetInc x _ hp => exact ⟨b, .ddsSetInc x (s.withBlk b) hp⟩
  | ddsNext _ hp => exact ⟨b, .ddsNext (s.withBlk b) hp⟩
  | iirReset _ hp => exact ⟨b, .iirReset (s.withBlk b) hp⟩
  | iirProcess x _ hp => exact ⟨b, .iirProcess x (s.withBlk b) hp⟩
  | demodProcess x _ hp => exact ⟨b, .demodProcess x (s.withBlk b) hp⟩
  | frameProcess x _ hp => exact ⟨b, .frameProcess x (s.withBlk b) hp⟩
  | txqPushFull x _ hp hf => exact ⟨b, .txqPushFull x (s.withBlk b) hp hf⟩
  | txqPushOk x _ hp hf hw => exact ⟨b, .txqPushOk x (s.withBlk b) hp hf hw⟩
  | txqPopOk _ hp he hr => exact ⟨b, .txqPopOk (s.withBlk b) hp he hr⟩
  | txqIsEmpty => exact ⟨b, .txqIsEmpty (s.withBlk b)⟩
  | txqIsFull => exact ⟨b, .txqIsFull (s.withBlk b)⟩
  | rxqPushOk x _ hp hf hw => exact ⟨b, .rxqPushOk x (s.withBlk b) hp hf hw⟩
  | rxqPopEmpty _ hp he => exact ⟨b, .rxqPopEmpty (s.withBlk b) hp he⟩
  | rxqPopOk _ hp he hr => exact ⟨b, .rxqPopOk (s.withBlk b) hp he hr⟩
  | rxqIsEmpty => exact ⟨b, .rxqIsEmpty (s.withBlk b)⟩
  | rxqIsFull => exact ⟨b, .rxqIsFull (s.withBlk b)⟩

/-- Settles O46: under the other bits the command completes in the same way, and the reply does not read them. -/
theorem stickyBitsStopNothing : Obligations.StickyBitsStopNothing := by
  intro s b
  constructor
  · intro i t hi ht
    obtain ⟨u, st, v, d, e, rfl⟩ := exec_effect ht
    obtain ⟨b', e'⟩ := effect_withBlk e hi b
    exact ⟨b', (effect_exec e').trans (congrArg _ (reply_withBlk ..))⟩
  · exact ⟨_, effect_exec (.blkStatus (s.withBlk b)), onlyChanges_reply ..⟩

end Sys2Proof.Machine
end

section
/-! PROOFS. Family 70_reset_and_hazards.md. The state after reset (R230), and that a step keeps the configuration
(R235). -/

namespace Sys2Proof.Machine

/-! ### Reset (R230) -/

@[simp] theorem resetWith_cell_read (c : Config) (k : QueueId) (i : Nat) :
    ((State.resetWith c).queue k).cell.read i = 0 := by
  cases k <;> rfl

/-- Settles O47: the cells by `resetWith_cell_read`, the delay line by `lineHolds_reset`, every
other element as `State.resetWith` gives it. -/
theorem resetValues : Obligations.ResetValues := by
  intro c s
  have cells : ∀ k i, ((s.queue k).cell.read i).toNat = 0 := fun k i =>
    congrArg BitVec.toNat (resetWith_cell_read c k i)
  have line : ∀ k, k < 22 → s.demod.d[k]? = some 0 := lineHolds_reset
  exact ⟨rfl, rfl, rfl, rfl, rfl, line, rfl, rfl, rfl, rfl, rfl, rfl, cells, rfl, rfl, rfl, rfl, rfl, rfl, rfl, rfl,
    rfl, rfl, rfl, rfl⟩

/-! ### The configuration (R235) -/

/-- Settles O51: an exhausted schedule leaves the state as it is, and no agent's step writes the configuration
(`agentStep_cfg`). -/
theorem configurationIsFixed : Obligations.ConfigurationIsFixed := by
  intro s t h
  cases hs : s.sched with
  | nil =>
    obtain rfl := Host.Outcome.next.inj ((step_nil hs).symm.trans h)
    rfl
  | cons a later =>
    rw [step_agent hs] at h
    rw [agentStep_cfg h]

end Sys2Proof.Machine
end

section
/-! PROOFS. Family other. Decoding and encoding as inverses; the units a step of an agent writes, and by which command;
the invariant along every step; a port's step carried over to another state (C5, R164, R218); fair schedules; the
assembler, the configuration and an ended run. -/

namespace Sys2Proof

/-! ### Decoding and encoding (R80 to R82) -/

/-- A row that fixes UNIT, OP and RSV leaves DATA to the operand. -/
theorem commandWord_of_admits_half {w p : Word} {u o : BitVec 4} (hp : p = commandWord u o 0)
    (h : (w &&& 0xFFFF0000#32 == p) = true) : commandWord u o (dataOf w) = w := by
  have pattern := congrArg BitVec.toNat hp
  rw [commandWord_toNat] at pattern
  simp only [BitVec.ofNat_eq_ofNat, BitVec.toNat_ofNat] at pattern
  rw [admits_half w p (by omega), decide_eq_true_iff] at h
  apply BitVec.eq_of_toNat_eq
  rw [commandWord_toNat, dataOf_toNat]
  omega

/-- A row that fixes the whole word is the word of its command. -/
theorem encode_of_admits_all {w p : Word} {i : Instr} (hp : encode i = p) (h : (w &&& 0xFFFFFFFF#32 == p) = true) :
    encode i = w := by
  rw [and_all, beq_iff_eq] at h
  rw [hp, h]

/-- The row of FRAME.PROCESS leaves one bit to the operand. -/
theorem encode_frameProcess_of_admits {w : Word} (h : (w &&& 0xFFFFFFFE#32 == 0x40000000#32) = true) :
    encode (.frameProcess ((dataOf w).getLsbD 0)) = w := by
  have low : ((dataOf w).getLsbD 0).toNat = w.toNat % 2 ^ 16 % 2 := by
    rw [BitVec.getLsbD, Nat.toNat_testBit, pow_zero, Nat.div_one, dataOf_toNat]
  rw [admits_bit w 0x40000000#32 (by decide), decide_eq_true_iff, BitVec.toNat_ofNat] at h
  apply BitVec.eq_of_toNat_eq
  rw [encode_toNat]
  dsimp only
  omega

/-- R82: the command that a row builds from a word it admits has no other word. -/
theorem encode_build (w : Word) : ∀ r ∈ rows, r.admits w = true → encode (r.build (dataOf w)) = w := by
  simp only [rows, List.forall_mem_cons]
  exact ⟨commandWord_of_admits_half (by decide), commandWord_of_admits_half (by decide),
    encode_of_admits_all (by decide), encode_of_admits_all (by decide), commandWord_of_admits_half (by decide),
    commandWord_of_admits_half (by decide), encode_frameProcess_of_admits, commandWord_of_admits_half (by decide),
    encode_of_admits_all (by decide), encode_of_admits_all (by decide), encode_of_admits_all (by decide),
    commandWord_of_admits_half (by decide), encode_of_admits_all (by decide), encode_of_admits_all (by decide),
    encode_of_admits_all (by decide), encode_of_admits_all (by decide), nofun⟩

/-- R82: a row of the table admits each command's word and builds the command back. -/
theorem row_of_instr (i : Instr) : Laws.OpcodeRow.Statement i :=
  match i with
  | .ddsSetPhase v => Laws.OpcodeRow.ddsSetPhase v
  | .ddsSetInc v => Laws.OpcodeRow.ddsSetInc v
  | .ddsNext => Laws.OpcodeRow.ddsNext
  | .iirReset => Laws.OpcodeRow.iirReset
  | .iirProcess x => Laws.OpcodeRow.iirProcess x
  | .demodProcess x => Laws.OpcodeRow.demodProcess x
  | .frameProcess b => Laws.OpcodeRow.frameProcess b
  | .txqPush x => Laws.OpcodeRow.txqPush x
  | .txqPop => Laws.OpcodeRow.txqPop
  | .txqIsEmpty => Laws.OpcodeRow.txqIsEmpty
  | .txqIsFull => Laws.OpcodeRow.txqIsFull
  | .rxqPush x => Laws.OpcodeRow.rxqPush x
  | .rxqPop => Laws.OpcodeRow.rxqPop
  | .rxqIsEmpty => Laws.OpcodeRow.rxqIsEmpty
  | .rxqIsFull => Laws.OpcodeRow.rxqIsFull
  | .blkStatus => Laws.OpcodeRow.blkStatus

theorem decode_encode (i : Instr) : decode (encode i) = some i := by
  obtain ⟨r, mem, admits, build, -⟩ := row_of_instr i
  rw [decode_of_admits mem admits, build]

/-- Settles O2: one direction by the row that admits the word (`encode_build`), the other by the command's row
(`decode_encode`). -/
theorem decodeIsInverseOfEncode : Obligations.DecodeIsInverseOfEncode := by
  intro w i
  constructor
  · intro h
    obtain ⟨r, mem, admits, rfl⟩ := decode_some_row h
    exact (encode_build w r mem admits).symm
  · rintro rfl
    exact decode_encode i

/-- Settles O3: `rows_pairwise_disjoint` says it of each word, so it holds of any two rows. -/
theorem noWordMatchesTwoRows : Obligations.NoWordMatchesTwoRows :=
  List.pairwise_iff_getElem.mpr fun j k hj hk lt w =>
    List.pairwise_iff_getElem.mp (rows_pairwise_disjoint w) j k hj hk lt

/-- Settles O1: the decoder evaluated on each of the eight words. -/
theorem wordsWrittenOutDecode : Obligations.WordsWrittenOutDecode := by
  unfold Obligations.WordsWrittenOutDecode
  decide

end Sys2Proof

namespace Sys2Proof.Machine

/-! ### The port of a command, and the hosts' lists -/

theorem commandOf_some_agent {a : Agent} {s : State} {p : Port} {i : Instr} (h : commandOf a s = some (p, i)) :
    a = .port p := by
  cases a with
  | port r =>
    cases hp : (s.io r).pending with
    | nil => simp [commandOf_port_nil hp] at h
    | cons c rest =>
      simp only [commandOf, hp, Option.ite_none_left_eq_some, Option.map_eq_some_iff] at h
      obtain ⟨-, j, -, e⟩ := h
      rw [(Prod.mk.inj e).1]
  | syncW | syncR | syncF => cases h

theorem effect_io {i : Instr} {s u : State} {st : Status} {v : Bool} {d : Half} (h : Effect i s u st v d) (p : Port) :
    u.io p = s.io p := by
  obtain ⟨-, core, xport, -, -⟩ := effect_host h
  cases p
  · exact core
  · exact xport

/-- A step of an agent leaves a port that is not its own as it is. -/
theorem agentStep_io_ne {a : Agent} {s t : State} (h : agentStep a s = .next t) {p : Port} (ha : a ≠ .port p) :
    t.io p = s.io p := by
  cases agentStep_effect h with
  | noCommand | noSync => rfl
  | syncW | syncR => exact setQueue_io ..
  | syncF => cases p <;> rfl
  | illegal r rest =>
    have hne : p ≠ r := fun e => ha (e ▸ rfl)
    rw [reply_io_ne _ _ hne, accept_io_ne _ _ _ _ hne]
  | command r rest i u st v d hc e =>
    have hne : p ≠ r := fun e => ha (e ▸ rfl)
    obtain ⟨-, -, -, active, -⟩ := effect_host e
    rw [reply_io_ne _ _ (active ▸ hne), effect_io e, accept_io_ne _ _ _ _ hne]

/-- A step takes commands from the front of a host's list and adds none. -/
theorem agentStep_pending_suffix {a : Agent} {s t : State} (h : agentStep a s = .next t) (p : Port) :
    (t.io p).pending <:+ (s.io p).pending := by
  by_cases ha : a = .port p
  · subst ha
    rcases portStep_next h with ⟨-, rfl⟩ | ⟨c, rest, hp, -, ⟨-, rfl⟩ | ⟨i, u, st, v, d, -, e, rfl⟩⟩
    · exact List.suffix_refl _
    · rw [reply_io_pending, accept_io_pending, hp]
      exact List.suffix_cons c rest
    · rw [reply_io_pending, effect_io e, accept_io_pending, hp]
      exact List.suffix_cons c rest
  · rw [agentStep_io_ne h ha]

/-! ### Which units a step writes (R22, R72) -/

/-- The units that a command may write (R22, column "written by"). -/
def unitsWritten : Instr → List Part
  | .ddsSetPhase _ => [.dds]
  | .ddsSetInc _ => [.dds]
  | .ddsNext => [.dds]
  | .iirReset => [.iir]
  | .iirProcess _ => [.iir]
  | .demodProcess _ => [.demod]
  | .frameProcess _ => [.frame]
  | .txqPush _ => [.txq]
  | .txqPop => [.txq, .blk]
  | .rxqPush _ => [.rxq, .blk]
  | .rxqPop => [.rxq]
  | .txqIsEmpty => []
  | .txqIsFull => []
  | .rxqIsEmpty => []
  | .rxqIsFull => []
  | .blkStatus => []

theorem SamePart.refl (s : State) (part : Part) : SamePart s s part := by
  cases part <;> rfl

theorem OnlyChanges.mono {parts parts' : List Part} {s t : State} (h : OnlyChanges parts s t) (sub : parts ⊆ parts') :
    OnlyChanges parts' s t :=
  ⟨h.1, fun part hp => h.2 part fun mem => hp (sub mem)⟩

theorem OnlyChanges.refl (parts : List Part) (s : State) : OnlyChanges parts s s :=
  ⟨rfl, fun part _ => SamePart.refl s part⟩

theorem onlyChanges_dds (s : State) (d : Dds) : OnlyChanges [.dds] s { s with dds := d } := by
  refine ⟨rfl, fun part hp => ?_⟩
  cases part with
  | dds => simp at hp
  | _ => rfl

/-- A command writes no unit but those of `unitsWritten`. -/
theorem effect_onlyChanges {i : Instr} {s u : State} {st : Status} {v : Bool} {d : Half} (h : Effect i s u st v d) :
    OnlyChanges (unitsWritten i) s u := by
  cases h with
  | ddsSetPhase | ddsSetInc | ddsNext => exact onlyChanges_dds s _
  | iirReset | iirProcess => exact onlyChanges_iir s _
  | demodProcess => exact onlyChanges_demod s _
  | frameProcess => exact onlyChanges_frame s _
  | txqPushOk => exact onlyChanges_setQueue s .txq _
  | txqPopOk => exact (onlyChanges_setQueue s .txq _).mono (by simp [unitsWritten, QueueId.part])
  | rxqPushOk => exact (onlyChanges_setQueue s .rxq _).mono (by simp [unitsWritten, QueueId.part])
  | rxqPopOk => exact onlyChanges_setQueue s .rxq _
  | txqPopEmpty | rxqPushFull => exact (onlyChanges_blk s _).mono (by simp [unitsWritten])
  | _ => exact OnlyChanges.refl _ s

/-- R203: on a port that may not issue it a command writes nothing. -/
theorem effect_wrongPort_eq {i : Instr} {s u : State} {st : Status} {v : Bool} {d : Half} (h : Effect i s u st v d)
    (hp : s.active ∉ i.ports) : u = s := by
  obtain rfl := (effect_wrongPort_iff h).mpr hp
  cases h
  rfl

/-- R72: a unit that a step of an agent changed is one of the agent's command, on a port that may issue it, or a queue
or the sticky-bit copies at a synchroniser's step. -/
theorem agentStep_writes {a : Agent} {s t : State} (h : agentStep a s = .next t) {part : Part}
    (moved : ¬ SamePart s t part) :
    (∃ p i, commandOf a s = some (p, i) ∧ p ∈ i.ports ∧ part ∈ unitsWritten i) ∨
    (a ∈ syncAgents ∧ part ∈ [Part.txq, .rxq, .blk]) := by
  cases agentStep_effect h with
  | noCommand | noSync => exact absurd (SamePart.refl s part) moved
  | illegal p rest =>
    exact absurd (((onlyChanges_accept s p rest).reply _).2 part (by simp)) moved
  | command p rest i u st v d hc e =>
    have accepted := onlyChanges_accept s p rest
    refine .inl ⟨p, i, hc, ?_, ?_⟩
    · by_contra hp
      rw [effect_wrongPort_eq e hp] at moved
      exact moved ((accepted.reply _).2 part (by simp))
    · by_contra hpart
      exact moved ((((accepted.mono (List.nil_subset _)).trans (effect_onlyChanges e)).reply _).2 part hpart)
  | syncW k | syncR k =>
    have sub : [k.part] ⊆ [Part.txq, .rxq, .blk] := by cases k <;> decide
    refine .inr ⟨mem_syncAgents nofun, ?_⟩
    by_contra hpart
    exact moved (((onlyChanges_setQueue s k _).mono sub).2 part hpart)
  | syncF =>
    refine .inr ⟨mem_syncAgents nofun, ?_⟩
    by_contra hpart
    exact moved (((onlyChanges_blk s _).mono (by decide)).2 part hpart)

theorem unitsWritten_core {i : Instr} (h : Port.core ∈ i.ports) :
    unitsWritten i ⊆ [.dds, .iir, .demod, .frame, .txq, .rxq] := by
  cases i with
  | txqPop | rxqPush => simp [Instr.ports] at h
  | _ => simp [unitsWritten]

theorem unitsWritten_xport {i : Instr} (h : Port.xport ∈ i.ports) : unitsWritten i ⊆ [.txq, .rxq, .blk] := by
  cases i with
  | txqPop | rxqPush | txqIsEmpty | txqIsFull | rxqIsEmpty | rxqIsFull | blkStatus => simp [unitsWritten]
  | _ => simp [Instr.ports] at h

/-- A unit that only CORE's commands write changes by such a command, issued on CORE. -/
theorem agentStep_coreWrites {a : Agent} {s t : State} (h : agentStep a s = .next t) {part : Part}
    (own : part ∉ [Part.txq, .rxq, .blk]) (moved : ¬ SamePart s t part) :
    ∃ i, commandOf a s = some (.core, i) ∧ part ∈ unitsWritten i := by
  rcases agentStep_writes h moved with ⟨p, i, hc, hport, hpart⟩ | ⟨-, hpart⟩
  · cases p with
    | core => exact ⟨i, hc, hpart⟩
    | xport => exact absurd (unitsWritten_xport hport hpart) own
  · exact absurd hpart own

/-- Settles O52: CORE's own units by `agentStep_coreWrites`, CORE's writes by `unitsWritten_core`, and a step leaves the
other port (`agentStep_io_ne`). -/
theorem onlyCoreReachesTheCoreUnits : Obligations.OnlyCoreReachesTheCoreUnits := by
  intro s t a h
  refine ⟨fun ha => ⟨⟨agentStep_cfg h, fun part own => ?_⟩, agentStep_io_ne (p := .core) h ha⟩,
    fun ha => ⟨⟨agentStep_cfg h, fun part hp => ?_⟩, agentStep_io_ne (p := .xport) h (by simp [ha])⟩⟩
  · by_contra moved
    obtain ⟨i, hc, -⟩ := agentStep_coreWrites h own moved
    exact ha (commandOf_some_agent hc)
  · subst ha
    by_contra moved
    rcases agentStep_writes h moved with ⟨p, i, hc, hport, hpart⟩ | ⟨sync, -⟩
    · obtain rfl : Port.core = p := Agent.port.inj (commandOf_some_agent hc)
      exact hp (unitsWritten_core hport hpart)
    · exact absurd sync (by decide)

/-! ### Every step keeps the invariant (R46, R48, R140, R163) -/

/-- R140: no call leaves the decoder in DATA(0). -/
theorem process_ne_dataZero (f : Frame) (b : Bool) : (f.process b).st ≠ .data 0 := by
  cases hs : f.st with
  | idle => rcases process_idle_cases hs b with e | e <;> rw [e] <;> nofun
  | start =>
    rw [process_start hs]
    exact (by decide : FrameState.data 1 ≠ .data 0)
  | data i =>
    rw [process_data hs]
    have after : ∀ j, afterData j ≠ .data 0 := by decide
    exact after i
  | stop =>
    rw [process_stop hs]
    nofun

theorem effect_frame {i : Instr} {s u : State} {st : Status} {v : Bool} {d : Half} (h : Effect i s u st v d) :
    u.frame = s.frame ∨ ∃ b, i = .frameProcess b ∧ s.active = .core ∧ u.frame = s.frame.process b := by
  cases h with
  | frameProcess b _ h => exact .inr ⟨b, rfl, h, rfl⟩
  | _ => exact .inl rfl

/-- A step keeps the framing decoder or is a FRAME.PROCESS on CORE. -/
theorem agentStep_frame {a : Agent} {s t : State} (h : agentStep a s = .next t) :
    t.frame = s.frame ∨ ∃ b, commandOf a s = some (.core, .frameProcess b) ∧ t.frame = s.frame.process b := by
  cases agentStep_effect h with
  | command p rest i u st v d hc e =>
    rw [reply_frame]
    rcases effect_frame e with hf | ⟨b, rfl, hp, hf⟩
    · exact .inl (hf.trans (accept_frame ..))
    · obtain rfl : p = .core := hp
      exact .inr ⟨b, hc, hf.trans (by rw [accept_frame])⟩
  | _ => exact .inl (by simp)

/-- A step of any agent keeps the invariant. -/
theorem agentStep_inv {a : Agent} {s t : State} (inv : s.Inv) (h : agentStep a s = .next t) : t.Inv where
  txq := agentStep_queueInv (k := .txq) inv.txq h
  rxq := agentStep_queueInv (k := .rxq) inv.rxq h
  blk := by
    rw [agentStep_cfg h]
    exact (agentStep_copies inv.blk h).1
  frame := by
    rcases agentStep_frame h with hf | ⟨b, -, hf⟩ <;> rw [hf]
    · exact inv.frame
    · exact process_ne_dataZero _ b

/-- The invariant speaks of the units only. -/
theorem State.Inv.of_onlyChanges {s t : State} (inv : s.Inv) (h : OnlyChanges [] s t) : t.Inv := by
  obtain ⟨cfg, same⟩ := h
  have txq : t.txq = s.txq := same .txq (by simp)
  have rxq : t.rxq = s.rxq := same .rxq (by simp)
  have blk : t.blk = s.blk := same .blk (by simp)
  have frame : t.frame = s.frame := same .frame (by simp)
  constructor
  · rw [txq, cfg]; exact inv.txq
  · rw [rxq, cfg]; exact inv.rxq
  · rw [blk, cfg]; exact inv.blk
  · rw [frame]; exact inv.frame

theorem onlyChanges_sched (s : State) (later : List Agent) : OnlyChanges [] s { s with sched := later } :=
  ⟨rfl, fun part _ => by cases part <;> rfl⟩

/-- Settles O49: the scheduled agent's step keeps the invariant (`agentStep_inv`). -/
theorem everyStepKeepsTheInvariant : Obligations.EveryStepKeepsTheInvariant := by
  intro s t inv h
  cases hs : s.sched with
  | nil =>
    obtain rfl := Host.Outcome.next.inj ((step_nil hs).symm.trans h)
    exact inv
  | cons a later =>
    rw [step_agent hs] at h
    exact agentStep_inv (inv.of_onlyChanges (onlyChanges_sched s later)) h

/-! ### A step always goes on (R200) -/

theorem noOverlap_iff (s : State) : s.NoOverlap ↔ ∀ p, ∀ c ∈ (s.io p).pending, c.early = false :=
  ⟨fun h p => by
    cases p
    · exact h.1
    · exact h.2, fun h => ⟨h .core, h .xport⟩⟩

/-- From a state of the invariant every command completes, and so does every agent's step. -/
theorem agentStep_completes (a : Agent) {s : State} (inv : s.Inv) (no : s.NoOverlap) :
    ∃ t, agentStep a s = .next t := by
  cases a with
  | syncW | syncR | syncF => exact ⟨_, rfl⟩
  | port p =>
    cases hp : (s.io p).pending with
    | nil => exact ⟨s, portStep_nil hp⟩
    | cons c rest =>
      have timely : c.early = false := (noOverlap_iff s).mp no p c (by simp [hp])
      cases hd : decode c.word with
      | none => exact ⟨_, (portStep_command hp timely).trans (execute_illegal hd)⟩
      | some i =>
        obtain ⟨u, st, v, d, e⟩ := effect_of_inv i (inv.of_onlyChanges (onlyChanges_accept s p rest))
        exact ⟨_, ((portStep_command hp timely).trans (execute_command hd)).trans (effect_exec e)⟩

/-- Settles O50: `agentStep_completes`, and a step keeps the invariant and adds no command to a host's list. -/
theorem theBlockNeverStops : Obligations.TheBlockNeverStops := by
  intro s inv no
  cases hs : s.sched with
  | nil => exact ⟨s, step_nil hs, inv, no⟩
  | cons a later =>
    have inv' := inv.of_onlyChanges (onlyChanges_sched s later)
    obtain ⟨t, h⟩ := agentStep_completes a inv' no
    refine ⟨t, (step_agent hs).trans h, agentStep_inv inv' h, (noOverlap_iff t).mpr fun p c hc => ?_⟩
    have given := (agentStep_pending_suffix h p).subset hc
    rw [withSched_io] at given
    exact (noOverlap_iff s).mp no p c given

/-! ### The response of a step (R66, R84, R85) -/

theorem responseWord_reserved (st : Status) (v : Bool) (d : Half) :
    (responseWord st v d).toNat / 2 ^ 17 % 2 ^ 11 = 0 := by
  have hd := d.isLt
  simp only [responseWord, append_toNat_eq_add]
  cases v <;> simp <;> omega

theorem responseWord_valid (st : Status) (v : Bool) (d : Half) :
    (responseWord st v d).toNat / 2 ^ 16 % 2 = v.toNat := by
  have hd := d.isLt
  simp only [responseWord, append_toNat_eq_add]
  cases v <;> simp <;> omega

theorem responseWord_status_le (st : Status) (v : Bool) (d : Half) : (responseWord st v d).toNat / 2 ^ 28 ≤ 4 := by
  rw [responseWord_statusCode]
  cases st <;> decide

/-- R147: VALID is 1 exactly for a FRAME.PROCESS on CORE of a decoder in STOP. -/
theorem effect_valid_iff {i : Instr} {s u : State} {st : Status} {v : Bool} {d : Half} (h : Effect i s u st v d) :
    v = true ↔ s.active = .core ∧ (∃ b, i = .frameProcess b) ∧ s.frame.st = .stop := by
  cases h with
  | frameProcess b _ h => simp [h, emits_iff]
  | wrongPort _ _ h =>
    refine iff_of_false nofun ?_
    rintro ⟨active, ⟨b, rfl⟩, -⟩
    exact h (by simp [active, Instr.ports])
  | _ => simp

/-- Settles O10: the response of an ILLEGAL word, or that of the command's effect, field by field. -/
theorem oneWellFormedResponsePerCommand : Obligations.OneWellFormedResponsePerCommand := by
  intro s t p w rest hp h
  have others : ∀ q, q ≠ p → t.io q = s.io q := fun q hq => agentStep_io_ne h fun e => hq (Agent.port.inj e).symm
  rcases portStep_next h with ⟨hnil, -⟩ | ⟨c, rest', hcons, -, answer⟩
  · simp [hp] at hnil
  obtain ⟨rfl, rfl⟩ := List.cons.inj (hp.symm.trans hcons)
  rcases answer with ⟨hd, rfl⟩ | ⟨i, u, st, v, d, hd, e, rfl⟩
  · refine ⟨responseWord .illegal false 0, by simp, by simp, others, responseWord_reserved ..,
      responseWord_status_le .., ?_⟩
    rw [responseWord_valid, hd]
    simp
  · obtain ⟨-, -, -, active, -⟩ := effect_host e
    rw [accept_active] at active
    refine ⟨responseWord st v d, by simp [active, effect_io e], by simp [effect_io e], others,
      responseWord_reserved .., responseWord_status_le .., ?_⟩
    rw [responseWord_valid, Bool.toNat_eq_one, effect_valid_iff e, accept_active, accept_frame, hd]
    simp

/-! ### The commands behind a PUSH or a POP that returned OK -/

theorem popInstr_ports (k : QueueId) : k.popInstr.ports = [k.consumer] := by
  cases k <;> rfl

theorem eq_popInstr_of_popsQueue {k : QueueId} {i : Instr} (h : popsQueue k i = true) : i = k.popInstr := by
  cases i with
  | txqPop | rxqPop =>
    obtain rfl := beq_iff_eq.mp h
    rfl
  | _ => cases h

theorem commandOf_of_pushedOk {a : Agent} {s t : State} {k : QueueId} (h : agentStep a s = .next t)
    (pushed : pushedOk k a s t ≠ []) : ∃ x, commandOf a s = some (k.producer, k.pushInstr x) := by
  cases hc : commandOf a s with
  | none => exact absurd (pushedOk_none t hc) pushed
  | some c =>
    obtain ⟨p, i⟩ := c
    rw [pushedOk_eq_offered k h, offered_command k hc, ne_eq, ite_eq_left_iff, not_forall] at pushed
    obtain ⟨-, offer⟩ := pushed
    rw [ite_eq_right_iff, not_forall] at offer
    obtain ⟨rfl, operand⟩ := offer
    obtain ⟨x, hx⟩ := Option.ne_none_iff_exists'.mp (mt Option.toList_eq_nil_iff.mpr operand)
    exact ⟨x, by rw [eq_pushInstr_of_pushOperand hx]⟩

theorem commandOf_of_poppedOk {a : Agent} {s t : State} {k : QueueId} (h : agentStep a s = .next t)
    (popped : poppedOk k a s t ≠ []) : commandOf a s = some (k.consumer, k.popInstr) := by
  cases agentStep_effect h with
  | noCommand _ _ hc | illegal _ _ hc => exact absurd (poppedOk_none _ hc) popped
  | noSync _ ha => exact absurd (poppedOk_none _ (commandOf_sync ha s)) popped
  | syncW | syncR | syncF => exact absurd (poppedOk_none _ rfl) popped
  | command p rest i u st v d hc e =>
    obtain ⟨-, -, -, active, -⟩ := effect_host e
    rw [poppedOk_command k st v d hc active, ne_eq, ite_eq_right_iff, not_forall] at popped
    obtain ⟨⟨rfl, pops⟩, -⟩ := popped
    obtain rfl := eq_popInstr_of_popsQueue pops
    have port := mt (effect_wrongPort_iff e).mpr nofun
    rw [not_not, accept_active, popInstr_ports, List.mem_singleton] at port
    rw [hc, port]

/-! ### Who writes the elements of a queue (R22) -/

/-- R22: the cells and the write cursor of a queue are written by its PUSH alone. -/
theorem agentStep_producerWrites {a : Agent} {s t : State} {k : QueueId} (h : agentStep a s = .next t)
    (moved : (t.queue k).cell ≠ (s.queue k).cell ∨ (t.queue k).wr ≠ (s.queue k).wr) :
    ∃ x, commandOf a s = some (k.producer, k.pushInstr x) := by
  cases agentStep_queue k h with
  | pushed x hf hq hpush => exact commandOf_of_pushedOk h (by simp [hpush])
  | kept hq => simp [hq] at moved
  | synced hv hq => rcases hq with ⟨-, hq⟩ | ⟨-, hq⟩ <;> simp [hq, Queue.syncW, Queue.syncR] at moved
  | popped he hq => simp [hq, Queue.popped] at moved

/-- R22: the read cursor of a queue is written by its POP alone. -/
theorem agentStep_consumerWrites {a : Agent} {s t : State} {k : QueueId} (h : agentStep a s = .next t)
    (moved : (t.queue k).rd ≠ (s.queue k).rd) : commandOf a s = some (k.consumer, k.popInstr) := by
  refine commandOf_of_poppedOk h fun none => ?_
  rw [agentStep_rd k h, if_pos none] at moved
  exact moved rfl

/-- R22, R163, R166: the consumer's view is written by SYNC_W under LAGGED, and by the PUSH under IMMEDIATE. -/
theorem agentStep_wrSeenWrites {a : Agent} {s t : State} {k : QueueId} (h : agentStep a s = .next t)
    (moved : (t.queue k).wrSeen ≠ (s.queue k).wrSeen) :
    (s.cfg.queueView = .lagged → a = .syncW k) ∧
    (s.cfg.queueView = .immediate → ∃ x, commandOf a s = some (k.producer, k.pushInstr x)) := by
  cases agentStep_queue k h with
  | kept hq => simp [hq] at moved
  | synced hv hq =>
    rcases hq with ⟨ha, -⟩ | ⟨-, hq⟩
    · exact ⟨fun _ => ha, by simp [hv]⟩
    · simp [hq, Queue.syncR] at moved
  | pushed x hf hq hpush =>
    refine ⟨fun hv => ?_, fun _ => commandOf_of_pushedOk h (by simp [hpush])⟩
    simp [hq, Queue.pushed, hv] at moved
  | popped he hq => simp [hq, Queue.popped] at moved

/-- R22, R163, R167: the producer's view is written by SYNC_R under LAGGED, and by the POP under IMMEDIATE. -/
theorem agentStep_rdSeenWrites {a : Agent} {s t : State} {k : QueueId} (h : agentStep a s = .next t)
    (moved : (t.queue k).rdSeen ≠ (s.queue k).rdSeen) :
    (s.cfg.queueView = .lagged → a = .syncR k) ∧
    (s.cfg.queueView = .immediate → commandOf a s = some (k.consumer, k.popInstr)) := by
  cases agentStep_queue k h with
  | kept hq => simp [hq] at moved
  | synced hv hq =>
    rcases hq with ⟨-, hq⟩ | ⟨ha, -⟩
    · simp [hq, Queue.syncW] at moved
    · exact ⟨fun _ => ha, by simp [hv]⟩
  | pushed x hf hq => simp [hq, Queue.pushed] at moved
  | popped he hq hpush hpop =>
    refine ⟨fun hv => ?_, fun _ => commandOf_of_poppedOk h (by simp [hpop])⟩
    simp [hq, Queue.popped, hv] at moved

/-! ### Who writes the other elements of the record (R22) -/

theorem effect_ddsWrites {i : Instr} {s u : State} {st : Status} {v : Bool} {d : Half} (h : Effect i s u st v d) :
    (u.dds.phase ≠ s.dds.phase → s.active = .core ∧ (i = .ddsNext ∨ ∃ x, i = .ddsSetPhase x)) ∧
    (u.dds.inc ≠ s.dds.inc → s.active = .core ∧ ∃ x, i = .ddsSetInc x) := by
  cases h with
  | ddsSetPhase x _ h => exact ⟨fun _ => ⟨h, .inr ⟨x, rfl⟩⟩, absurd rfl⟩
  | ddsNext _ h => exact ⟨fun _ => ⟨h, .inl rfl⟩, absurd rfl⟩
  | ddsSetInc x _ h => exact ⟨absurd rfl, fun _ => ⟨h, x, rfl⟩⟩
  | _ => exact ⟨absurd rfl, absurd rfl⟩

/-- R22: the phase is written by DDS.SETPHASE and DDS.NEXT on CORE, the increment by DDS.SETINC on CORE. -/
theorem agentStep_ddsWrites {a : Agent} {s t : State} (h : agentStep a s = .next t) :
    (t.dds.phase ≠ s.dds.phase →
      commandOf a s = some (.core, .ddsNext) ∨ ∃ x, commandOf a s = some (.core, .ddsSetPhase x)) ∧
    (t.dds.inc ≠ s.dds.inc → ∃ x, commandOf a s = some (.core, .ddsSetInc x)) := by
  cases agentStep_effect h with
  | command p rest i u st v d hc e =>
    have writes := effect_ddsWrites e
    rw [accept_dds, accept_active] at writes
    obtain ⟨phase, inc⟩ := writes
    rw [reply_dds, hc]
    refine ⟨fun moved => ?_, fun moved => ?_⟩
    · obtain ⟨rfl, hi⟩ := phase moved
      simpa using hi
    · obtain ⟨rfl, x, rfl⟩ := inc moved
      exact ⟨x, rfl⟩
  | _ => simp

theorem iir_mem_unitsWritten_iff (i : Instr) : Part.iir ∈ unitsWritten i ↔ i = .iirReset ∨ ∃ x, i = .iirProcess x := by
  cases i <;> simp [unitsWritten]

theorem demod_mem_unitsWritten_iff (i : Instr) : Part.demod ∈ unitsWritten i ↔ ∃ x, i = .demodProcess x := by
  cases i <;> simp [unitsWritten]

theorem frame_mem_unitsWritten_iff (i : Instr) : Part.frame ∈ unitsWritten i ↔ ∃ b, i = .frameProcess b := by
  cases i <;> simp [unitsWritten]

/-- R22, R47, R48: what changes a sticky bit or a copy. From exact copies an escalation under IMMEDIATE changes only the
copy of its own bit. -/
theorem agentStep_blkWrites {a : Agent} {s t : State} (h : agentStep a s = .next t) :
    (t.blk.txUnderrun ≠ s.blk.txUnderrun → commandOf a s = some (.xport, .txqPop)) ∧
    (t.blk.rxOverrun ≠ s.blk.rxOverrun → ∃ x, commandOf a s = some (.xport, .rxqPush x)) ∧
    (s.cfg.queueView = .lagged →
      t.blk.txUnderrunSeen ≠ s.blk.txUnderrunSeen ∨ t.blk.rxOverrunSeen ≠ s.blk.rxOverrunSeen → a = .syncF) ∧
    (s.cfg.queueView = .immediate → s.blk.Inv s.cfg →
      (t.blk.txUnderrunSeen ≠ s.blk.txUnderrunSeen → commandOf a s = some (.xport, .txqPop)) ∧
      (t.blk.rxOverrunSeen ≠ s.blk.rxOverrunSeen → ∃ x, commandOf a s = some (.xport, .rxqPush x))) := by
  cases agentStep_blk h with
  | kept hb => simp [hb]
  | synced ha hv hb => simp [hb, ha, hv]
  | underrun hc he hb =>
    refine ⟨fun _ => hc, ?_, fun hv => ?_, fun hv inv => ⟨fun _ => hc, ?_⟩⟩
    · simp [hb]
    · simp [hb, settle_lagged _ hv]
    · simp [hb, settle_immediate _ hv, (inv.exact_copies hv).2]
  | overrun x hc hf hb =>
    refine ⟨?_, fun _ => ⟨x, hc⟩, fun hv => ?_, fun hv inv => ⟨?_, fun _ => ⟨x, hc⟩⟩⟩
    · simp [hb]
    · simp [hb, settle_lagged _ hv]
    · simp [hb, settle_immediate _ hv, (inv.exact_copies hv).1]

/-- Settles O53: the writers of the DDS, of CORE's other units, of the queues and of the sticky bits, as said once
above. -/
theorem onlyTheNamedWritersWrite : Obligations.OnlyTheNamedWritersWrite := by
  intro s t a h
  obtain ⟨phase, inc⟩ := agentStep_ddsWrites h
  obtain ⟨underrun, overrun, copiesLagged, copiesImmediate⟩ := agentStep_blkWrites h
  refine ⟨phase, inc, fun moved => ?iir, fun moved => ?demod, fun moved => ?frame,
    agentStep_producerWrites (k := .txq) h, agentStep_consumerWrites (k := .txq) h,
    agentStep_producerWrites (k := .rxq) h, agentStep_consumerWrites (k := .rxq) h, underrun, overrun,
    fun hv => ⟨fun k => ⟨fun moved => (agentStep_wrSeenWrites h moved).1 hv,
      fun moved => (agentStep_rdSeenWrites h moved).1 hv⟩, copiesLagged hv⟩,
    fun hv => ⟨fun k => ⟨fun moved => (agentStep_wrSeenWrites h moved).2 hv,
      fun moved => (agentStep_rdSeenWrites h moved).2 hv⟩, fun inv => copiesImmediate hv inv.blk⟩⟩
  case iir =>
    obtain ⟨i, hc, hi⟩ := agentStep_coreWrites h (part := .iir) (by decide) moved
    rcases (iir_mem_unitsWritten_iff i).mp hi with rfl | ⟨x, rfl⟩
    · exact .inl hc
    · exact .inr ⟨x, hc⟩
  case demod =>
    obtain ⟨i, hc, hi⟩ := agentStep_coreWrites h (part := .demod) (by decide) moved
    obtain ⟨x, rfl⟩ := (demod_mem_unitsWritten_iff i).mp hi
    exact ⟨x, hc⟩
  case frame =>
    obtain ⟨i, hc, hi⟩ := agentStep_coreWrites h (part := .frame) (by decide) moved
    obtain ⟨b, rfl⟩ := (frame_mem_unitsWritten_iff i).mp hi
    exact ⟨b, hc⟩

/-! ### XPORT and the synchronisers make no queue of CORE's fuller (R238) -/

theorem runAgents_cons {a : Agent} {as : List Agent} {s t : State} (h : runAgents (a :: as) s = .next t) :
    ∃ u, agentStep a s = .next u ∧ runAgents as u = .next t := by
  rw [runAgents] at h
  cases step : agentStep a s with
  | next u =>
    rw [step] at h
    exact ⟨u, rfl, h⟩
  | fault | refused => simp [step] at h

/-- An agent that is not the producer of a queue cannot make the producer see it full. -/
theorem agentStep_notFull {a : Agent} {s t : State} {k : QueueId} (inv : (s.queue k).Inv s.cfg)
    (h : agentStep a s = .next t) (ha : a ≠ .port k.producer) (room : (s.queue k).fullP s.cfg.rbN = false) :
    (t.queue k).fullP t.cfg.rbN = false := by
  have nothing : pushedOk k a s t = [] := by
    by_contra pushed
    obtain ⟨x, hc⟩ := commandOf_of_pushedOk h pushed
    exact ha (commandOf_some_agent hc)
  have grown := agentStep_occP_le inv h
  rw [nothing, List.length_nil, Nat.add_zero] at grown
  have inv' := agentStep_queueInv inv h
  rw [agentStep_cfg h] at inv' ⊢
  have lt := inv.occP_lt
  rw [Bool.eq_false_iff, ne_eq, inv.fullP_iff] at room
  rw [Bool.eq_false_iff, ne_eq, inv'.fullP_iff]
  omega

theorem runAgents_notFull {as : List Agent} {s t : State} {k : QueueId} (inv : (s.queue k).Inv s.cfg)
    (h : runAgents as s = .next t) (ha : ∀ a ∈ as, a ≠ .port k.producer)
    (room : (s.queue k).fullP s.cfg.rbN = false) :
    (t.queue k).Inv t.cfg ∧ (t.queue k).fullP t.cfg.rbN = false := by
  induction as generalizing s with
  | nil =>
    obtain rfl := Host.Outcome.next.inj h
    exact ⟨inv, room⟩
  | cons a as ih =>
    obtain ⟨u, step, run⟩ := runAgents_cons h
    rw [List.forall_mem_cons] at ha
    exact ih (agentStep_queueInv inv step) run ha.2 (agentStep_notFull inv step ha.1 room)

/-- Settles O39: after the run CORE still sees room in `txq`, and a PUSH that finds room answers OK. -/
theorem notFullOnCoreStaysNotFull : Obligations.NotFullOnCoreStaysNotFull := by
  intro s t as x inv room ha run
  obtain ⟨inv', room'⟩ := runAgents_notFull (k := .txq) inv.txq run ha room
  exact ⟨_, exec_push_ok (k := .txq) (s := { t with active := .core }) x rfl room' inv'.wr_lt, by simp⟩

/-! ### Fair schedules (R73, R169) -/

theorem runSchedule_succ {sched : Nat → Agent} {n : Nat} {s t : State} (h : runSchedule sched n s = .next t) :
    runSchedule sched (n + 1) s = agentStep (sched n) t := by
  rw [runSchedule, h]

/-- R235, for a schedule. -/
theorem runSchedule_cfg {sched : Nat → Agent} {n : Nat} {s t : State} (h : runSchedule sched n s = .next t) :
    t.cfg = s.cfg := by
  induction n generalizing t with
  | zero => rw [← Host.Outcome.next.inj h]
  | succ n ih =>
    cases run : runSchedule sched n s with
    | next u =>
      rw [runSchedule_succ run] at h
      rw [agentStep_cfg h, ih run]
    | fault | refused => simp [runSchedule, run] at h

/-- R169: on a fair schedule that does not stop, each synchroniser has just stepped at some later point. -/
theorem fair_steps_later {sched : Nat → Agent} {s : State} (fair : FairSync sched)
    (goes_on : ∀ n, ∃ t, runSchedule sched n s = .next t) {a : Agent} (ha : a ∈ syncAgents) (n : Nat) :
    ∃ m u, n < m ∧ runSchedule sched m s = agentStep a u ∧ u.cfg = s.cfg := by
  obtain ⟨m, le, turn⟩ := fair a ha n
  obtain ⟨u, run⟩ := goes_on m
  exact ⟨m + 1, u, Nat.lt_succ_of_le le, by rw [runSchedule_succ run, turn], runSchedule_cfg run⟩

/-- Settles O40: right after its synchroniser's step a view or copy equals its source. -/
theorem fairSchedulesShowEveryCursor : Obligations.FairSchedulesShowEveryCursor := by
  intro sched s hv fair goes_on n
  refine ⟨fun k => ?_, fun k => ?_, ?_⟩
  · obtain ⟨m, u, lt, run, cfg⟩ := fair_steps_later fair goes_on (a := .syncW k) (mem_syncAgents nofun) n
    rw [agentStep_syncW k (by rw [cfg, hv])] at run
    exact ⟨m, _, lt, run, by simp [Queue.syncW]⟩
  · obtain ⟨m, u, lt, run, cfg⟩ := fair_steps_later fair goes_on (a := .syncR k) (mem_syncAgents nofun) n
    rw [agentStep_syncR k (by rw [cfg, hv])] at run
    exact ⟨m, _, lt, run, by simp [Queue.syncR]⟩
  · obtain ⟨m, u, lt, run, cfg⟩ := fair_steps_later fair goes_on (a := .syncF) (mem_syncAgents nofun) n
    rw [agentStep_syncF (by rw [cfg, hv])] at run
    exact ⟨m, _, lt, run, rfl, rfl⟩

/-! ### A port's step in two states -/

/-- A port's step carries over to a state with the same host's side, when each of its commands completes there in the
same way; `R` is what the two states after the step then have in common. -/
theorem portStep_carries {p : Port} {s s' t : State} {R : State → State → Prop} (h : portStep p s = .next t)
    (io : s'.io p = s.io p) (idle : R s s')
    (illegal : ∀ rest w, R ((s.accept p rest).reply w) ((s'.accept p rest).reply w))
    (command : ∀ rest i u st v d, Effect i (s.accept p rest) u st v d →
      ∃ u', Effect i (s'.accept p rest) u' st v d ∧ ∀ w, R (u.reply w) (u'.reply w)) :
    ∃ t', portStep p s' = .next t' ∧ R t t' := by
  rcases portStep_next h with ⟨hp, rfl⟩ | ⟨c, rest, hp, he, ⟨hd, rfl⟩ | ⟨i, u, st, v, d, hd, e, rfl⟩⟩ <;>
    rw [← io] at hp
  · exact ⟨s', portStep_nil hp, idle⟩
  · exact ⟨_, (portStep_command hp he).trans (execute_illegal hd), illegal rest _⟩
  · obtain ⟨u', e', hR⟩ := command rest i u st v d e
    exact ⟨_, ((portStep_command hp he).trans (execute_command hd)).trans (effect_exec e'), hR _⟩

/-! ### What XPORT cannot see (R218) -/

/-- Two states agree on all that XPORT's commands read or write. -/
structure XportAgree (s s' : State) : Prop where
  cfg : s'.cfg = s.cfg
  txq : s'.txq = s.txq
  rxq : s'.rxq = s.rxq
  blk : s'.blk = s.blk
  xport : s'.xport = s.xport

theorem XportAgree.accept {s s' : State} (h : XportAgree s s') (rest : List Offer) :
    XportAgree (s.accept .xport rest) (s'.accept .xport rest) :=
  ⟨h.cfg, h.txq, h.rxq, h.blk, congrArg (fun io => { io with pending := rest }) h.xport⟩

theorem XportAgree.reply {s s' : State} (h : XportAgree s s') (active : s.active = .xport)
    (active' : s'.active = .xport) (w : Word) : XportAgree (s.reply w) (s'.reply w) := by
  rw [State.reply, State.reply, active, active']
  exact ⟨h.cfg, h.txq, h.rxq, h.blk,
    congrArg (fun io : PortIo => { io with responses := io.responses ++ [w] }) h.xport⟩

/-- On XPORT a command completes in the same way in two states that agree on what XPORT sees. -/
theorem XportAgree.effect {i : Instr} {s s' u : State} {st : Status} {v : Bool} {d : Half} (h : XportAgree s s')
    (active : s.active = .xport) (active' : s'.active = .xport) (e : Effect i s u st v d) :
    ∃ u', Effect i s' u' st v d ∧ XportAgree u u' := by
  obtain ⟨cfg, txq, rxq, blk, xport⟩ := h
  cases s
  cases s'
  dsimp only at *
  subst cfg txq rxq blk xport active active'
  cases e with
  | wrongPort _ _ hp => exact ⟨_, .wrongPort i _ hp, rfl, rfl, rfl, rfl, rfl⟩
  | txqPopEmpty _ hp he => exact ⟨_, .txqPopEmpty _ hp he, rfl, rfl, rfl, rfl, rfl⟩
  | txqPopOk _ hp he hr => exact ⟨_, .txqPopOk _ hp he hr, rfl, rfl, rfl, rfl, rfl⟩
  | rxqPushFull x _ hp hf => exact ⟨_, .rxqPushFull x _ hp hf, rfl, rfl, rfl, rfl, rfl⟩
  | rxqPushOk x _ hp hf hw => exact ⟨_, .rxqPushOk x _ hp hf hw, rfl, rfl, rfl, rfl, rfl⟩
  | txqIsEmpty => exact ⟨_, .txqIsEmpty _, rfl, rfl, rfl, rfl, rfl⟩
  | txqIsFull => exact ⟨_, .txqIsFull _, rfl, rfl, rfl, rfl, rfl⟩
  | rxqIsEmpty => exact ⟨_, .rxqIsEmpty _, rfl, rfl, rfl, rfl, rfl⟩
  | rxqIsFull => exact ⟨_, .rxqIsFull _, rfl, rfl, rfl, rfl, rfl⟩
  | blkStatus => exact ⟨_, .blkStatus _, rfl, rfl, rfl, rfl, rfl⟩
  | _ => contradiction

/-- Settles O54: XPORT's step carries over between states that agree on what XPORT sees. -/
theorem xportLearnsNothingOfTheCoreUnits : Obligations.XportLearnsNothingOfTheCoreUnits := by
  intro s s' t cfg txq rxq blk xport h
  have agree : XportAgree s s' := ⟨cfg, txq, rxq, blk, xport⟩
  obtain ⟨t', run, after⟩ := portStep_carries h xport agree (fun rest w => (agree.accept rest).reply rfl rfl w)
    fun rest i u st v d e => by
      obtain ⟨u', e', agree'⟩ := (agree.accept rest).effect rfl rfl e
      obtain ⟨-, -, -, active, -⟩ := effect_host e
      obtain ⟨-, -, -, active', -⟩ := effect_host e'
      exact ⟨u', e', agree'.reply active active'⟩
  exact ⟨t', run, after.xport, after.txq, after.rxq, after.blk⟩

/-! ### What CORE does not read (R164) -/

/-- The state with other values of what belongs to XPORT's side: its cursors and views, and the sticky bits. -/
def State.withXportSide (s : State) (txRd txWrSeen rxWr rxRdSeen : Nat) (tx rx : Bool) : State :=
  { s with
    txq := { s.txq with rd := txRd, wrSeen := txWrSeen }
    rxq := { s.rxq with wr := rxWr, rdSeen := rxRdSeen }
    blk := { s.blk with txUnderrun := tx, rxOverrun := rx } }

/-- On CORE a command completes with the same answer whatever XPORT's side is. -/
theorem effect_withXportSide {i : Instr} {s u : State} {st : Status} {v : Bool} {d : Half} (e : Effect i s u st v d)
    (active : s.active = .core) (txRd txWrSeen rxWr rxRdSeen : Nat) (tx rx : Bool) :
    ∃ u', Effect i (s.withXportSide txRd txWrSeen rxWr rxRdSeen tx rx) u' st v d := by
  cases s
  dsimp only at active
  subst active
  cases e with
  | wrongPort _ _ hp => exact ⟨_, .wrongPort i _ hp⟩
  | ddsSetPhase x _ hp => exact ⟨_, .ddsSetPhase x _ hp⟩
  | ddsSetInc x _ hp => exact ⟨_, .ddsSetInc x _ hp⟩
  | ddsNext _ hp => exact ⟨_, .ddsNext (State.withXportSide _ ..) hp⟩
  | iirReset _ hp => exact ⟨_, .iirReset _ hp⟩
  | iirProcess x _ hp => exact ⟨_, .iirProcess x (State.withXportSide _ ..) hp⟩
  | demodProcess x _ hp => exact ⟨_, .demodProcess x (State.withXportSide _ ..) hp⟩
  | frameProcess b _ hp => exact ⟨_, .frameProcess b (State.withXportSide _ ..) hp⟩
  | txqPushFull x _ hp hf => exact ⟨_, .txqPushFull x _ hp hf⟩
  | txqPushOk x _ hp hf hw => exact ⟨_, .txqPushOk x _ hp hf hw⟩
  | rxqPopEmpty _ hp he => exact ⟨_, .rxqPopEmpty _ hp he⟩
  | rxqPopOk _ hp he hr => exact ⟨_, .rxqPopOk (State.withXportSide _ ..) hp he hr⟩
  | txqIsEmpty => exact ⟨_, .txqIsEmpty (State.withXportSide _ ..)⟩
  | txqIsFull => exact ⟨_, .txqIsFull (State.withXportSide _ ..)⟩
  | rxqIsEmpty => exact ⟨_, .rxqIsEmpty (State.withXportSide _ ..)⟩
  | rxqIsFull => exact ⟨_, .rxqIsFull (State.withXportSide _ ..)⟩
  | blkStatus => exact ⟨_, .blkStatus (State.withXportSide _ ..)⟩
  | _ => contradiction

/-- Settles O55: CORE's step carries over to a state with another XPORT side, with the same answer. -/
theorem coreNeverReadsXportsCursors : Obligations.CoreNeverReadsXportsCursors := by
  intro s t txRd txWrSeen rxWr rxRdSeen tx rx h
  refine portStep_carries (s' := s.withXportSide txRd txWrSeen rxWr rxRdSeen tx rx) (R := fun t t' => t'.core = t.core)
    h rfl rfl (fun _ _ => rfl) fun rest i u st v d e => ?_
  obtain ⟨u', e'⟩ := effect_withXportSide e rfl txRd txWrSeen rxWr rxRdSeen tx rx
  obtain ⟨-, core, -, active, -⟩ := effect_host e
  obtain ⟨-, core', -, active', -⟩ := effect_host e'
  refine ⟨u', e', fun w => ?_⟩
  rw [State.reply, State.reply, active, active']
  exact congrArg (fun io : PortIo => { io with responses := io.responses ++ [w] }) (core'.trans core.symm)

/-! ### Every IMMEDIATE step is a LAGGED step and the five synchronisers' steps (C5) -/

/-- The state after one step of each synchroniser under LAGGED (R166 to R168). -/
def State.synced (s : State) : State :=
  { s with txq := s.txq.syncW.syncR, rxq := s.rxq.syncW.syncR, blk := s.blk.syncF }

theorem runAgents_syncAgents {s : State} (hv : s.cfg.queueView = .lagged) :
    runAgents syncAgents s = .next s.synced := by
  simp [syncAgents, runAgents, agentStep_syncW, agentStep_syncR, agentStep_syncF, hv, State.synced, State.setQueue]

theorem synced_reply (s : State) (w : Word) : (s.reply w).synced = s.synced.reply w := by
  unfold State.reply State.setIo State.synced
  cases s.active <;> rfl

theorem reply_withView (s : State) (v : QueueView) (w : Word) : (s.withView v).reply w = (s.reply w).withView v := by
  unfold State.reply State.setIo State.withView
  cases s.active <;> rfl

theorem accept_withView (s : State) (v : QueueView) (p : Port) (rest : List Offer) :
    (s.withView v).accept p rest = (s.accept p rest).withView v := by
  cases p <;> rfl

/-- The synchronisers turn `s` into `t` when they turn its queues and sticky bits into those of `t` and the two states
agree elsewhere. -/
theorem synced_eq {s t : State} (txq : s.txq.syncW.syncR = t.txq) (rxq : s.rxq.syncW.syncR = t.rxq)
    (blk : s.blk.syncF = t.blk) (rest : { s with txq := t.txq, rxq := t.rxq, blk := t.blk } = t) : s.synced = t := by
  rw [State.synced, txq, rxq, blk, rest]

theorem sync_of_exact {q : Queue} (h : q.wrSeen = q.wr ∧ q.rdSeen = q.rd) : q.syncW.syncR = q := by
  cases q
  dsimp only at h
  obtain ⟨rfl, rfl⟩ := h
  rfl

theorem syncF_of_exact {b : Blk} (h : b.txUnderrunSeen = b.txUnderrun ∧ b.rxOverrunSeen = b.rxOverrun) :
    b.syncF = b := by
  cases b
  dsimp only at h
  obtain ⟨rfl, rfl⟩ := h
  rfl

theorem sync_pushed_lagged {c : Config} {q : Queue} (x : Half) (hv : c.queueView = .immediate)
    (h : q.rdSeen = q.rd) : (q.pushed (c.withView .lagged) x).syncW.syncR = q.pushed c x := by
  simp [Queue.syncW, Queue.syncR, Queue.pushed, hv, h]

theorem sync_popped_lagged {c : Config} {q : Queue} (hv : c.queueView = .immediate) (h : q.wrSeen = q.wr) :
    (q.popped (c.withView .lagged)).syncW.syncR = q.popped c := by
  simp [Queue.syncW, Queue.syncR, Queue.popped, hv, h]

theorem syncF_settle_lagged {c : Config} (b : Blk) (hv : c.queueView = .immediate) :
    (b.settle (c.withView .lagged)).syncF = b.settle c := by
  rw [settle_lagged b rfl, settle_immediate b hv]

/-- A command under LAGGED, and then the synchronisers, is the command under IMMEDIATE. -/
theorem effect_lagged {i : Instr} {s u : State} {st : Status} {v : Bool} {d : Half} (inv : s.Inv)
    (hv : s.cfg.queueView = .immediate) (e : Effect i s u st v d) :
    ∃ u', Effect i (s.withView .lagged) u' st v d ∧ u'.synced = u.withView .lagged := by
  have txViews := inv.txq.exact_views hv
  have rxViews := inv.rxq.exact_views hv
  have txq := sync_of_exact txViews
  have rxq := sync_of_exact rxViews
  have blk := syncF_of_exact (inv.blk.exact_copies hv)
  cases e with
  | wrongPort _ _ hp => exact ⟨_, .wrongPort i _ hp, synced_eq txq rxq blk rfl⟩
  | ddsSetPhase x _ hp => exact ⟨_, .ddsSetPhase x _ hp, synced_eq txq rxq blk rfl⟩
  | ddsSetInc x _ hp => exact ⟨_, .ddsSetInc x _ hp, synced_eq txq rxq blk rfl⟩
  | ddsNext _ hp => exact ⟨_, .ddsNext (s.withView .lagged) hp, synced_eq txq rxq blk rfl⟩
  | iirReset _ hp => exact ⟨_, .iirReset _ hp, synced_eq txq rxq blk rfl⟩
  | iirProcess x _ hp => exact ⟨_, .iirProcess x (s.withView .lagged) hp, synced_eq txq rxq blk rfl⟩
  | demodProcess x _ hp => exact ⟨_, .demodProcess x (s.withView .lagged) hp, synced_eq txq rxq blk rfl⟩
  | frameProcess b _ hp => exact ⟨_, .frameProcess b (s.withView .lagged) hp, synced_eq txq rxq blk rfl⟩
  | txqPushFull x _ hp hf => exact ⟨_, .txqPushFull x _ hp hf, synced_eq txq rxq blk rfl⟩
  | txqPushOk x _ hp hf hw =>
    exact ⟨_, .txqPushOk x _ hp hf hw, synced_eq (sync_pushed_lagged x hv txViews.2) rxq blk rfl⟩
  | txqPopEmpty _ hp he => exact ⟨_, .txqPopEmpty _ hp he, synced_eq txq rxq (syncF_settle_lagged _ hv) rfl⟩
  | txqPopOk _ hp he hr =>
    exact ⟨_, .txqPopOk (s.withView .lagged) hp he hr, synced_eq (sync_popped_lagged hv txViews.1) rxq blk rfl⟩
  | rxqPushFull x _ hp hf => exact ⟨_, .rxqPushFull x _ hp hf, synced_eq txq rxq (syncF_settle_lagged _ hv) rfl⟩
  | rxqPushOk x _ hp hf hw =>
    exact ⟨_, .rxqPushOk x _ hp hf hw, synced_eq txq (sync_pushed_lagged x hv rxViews.2) blk rfl⟩
  | rxqPopEmpty _ hp he => exact ⟨_, .rxqPopEmpty _ hp he, synced_eq txq rxq blk rfl⟩
  | rxqPopOk _ hp he hr =>
    exact ⟨_, .rxqPopOk (s.withView .lagged) hp he hr, synced_eq txq (sync_popped_lagged hv rxViews.1) blk rfl⟩
  | txqIsEmpty => exact ⟨_, .txqIsEmpty (s.withView .lagged), synced_eq txq rxq blk rfl⟩
  | txqIsFull => exact ⟨_, .txqIsFull (s.withView .lagged), synced_eq txq rxq blk rfl⟩
  | rxqIsEmpty => exact ⟨_, .rxqIsEmpty (s.withView .lagged), synced_eq txq rxq blk rfl⟩
  | rxqIsFull => exact ⟨_, .rxqIsFull (s.withView .lagged), synced_eq txq rxq blk rfl⟩
  | blkStatus => exact ⟨_, .blkStatus (s.withView .lagged), synced_eq txq rxq blk rfl⟩

theorem State.Inv.synced_withView {s : State} (inv : s.Inv) (hv : s.cfg.queueView = .immediate) (v : QueueView) :
    (s.withView v).synced = s.withView v :=
  synced_eq (sync_of_exact (inv.txq.exact_views hv)) (sync_of_exact (inv.rxq.exact_views hv))
    (syncF_of_exact (inv.blk.exact_copies hv)) rfl

/-- Settles O41: the port's step carries over to LAGGED (`effect_lagged`), up to the synchronisers' steps. -/
theorem laggedAdmitsEveryImmediateStep : Obligations.LaggedAdmitsEveryImmediateStep := by
  intro s t p inv hv h
  have accepted (rest : List Offer) : (s.accept p rest).Inv := inv.of_onlyChanges (onlyChanges_accept s p rest)
  have immediate (rest : List Offer) : (s.accept p rest).cfg.queueView = .immediate := by rw [accept_cfg, hv]
  obtain ⟨t', run, sync⟩ := portStep_carries (s' := s.withView .lagged)
    (R := fun t t' => t'.synced = t.withView .lagged) h (withView_io ..) (inv.synced_withView hv _)
    (fun rest w => by
      rw [accept_withView, synced_reply, (accepted rest).synced_withView (immediate rest), reply_withView])
    fun rest i u st v d e => by
      obtain ⟨u', e', sync⟩ := effect_lagged (accepted rest) (immediate rest) e
      exact ⟨u', accept_withView s _ p rest ▸ e', fun w => by rw [synced_reply, sync, reply_withView]⟩
  have step : agentStep (.port p) (s.withView .lagged) = .next t' := run
  rw [runAgents, step]
  exact (runAgents_syncAgents (by rw [agentStep_cfg step]; rfl)).trans (congrArg _ sync)

/-! ### The assembler (R92, R93) -/

/-- A line is the word with its mnemonic's UNIT and OP and its operand as DATA, or is refused with its operand. -/
theorem assembles_of_map {m : Mnemonic} {unitOp : Nat} {o : Operand} {α : Type} {x : Option α} {build : α → Instr}
    {data : α → Nat} (instr : m.instr o = x.map build)
    (word : ∀ a, (encode (build a)).toNat = unitOp * 2 ^ 24 + data a) : Assembles m unitOp o (x.map data) := by
  rw [Assembles, assemble, instr, Option.map_map, Option.map_map]
  refine congrArg (Option.map · x) (funext fun a => ?_)
  rw [Function.comp_apply, Function.comp_apply, ← word, BitVec.ofNat_toNat, BitVec.setWidth_eq]

theorem u16_dec_toNat (v : Int) :
    (Operand.u16 (.dec v)).map BitVec.toNat = if 0 ≤ v ∧ v ≤ 65535 then some v.toNat else none := by
  rw [Operand.u16]
  split
  · rw [Option.map_some, BitVec.toNat_ofInt, Int.emod_eq_of_lt (by omega) (by omega)]
  · rfl

theorem int16_dec_toNat (v : Int) : (Operand.int16 (.dec v)).map BitVec.toNat =
    if -32768 ≤ v ∧ v ≤ 32767 then some (v % 2 ^ 16).toNat else none := by
  rw [Operand.int16]
  split
  · rw [Option.map_some, BitVec.toNat_ofInt]
    rfl
  · rfl

theorem u16_hex_toNat (v : Nat) : (Operand.u16 (.hex v)).map BitVec.toNat = if v ≤ 0xFFFF then some v else none := by
  rw [Operand.u16]
  split
  · rw [Option.map_some, BitVec.toNat_ofNat, Nat.mod_eq_of_lt (by omega)]
  · rfl

theorem bit_dec_toNat (v : Int) :
    (Operand.bit (.dec v)).map Bool.toNat = if v = 0 ∨ v = 1 then some v.toNat else none := by
  by_cases h0 : v = 0
  · subst h0
    rfl
  · by_cases h1 : v = 1
    · subst h1
      rfl
    · rw [if_neg (by simp [h0, h1]), Operand.bit]
      · rfl
      · exact fun e => h0 (Operand.dec.inj e)
      · exact fun e => h1 (Operand.dec.inj e)

/-- The three forms of a 16-bit operand: a `<u16>` and an `<int16>` differ in their decimal form only. -/
theorem assembles_half {m : Mnemonic} {unitOp : Nat} {build : Half → Instr} {read : Operand → Option Half}
    {decimal : Int → Option Nat} (dec : ∀ v, (read (.dec v)).map BitVec.toNat = decimal v)
    (hex : ∀ v, read (.hex v) = Operand.u16 (.hex v)) (absent : read .absent = none)
    (instr : ∀ o, m.instr o = (read o).map build)
    (word : ∀ x, (encode (build x)).toNat = unitOp * 2 ^ 24 + x.toNat) :
    Assembles m unitOp .absent none ∧ (∀ v : Int, Assembles m unitOp (.dec v) (decimal v)) ∧
    ∀ v : Nat, Assembles m unitOp (.hex v) (if v ≤ 0xFFFF then some v else none) := by
  refine ⟨?_, fun v => ?_, fun v => ?_⟩
  · exact assembles_of_map (x := none) (by rw [instr, absent]) word
  · rw [← dec]
    exact assembles_of_map (instr _) word
  · rw [← u16_hex_toNat, ← hex]
    exact assembles_of_map (instr _) word

theorem assembles_noOperand {m : Mnemonic} {unitOp : Nat} {i : Instr} (instr : ∀ o, m.instr o = Operand.none i o)
    (word : (encode i).toNat = unitOp * 2 ^ 24 + 0) :
    Assembles m unitOp .absent (some 0) ∧ (∀ v : Int, Assembles m unitOp (.dec v) none) ∧
    ∀ v : Nat, Assembles m unitOp (.hex v) none := by
  have taken {o : Operand} {x : Option Unit} (hx : Operand.none i o = x.map fun _ => i) :
      Assembles m unitOp o (x.map fun _ => 0) := assembles_of_map ((instr o).trans hx) fun _ => word
  exact ⟨taken (x := some ()) rfl, fun _ => taken (x := none) rfl, fun _ => taken (x := none) rfl⟩

/-- Settles O5: each mnemonic by the kind of its operand; every line it takes is the word of a command, which
decodes. -/
theorem assemblerRefusesOperandsOutOfRange : Obligations.AssemblerRefusesOperandsOutOfRange := by
  refine ⟨?u16, ?int16, ?bit, ?none, fun m o w h => ?decodes, fun w => ?word⟩
  case u16 =>
    have u16 {m unitOp build} := assembles_half (m := m) (unitOp := unitOp) (build := build) u16_dec_toNat
      (fun _ => rfl) rfl
    simp only [List.forall_mem_cons]
    exact ⟨u16 (fun _ => rfl) fun _ => encode_toNat _, u16 (fun _ => rfl) fun _ => encode_toNat _, nofun⟩
  case int16 =>
    have int16 {m unitOp build} := assembles_half (m := m) (unitOp := unitOp) (build := build) int16_dec_toNat
      (fun _ => rfl) rfl
    simp only [List.forall_mem_cons]
    exact ⟨int16 (fun _ => rfl) fun _ => encode_toNat _, int16 (fun _ => rfl) fun _ => encode_toNat _,
      int16 (fun _ => rfl) fun _ => encode_toNat _, int16 (fun _ => rfl) fun _ => encode_toNat _, nofun⟩
  case bit =>
    have word (b : Bool) : (encode (.frameProcess b)).toNat = 0x40 * 2 ^ 24 + b.toNat := encode_toNat _
    refine ⟨assembles_of_map (x := none) rfl word, fun v => ?_, fun v => assembles_of_map (x := none) rfl word⟩
    rw [← bit_dec_toNat]
    exact assembles_of_map rfl word
  case none =>
    simp only [List.forall_mem_cons]
    exact ⟨assembles_noOperand (fun _ => rfl) rfl, assembles_noOperand (fun _ => rfl) rfl,
      assembles_noOperand (fun _ => rfl) rfl, assembles_noOperand (fun _ => rfl) rfl,
      assembles_noOperand (fun _ => rfl) rfl, assembles_noOperand (fun _ => rfl) rfl,
      assembles_noOperand (fun _ => rfl) rfl, assembles_noOperand (fun _ => rfl) rfl,
      assembles_noOperand (fun _ => rfl) rfl, nofun⟩
  case decodes =>
    obtain ⟨i, -, rfl⟩ := Option.map_eq_some_iff.mp h
    simp [decode_encode]
  case word => rw [assemble, if_pos w.isLt, BitVec.ofNat_toNat, BitVec.setWidth_eq]

/-! ### The step of a scheduled port (R86, R239) -/

/-- Settles O6: the step's command runs in the state that took its word. -/
theorem stepRunsTheDecodedCommand : Obligations.StepRunsTheDecodedCommand := by
  intro s p later w rest i hs hp hd
  have taken : (({ s with sched := later } : State).io p).pending = ⟨w, false⟩ :: rest := by rw [withSched_io, hp]
  refine ⟨({ s with sched := later } : State).accept p rest, ?_, accept_active .., accept_sched ..,
    accept_io_pending .., ?_, fun q hq => ?_, (onlyChanges_sched s later).trans (onlyChanges_accept _ p rest)⟩
  · rw [step_agent hs, agentStep, portStep_command taken rfl, execute_command hd]
  · rw [accept_io_responses, withSched_io]
  · rw [accept_io_ne _ _ _ _ hq, withSched_io]

/-- Settles O11: the port looks at the mark before the word. -/
theorem overlappingCommandIsRefused : Obligations.OverlappingCommandIsRefused := by
  intro s p later w rest hs hp
  rw [step_agent hs]
  exact portStep_early ((congrArg PortIo.pending (withSched_io s later p)).trans hp) rfl

/-! ### A cursor out of range (log 7) -/

theorem effect_push_wr_lt {k : QueueId} {x : Half} {s u : State} {v : Bool} {d : Half}
    (e : Effect (k.pushInstr x) s u .ok v d) : (s.queue k).wr < s.cfg.rbN := by
  cases k with
  | txq => cases e with | txqPushOk _ _ _ _ hw => exact hw
  | rxq => cases e with | rxqPushOk _ _ _ _ hw => exact hw

theorem exec_push_missingCell {k : QueueId} {s : State} (x : Half) (h : s.active = k.producer)
    (room : (s.queue k).fullP s.cfg.rbN = false) (out : s.cfg.rbN ≤ (s.queue k).wr) :
    exec (k.pushInstr x) s = .fault .noSuchCell := by
  refine (effect_total _ s).elim ?_ And.left
  rintro ⟨u, st, v, d, e⟩
  obtain rfl := (effect_push_ok_iff e).mpr ⟨h, room⟩
  exact absurd (effect_push_wr_lt e) (Nat.not_lt.mpr out)

theorem exec_pop_missingCell {k : QueueId} {s : State} (h : s.active = k.consumer)
    (some_seen : (s.queue k).emptyC = false) (out : s.cfg.rbN ≤ (s.queue k).rd) :
    exec k.popInstr s = .fault .noSuchCell := by
  refine (effect_total _ s).elim ?_ And.left
  rintro ⟨u, st, v, d, e⟩
  cases k with
  | txq =>
    cases e with
    | wrongPort _ _ hp => exact absurd (by simp [popInstr_ports, h]) hp
    | txqPopEmpty _ _ he => exact absurd he (Bool.eq_false_iff.mp some_seen)
    | txqPopOk _ _ _ hr => exact absurd hr (Nat.not_lt.mpr out)
  | rxq =>
    cases e with
    | wrongPort _ _ hp => exact absurd (by simp [popInstr_ports, h]) hp
    | rxqPopEmpty _ _ he => exact absurd he (Bool.eq_false_iff.mp some_seen)
    | rxqPopOk _ _ _ hr => exact absurd hr (Nat.not_lt.mpr out)

/-- Settles O32: the four commands, by queue and side. -/
theorem missingCellFaults : Obligations.MissingCellFaults := fun _ x =>
  ⟨fun h room out => exec_push_missingCell (k := .txq) x h (beq_eq_false_iff_ne.mpr room) out,
    fun h seen out => exec_pop_missingCell (k := .txq) h (beq_eq_false_iff_ne.mpr seen) out,
    fun h room out => exec_push_missingCell (k := .rxq) x h (beq_eq_false_iff_ne.mpr room) out,
    fun h seen out => exec_pop_missingCell (k := .rxq) h (beq_eq_false_iff_ne.mpr seen) out⟩

/-! ### Reset, the configuration and the storage (R3, R230, log 8) -/

theorem resetWith_inv (c : Config) : (State.resetWith c).Inv where
  txq := resetWith_queueInv c .txq
  rxq := resetWith_queueInv c .rxq
  blk := ⟨id, id, fun _ => ⟨rfl, rfl⟩⟩
  frame := nofun

/-- Settles O48: `resetWith_inv`, and the defaults of R3. -/
theorem resetMeetsTheInvariant : Obligations.ResetMeetsTheInvariant :=
  ⟨resetWith_inv, resetWith_inv _, rfl, rfl, rfl, rfl⟩

/-- Settles O56: `canonical_ext` and read after write. -/
theorem storageIsCanonical : Obligations.StorageIsCanonical :=
  ⟨fun m m' wf wf' same =>
    congrArg Memory.mk (canonical_ext ((Memory.wf_iff m).mp wf) ((Memory.wf_iff m').mp wf') same),
    fun m i v wf => ⟨Memory.write_wf m i v wf, fun j => Memory.read_write m i v j wf⟩⟩

/-- Settles O57: a parameter out of range contradicts its part of `Params.Legal`. -/
theorem illegalConfigurationIsRefused : Obligations.IllegalConfigurationIsRefused := by
  refine fun p => ⟨fun out => dif_neg ?_, fun legal => ⟨⟨p, legal⟩, dif_pos legal, rfl⟩⟩
  rintro ⟨tb, wave, f, lag, size, tx, rx⟩
  have depth : demodDepth = 22 := rfl
  omega

/-! ### An ended run (R220, R246) -/

theorem ended_iff (s : State) : s.ended ↔ ∀ p, (s.io p).pending = [] :=
  ⟨fun h p => by
    cases p
    · exact h.1
    · exact h.2, fun h => ⟨h .core, h .xport⟩⟩

/-- With both hosts' lists exhausted a step of any agent completes, executes no command and leaves the ports as they
are. -/
theorem ended_agentStep (a : Agent) {s : State} (ended : s.ended) :
    ∃ t, agentStep a s = .next t ∧ commandOf a s = none ∧ ∀ p, t.io p = s.io p := by
  cases a with
  | port p =>
    have idle := (ended_iff s).mp ended p
    exact ⟨s, portStep_nil idle, commandOf_port_nil idle, fun _ => rfl⟩
  | syncW k => exact ⟨_, rfl, rfl, fun _ => agentStep_io_ne (a := .syncW k) rfl nofun⟩
  | syncR k => exact ⟨_, rfl, rfl, fun _ => agentStep_io_ne (a := .syncR k) rfl nofun⟩
  | syncF => exact ⟨_, rfl, rfl, fun _ => agentStep_io_ne (a := .syncF) rfl nofun⟩

/-- Settles O58: without a command the elements that a command alone writes stay as they are. -/
theorem endedRunMovesOnlyViews : Obligations.EndedRunMovesOnlyViews := by
  refine ⟨fun s => step_nil, fun s a ended => ?_⟩
  obtain ⟨t, h, idle, io⟩ := ended_agentStep a ended
  obtain ⟨underrun, overrun, -⟩ := agentStep_blkWrites h
  refine ⟨t, h, (ended_iff t).mpr fun p => ?_, congrArg PortIo.responses (io .core),
    congrArg PortIo.responses (io .xport), ⟨agentStep_cfg h, fun part hp => ?_⟩, fun k => ⟨?_, ?_, ?_⟩, ?_, ?_⟩
  · rw [io, (ended_iff s).mp ended p]
  · by_contra moved
    rcases agentStep_writes h moved with ⟨p, i, hc, -⟩ | ⟨-, hpart⟩
    · simp [idle] at hc
    · exact hp hpart
  · by_contra moved
    simpa [idle] using agentStep_producerWrites h (.inl moved)
  · by_contra moved
    simpa [idle] using agentStep_producerWrites h (.inr moved)
  · by_contra moved
    simpa [idle] using agentStep_consumerWrites h moved
  · by_contra moved
    simpa [idle] using underrun moved
  · by_contra moved
    simpa [idle] using overrun moved

end Sys2Proof.Machine
end
